-- ==== Sys2Proof/Word.lean ====
section
/-! DEFINITION. The bit widths of LZWCORE (00_scope.md R10, R11): what the spec treats as bits. -/

namespace Sys2Proof

/-- A symbol: one byte of a stream (R10, R16). -/
abbrev Byte := BitVec 8

/-- A word of the 32-bit register bus (R10). -/
abbrev Word := BitVec 32

/-- A code value, `code ∈ [0, 65535]` (R10). -/
abbrev Code := BitVec 16

/-- `next_code`: 17 bits, since it can reach 65536 (R10). -/
abbrev NextCode := BitVec 17

end Sys2Proof
end

