-- ==== Sys2Proof/Syntax.lean ====
section
/-! DEFINITION. The instructions of LZWCORE: one constructor per row of spec/opcode_table.json, the
command words a host writes to CMD (30_encoding.md R94) and the classes of a received code value (R97). -/

namespace Sys2Proof

/-- Direction of an operation (30_encoding.md R93: 0 compress, 1 decompress). -/
inductive Dir where
  | compress
  | decompress
deriving DecidableEq, Repr, Inhabited

/-- The four code-stream strategies (30_encoding.md R92: 0 TEXT, 1 FIXED16, 2 FIXEDW, 3 ADAPTIVE). -/
inductive Strategy where
  | text
  | fixed16
  | fixedw
  | adaptive
deriving DecidableEq, Repr, Inhabited

/-- The two encoding formats of the opcode table (30_encoding.md sections 1 and 2). -/
inductive Format where
  | cmd32
  | code16
deriving DecidableEq, Repr

/-- One constructor per row of spec/opcode_table.json. A command word has no operand (R95), but for a reserved
word, which is kept whole; a code class carries its code value, a literal its byte. -/
inductive Instr where
  /-- NOP, word 0x00000000 (R226). -/
  | nop
  /-- START.C.TEXT, word 0x00000001 (R236). -/
  | startCText
  /-- START.D.TEXT, word 0x00000011 (R237). -/
  | startDText
  /-- START.C.F16, word 0x00000021 (R238). -/
  | startCF16
  /-- START.D.F16, word 0x00000031 (R239). -/
  | startDF16
  /-- START.C.FW, word 0x00000041 (R240). -/
  | startCFw
  /-- START.D.FW, word 0x00000051 (R241). -/
  | startDFw
  /-- START.C.AD, word 0x00000061 (R242). -/
  | startCAd
  /-- START.D.AD, word 0x00000071 (R243). -/
  | startDAd
  /-- ABORT, word 0x00000002 (R231, R232). -/
  | abort
  /-- CLEAR, word 0x00000003 (R233, R234). -/
  | clear
  /-- RESERVED: any word not in R94's table (R96, R235). -/
  | reserved (w : Word)
  /-- LIT: a received code of at most 255, which stands for that byte (R97, R187). -/
  | lit (b : Byte)
  /-- EOF: the received code 256 (R97, R133). -/
  | eof
  /-- DICT: a received code `257 ≤ code < next_code` (R97, R187). -/
  | dict (code : Code)
  /-- KWKWK: a received code equal to `next_code`, with a previous string and room in the dictionary (R97, R191). -/
  | kwkwk (code : Code)
  /-- BAD: every other received code (R97, R192). -/
  | bad (code : Code)
deriving DecidableEq, Repr

/-- The format of an instruction's row in the opcode table. -/
def Instr.format : Instr → Format
  | .nop | .startCText | .startDText | .startCF16 | .startDF16 | .startCFw | .startDFw | .startCAd | .startDAd
  | .abort | .clear | .reserved _ => .cmd32
  | .lit _ | .eof | .dict _ | .kwkwk _ | .bad _ => .code16

/-- The START word's instruction for a direction and a strategy (30_encoding.md R94, R106). -/
def Instr.start : Dir → Strategy → Instr
  | .compress, .text => .startCText
  | .decompress, .text => .startDText
  | .compress, .fixed16 => .startCF16
  | .decompress, .fixed16 => .startDF16
  | .compress, .fixedw => .startCFw
  | .decompress, .fixedw => .startDFw
  | .compress, .adaptive => .startCAd
  | .decompress, .adaptive => .startDAd

/-- What the class of a received code depends on besides the code (30_encoding.md R97): `n = s.next_code`,
`mc = s.a_mc` and `s.prev_valid`, at the time the code is received. -/
structure CodeCtx where
  nextCode : NextCode
  maxCode : Code
  prevValid : Bool
deriving DecidableEq, Repr

/-- The context in which `decodeTableWord` classifies a code: a decompress session with `max_code` 32767 that has
received the codes 65 and 65, so that 257 is "AA" and 258 is the next code (43_decompress.md R187; assumption 9). -/
def CodeCtx.sample : CodeCtx := { nextCode := 258, maxCode := 32767, prevValid := true }

end Sys2Proof
end

