-- ==== Sys2Proof/WellFormed.lean ====
section
/-! DEFINITION. Which instructions exist (30_encoding.md R94, R96, R97): the checks on an instruction alone, and
the state conditions of a code's class. -/

namespace Sys2Proof

/-- The eleven defined command words (30_encoding.md R94). -/
def definedWords : List Word :=
  [0x00000000, 0x00000001, 0x00000011, 0x00000021, 0x00000031, 0x00000041, 0x00000051, 0x00000061, 0x00000071,
   0x00000002, 0x00000003]

/-- An instruction is well formed when its operand is one its row allows: a reserved word is none of the eleven
defined words (R96); a DICT, KWKWK or BAD code is above 256 (R97: 0..255 are literals and 256 is EOF). -/
def Instr.wellFormed : Instr → Bool
  | .reserved w => !definedWords.contains w
  | .dict k | .kwkwk k | .bad k => decide (257 ≤ k.toNat)
  | .nop | .startCText | .startDText | .startCF16 | .startDF16 | .startCFw | .startDFw | .startCAd | .startDAd
  | .abort | .clear | .lit _ | .eof => true

/-- R97's condition on the state for a KWKWK code: `code = n`, a previous string, and `n ≤ mc`. -/
def CodeCtx.isKwkwk (x : CodeCtx) (k : Code) : Bool :=
  decide (k.toNat = x.nextCode.toNat) && x.prevValid && decide (x.nextCode.toNat ≤ x.maxCode.toNat)

/-- The condition column of R97's table for the classes the state decides: whether a code of this class can be
received in the context `x`. Commands, literals and EOF are received in every context. -/
def Instr.admitted (x : CodeCtx) : Instr → Bool
  | .dict k => decide (k.toNat < x.nextCode.toNat)
  | .kwkwk k => decide (x.nextCode.toNat ≤ k.toNat) && x.isKwkwk k
  | .bad k => decide (x.nextCode.toNat ≤ k.toNat) && !x.isKwkwk k
  | .nop | .startCText | .startDText | .startCF16 | .startDF16 | .startCFw | .startDFw | .startCAd | .startDAd
  | .abort | .clear | .reserved _ | .lit _ | .eof => true

end Sys2Proof
end

