-- ==== Sys2Proof/Decode.lean ====
section
/-! DEFINITION. The decoder of command words (30_encoding.md R90 to R96) and of code values (R97), total on any
bytes and rejecting by name; and the encoder, written from the same tables. -/

namespace Sys2Proof

/-- Why the decoder refuses a list of bytes: it does not have its format's length. Every 32-bit command word and
every 16-bit code has a meaning (R96, R97), so nothing else is refused. -/
inductive DecodeReject where
  | commandLength (n : Nat)
  | codeLength (n : Nat)
deriving DecidableEq, Repr

/-- What the decoder answers. -/
inductive Decoded where
  | instr (i : Instr)
  | reject (r : DecodeReject)
deriving DecidableEq, Repr

/-- The instruction, if there is one. -/
def Decoded.toOption : Decoded → Option Instr
  | .instr i => some i
  | .reject _ => none

/-- The complete command decode (30_encoding.md R94): compared on all 32 bits; every other word is reserved (R96). -/
def decodeCmd (w : Word) : Instr :=
  if w = 0x00000000 then .nop
  else if w = 0x00000001 then .startCText
  else if w = 0x00000011 then .startDText
  else if w = 0x00000021 then .startCF16
  else if w = 0x00000031 then .startDF16
  else if w = 0x00000041 then .startCFw
  else if w = 0x00000051 then .startDFw
  else if w = 0x00000061 then .startCAd
  else if w = 0x00000071 then .startDAd
  else if w = 0x00000002 then .abort
  else if w = 0x00000003 then .clear
  else .reserved w

/-- The class of a received code (30_encoding.md R97; the tests stand in the order of 43_decompress.md R187). -/
def classify (x : CodeCtx) (k : Code) : Instr :=
  if k.toNat ≤ 255 then .lit (BitVec.ofNat 8 k.toNat)
  else if k.toNat = 256 then .eof
  else if k.toNat < x.nextCode.toNat then .dict k
  else if x.isKwkwk k then .kwkwk k
  else .bad k

/-- The number that bytes spell, the first byte the least significant: the register bus is little-endian
(20_memory.md R62) and a Fixed-16 code goes low byte first (R70). -/
def leNat : List Byte → Nat
  | [] => 0
  | b :: bs => b.toNat + 256 * leNat bs

/-- The `n` bytes of a number, the least significant first. -/
def leBytes : Nat → Nat → List Byte
  | 0, _ => []
  | n + 1, v => BitVec.ofNat 8 v :: leBytes n (v / 256)

/-- The decoder: a command word is four bytes as the register bus carries it, a code two bytes as Fixed-16
frames it, and a code's class depends on the context. -/
def decode (f : Format) (x : CodeCtx) (bytes : List Byte) : Decoded :=
  match f with
  | .cmd32 =>
    if bytes.length = 4 then .instr (decodeCmd (BitVec.ofNat 32 (leNat bytes)))
    else .reject (.commandLength bytes.length)
  | .code16 =>
    if bytes.length = 2 then .instr (classify x (BitVec.ofNat 16 (leNat bytes)))
    else .reject (.codeLength bytes.length)

/-- The instruction read from bits numbered as spec/opcode_table.json numbers them: 32 bits are a command word,
16 bits a code value. A word of the table comes without a state, and the class of a code depends on one: a code is
classified in the sample session (assumption 9), in which every class has a code. -/
def decodeTableWord (nbits w : Nat) : Option Instr :=
  match nbits with
  | 32 => (decode .cmd32 CodeCtx.sample (leBytes 4 w)).toOption
  | 16 => (decode .code16 CodeCtx.sample (leBytes 2 w)).toOption
  | _ => none

/-- OP = `w[3:0]` (30_encoding.md R90). -/
def cmdOp (w : Word) : Nat := w.toNat % 16

/-- DIR = `w[4]` (R90). -/
def cmdDir (w : Word) : Nat := w.toNat / 16 % 2

/-- STRAT = `w[6:5]` (R90). -/
def cmdStrat (w : Word) : Nat := w.toNat / 32 % 4

/-- MBZ = `w[31:7]` (R90). -/
def cmdMbz (w : Word) : Nat := w.toNat / 128

/-- The value of DIR and of STATUS.DIR (30_encoding.md R93; 10_state.md R26). -/
def Dir.bits : Dir → Nat
  | .compress => 0
  | .decompress => 1

/-- The value of STRAT and of STATUS.STRAT (30_encoding.md R92; 10_state.md R26). -/
def Strategy.bits : Strategy → Nat
  | .text => 0
  | .fixed16 => 1
  | .fixedw => 2
  | .adaptive => 3

/-- A command word from its fields OP, DIR and STRAT, with MBZ = 0 (R90). -/
def cmdWord (op dir strat : Nat) : Nat := op + 16 * dir + 32 * strat

/-- The value an instruction is encoded as: a command word from the field values of the opcode table's rows
(OP 0 NOP, 1 START, 2 ABORT, 3 CLEAR, R91), a code value as itself (R97). -/
def encodeValue : Instr → Nat
  | .nop => cmdWord 0 0 0
  | .startCText => cmdWord 1 Dir.compress.bits Strategy.text.bits
  | .startDText => cmdWord 1 Dir.decompress.bits Strategy.text.bits
  | .startCF16 => cmdWord 1 Dir.compress.bits Strategy.fixed16.bits
  | .startDF16 => cmdWord 1 Dir.decompress.bits Strategy.fixed16.bits
  | .startCFw => cmdWord 1 Dir.compress.bits Strategy.fixedw.bits
  | .startDFw => cmdWord 1 Dir.decompress.bits Strategy.fixedw.bits
  | .startCAd => cmdWord 1 Dir.compress.bits Strategy.adaptive.bits
  | .startDAd => cmdWord 1 Dir.decompress.bits Strategy.adaptive.bits
  | .abort => cmdWord 2 0 0
  | .clear => cmdWord 3 0 0
  | .reserved w => w.toNat
  | .lit b => b.toNat
  | .eof => 256
  | .dict k => k.toNat
  | .kwkwk k => k.toNat
  | .bad k => k.toNat

/-- The number of bytes of a format's word (30_encoding.md R90, R97). -/
def Format.bytes : Format → Nat
  | .cmd32 => 4
  | .code16 => 2

/-- The bytes of an instruction, as the decoder takes them. -/
def encode (i : Instr) : List Byte := leBytes i.format.bytes (encodeValue i)

/-- The mask of an instruction's row in spec/opcode_table.json. -/
def Instr.rowMask : Instr → Nat
  | .nop | .startCText | .startDText | .startCF16 | .startDF16 | .startCFw | .startDFw | .startCAd | .startDAd
  | .abort | .clear => 0xFFFFFFFF
  | .reserved _ => 0x00000000
  | .lit _ => 0xFF00
  | .eof => 0xFFFF
  | .dict _ | .kwkwk _ | .bad _ => 0x0000

/-- The match value of an instruction's row in spec/opcode_table.json. -/
def Instr.rowMatch : Instr → Nat
  | .nop => 0x00000000
  | .startCText => 0x00000001
  | .startDText => 0x00000011
  | .startCF16 => 0x00000021
  | .startDF16 => 0x00000031
  | .startCFw => 0x00000041
  | .startDFw => 0x00000051
  | .startCAd => 0x00000061
  | .startDAd => 0x00000071
  | .abort => 0x00000002
  | .clear => 0x00000003
  | .reserved _ => 0x00000000
  | .lit _ => 0x0000
  | .eof => 0x0100
  | .dict _ | .kwkwk _ | .bad _ => 0x0000

end Sys2Proof
end

