-- ==== Sys2Proof/Config.lean ====
section
/-! DEFINITION. The implementation parameters (00_scope.md R8), and what a free draw of the values the spec leaves open
holds (93_implementation_defined.md I3, I5). -/

namespace Sys2Proof

/-- `LOOKUP_IMPL` (R8): a hash RAM with linear probe, or a CAM. -/
inductive LookupImpl where
  | hashProbe
  | cam
deriving DecidableEq, Repr

/-- The implementation parameters of 00_scope.md R8. A state carries them, so that a statement about every
state is about every legal choice of them (assumption 6). -/
structure Config where
  /-- `MAX_CODE_CAP`: the largest `max_code` a START accepts. -/
  maxCodeCap : BitVec 16
  /-- `HASH_BITS`: log2 of the number of encode hash slots. -/
  hashBits : BitVec 5
  /-- `LOOKUP_IMPL`. -/
  lookupImpl : LookupImpl
  /-- `STACK_DEPTH`: depth of the decode stack in bytes. -/
  stackDepth : Nat
deriving DecidableEq, Repr

/-- The reference values of R8. -/
def Config.reference : Config :=
  { maxCodeCap := 32767, hashBits := 16, lookupImpl := .hashProbe, stackDepth := 32512 }

/-- `HASH_SLOTS = 2^HASH_BITS` (R8). -/
def Config.hashSlots (c : Config) : Nat := 2 ^ c.hashBits.toNat

/-- The constraints of R8 on the parameters. -/
def Config.legal (c : Config) : Bool :=
  decide (256 ≤ c.maxCodeCap.toNat) && decide (8 ≤ c.hashBits.toNat) && decide (c.hashBits.toNat ≤ 17) &&
    decide (c.maxCodeCap.toNat - 256 < c.hashSlots) && decide (max 1 (c.maxCodeCap.toNat - 255) ≤ c.stackDepth)

/-- A free draw of the latches the spec leaves unspecified after reset (10_state.md R52). -/
structure LatchDraw where
  aDir : Dir
  aStrat : Strategy
  aMc : Code
  cur : Code
  prev : Code
  prevFirst : Byte
deriving DecidableEq, Repr, Inhabited

/-- A free draw of the contents of the mapping tables and of the decode stack. -/
structure TableDraw where
  enc : List (Nat × Code)
  dec : List (Nat × (Code × Byte))
  stack : List Byte
deriving DecidableEq, Repr, Inhabited

/-- A free draw of the session state that no register shows (45_host_commands.md R232). -/
structure SessionDraw where
  currentCode : BitVec 16
  nextBump : BitVec 17
  acc : BitVec 24
  nbits : BitVec 5
  tval : BitVec 17
  tdig : Bool
deriving DecidableEq, Repr, Inhabited

end Sys2Proof
end

