-- ==== Sys2Proof/Machine/State.lean ====
section
/-! DEFINITION. The state of LZWCORE (10_state.md R20 to R52) as plain data, what it is right after reset, and the
reasons a step can stop. -/

namespace Sys2Proof.Machine

open Sys2Proof

/-- A memory: cells (address, value) in one canonical form, addresses strictly rising. An unlisted address has no
value (assumption 7). The block has no byte-addressed memory (00_scope.md R12); its memories are the two mapping
tables, whose cells are entries. -/
abbrev Memory (α : Type) := List (Nat × α)

/-- A beat of the input port (20_memory.md R64). -/
inductive Beat where
  | byte (b : Byte)
  | endMark
  | error
deriving DecidableEq, Repr

/-- A beat of the output port (20_memory.md R66). -/
inductive OutBeat where
  | byte (b : Byte)
  | endMark
deriving DecidableEq, Repr

/-- The engine phase `s.phase` (10_state.md R37). -/
inductive Phase where
  | idle
  | run
  | drain
deriving DecidableEq, Repr

/-- STATUS.REASON (10_state.md R27). The values 8..15 are never written (I2) and have no name here. -/
inductive Reason where
  | none
  | eofCode
  | inEnd
  | inError
  | badCode
  | textFormat
  | aborted
  | cfgError
deriving DecidableEq, Repr

/-- One pending move in the total order of host accesses and engine steps (20_memory.md R72, R69). -/
inductive HostTurn where
  /-- `RegWrite(off, d)` with its byte strobes (R60, R62). -/
  | regWrite (off : Nat) (strobes : BitVec 4) (d : Word)
  /-- `RegRead(off)` (R60). -/
  | regRead (off : Nat)
  /-- The source offers one more beat, as `in_kind` and `in_data` (R64). -/
  | offer (kind : BitVec 2) (data : Byte)
  /-- The source withdraws the beats not yet consumed (70_reset_and_hazards.md R280). -/
  | withdraw
  /-- The sink drives `out_ready` (R66). -/
  | sinkReady (level : Bool)
  /-- The platform drives `rst_n` (70_reset_and_hazards.md R270). -/
  | rst (level : Bool)
  /-- The engine moves. -/
  | engine
deriving DecidableEq, Repr

/-- The host-visible registers that hold a value (10_state.md R22). ID, CAPS and the reserved offsets are
constants, CMD holds nothing, NEXT_CODE and CODE_WIDTH are views, BUSY is computed. -/
structure Regs where
  /-- MAX_CODE (R24). -/
  maxCode : Word
  /-- STATUS.DONE (R26). -/
  done : Bool
  /-- STATUS.ERR (R26). -/
  err : Bool
  /-- STATUS.REASON (R26, R27). -/
  reason : Reason
  /-- STATUS.DIR (R26). -/
  dir : Dir
  /-- STATUS.STRAT (R26). -/
  strat : Strategy
  /-- IRQ_STATUS[2:0]: DONE_IRQ, ERR_IRQ, CMD_IRQ (R28). -/
  irqStatus : BitVec 3
  /-- IRQ_EN[2:0] (R29). -/
  irqEn : BitVec 3
  /-- ERR_INFO (R30). -/
  errInfo : Word
  /-- CODE_COUNT (R33). -/
  codeCount : Word
  /-- BYTES_IN (R33). -/
  bytesIn : Word
  /-- BYTES_OUT (R33). -/
  bytesOut : Word
deriving DecidableEq, Repr

/-- The engine's internal registers (10_state.md R37 to R42). -/
structure Engine where
  /-- `s.phase` (R37). -/
  phase : Phase
  /-- `s.a_dir` (R38). -/
  aDir : Dir
  /-- `s.a_strat` (R38). -/
  aStrat : Strategy
  /-- `s.a_mc` (R38). -/
  aMc : Code
  /-- `s.obuf`, the head first (R39). -/
  obuf : List OutBeat
  /-- `s.cur_valid` (R40). -/
  curValid : Bool
  /-- `s.cur` (R40). -/
  cur : Code
  /-- `s.next_code` (R41). -/
  nextCode : NextCode
  /-- `s.prev_valid` (R42). -/
  prevValid : Bool
  /-- `s.prev` (R42). -/
  prev : Code
  /-- `s.prev_first` (R42). -/
  prevFirst : Byte
deriving DecidableEq, Repr

/-- The mapping tables as the abstract maps of 10_state.md R43 and R44, which R55 allows, and the decode stack. -/
structure Tables where
  /-- `ENC`: the entry `(p, c) → k` stands at the address that `p` and `c` spell (R43). -/
  enc : Memory Code
  /-- `DEC`: the entry `(p, c)` of code `k` stands at address `k` (R44). -/
  dec : Memory (Code × Byte)
  /-- The decode stack, its top first (R52, R218). -/
  stack : List Byte
deriving DecidableEq, Repr

/-- The code-stream session state `cs.*` (10_state.md R45 to R47). -/
structure CodeStream where
  /-- `cs.width` (R45). -/
  width : BitVec 5
  /-- `cs.current_code` (R45). -/
  currentCode : BitVec 16
  /-- `cs.next_bump` (R45). -/
  nextBump : BitVec 17
  /-- `cs.acc` (R46). -/
  acc : BitVec 24
  /-- `cs.nbits` (R46). -/
  nbits : BitVec 5
  /-- `cs.tval` (R47). -/
  tval : BitVec 17
  /-- `cs.tdig` (R47). -/
  tdig : Bool
deriving DecidableEq, Repr

/-- The environment's part: the stream queues "belong to the environment" (10_state.md R20), and so do the pins it
drives, its pending moves and what it has been given (assumptions 1 and 2). -/
structure Env where
  /-- The level of `rst_n` (70_reset_and_hazards.md R270). -/
  rstN : Bool
  /-- The beats that wait at the input port, in order (20_memory.md R64, R65). -/
  inq : List Beat
  /-- The level of `out_ready` (R66). -/
  outReady : Bool
  /-- The beats the sink has accepted, in order (R66; 60_exceptions.md R269). -/
  delivered : List OutBeat
  /-- The pending moves, the next one first (R72). -/
  script : List HostTurn
  /-- The offsets and words of the register reads done, in order (R60). -/
  reads : List (Nat × Word)
deriving DecidableEq, Repr

/-- The whole state of the block, what 10_state.md lists and no more (R55), and of the environment's side of its ports. -/
structure State where
  cfg : Config
  regs : Regs
  eng : Engine
  tabs : Tables
  cs : CodeStream
  env : Env
deriving DecidableEq, Repr

/-- The machine stops with a fault. -/
inductive Fault where
  /-- Raised by the string walk of DICT and KWKWK (44_dictionary_tables.md R218) at a code of at least 257 that is at or
  above `next_code`, whatever `DEC` lists there, or has no entry, or whose prefixes do not decrease: R207 leaves its
  string undefined, and no conforming run meets one (assumption 10). Safe: the machine stops where the spec gives no
  value. -/
  | undefinedString (code : Code)
deriving DecidableEq, Repr

/-- The machine refuses. -/
inductive Refusal where
  /-- Raised by an arm of `exec` whose instruction has no meaning yet. Safe. -/
  | notModelled (mnemonic : String)
  /-- Raised by the string walk at code 256, which S1 tells a model to refuse ("refuse any evaluation of `str(256)`
  and any table access at 256"). Safe: no conforming run meets it. -/
  | stringOfEof
  /-- Raised by a register access outside the 64-byte window (20_memory.md R60, R61: refused by name). Safe. -/
  | outsideWindow (off : Nat)
  /-- Raised by a register write with no byte strobe active, of which R62 says nothing. Safe. -/
  | noByteStrobe (off : Nat)
  /-- Raised by `step` when the parameters break R8's constraints (I10: "must refuse the configuration"). Safe. -/
  | illegalConfig
deriving DecidableEq, Repr

/-- The host-visible registers after reset (10_state.md R22, R52). -/
def Regs.reset : Regs :=
  { maxCode := 0x00007FFF, done := false, err := false, reason := .none, dir := .compress, strat := .text,
    irqStatus := 0, irqEn := 0, errInfo := 0, codeCount := 0, bytesIn := 0, bytesOut := 0 }

/-- The engine's registers after reset (R52). `aDir`, `aStrat`, `aMc`, `cur`, `prev` and `prevFirst` are unspecified
there: DESIGN CHOICE, the values below (assumption 3, unsafe). -/
def Engine.reset : Engine :=
  { phase := .idle, aDir := .compress, aStrat := .text, aMc := 0, obuf := [], curValid := false, cur := 0,
    nextCode := 257, prevValid := false, prev := 0, prevFirst := 0 }

/-- The tables after reset: unspecified in R52; DESIGN CHOICE, nothing listed (assumption 3, unsafe). -/
def Tables.reset : Tables := { enc := [], dec := [], stack := [] }

/-- The session state after reset (R45, R46, R47, R52). -/
def CodeStream.reset : CodeStream :=
  { width := 0, currentCode := 256, nextBump := 512, acc := 0, nbits := 0, tval := 0, tdig := false }

/-- The environment after reset: `rst_n` back at 1 (R270); nothing offered, delivered, pending or read, and a sink
that accepts: DESIGN CHOICE (assumption 2). -/
def Env.reset : Env :=
  { rstN := true, inq := [], outReady := true, delivered := [], script := [], reads := [] }

/-- The machine right after reset, in the reference configuration (10_state.md R52; 70_reset_and_hazards.md R270). -/
def State.reset : State :=
  { cfg := Config.reference, regs := Regs.reset, eng := Engine.reset, tabs := Tables.reset, cs := CodeStream.reset,
    env := Env.reset }

end Sys2Proof.Machine

/-! ### Free values

Constants with no body, so that nothing can be proved of what they are (93_implementation_defined.md I3, I5). Each is
applied to the state it is drawn in, so that no field counts the draws (10_state.md R55, assumption 4). -/

namespace Sys2Proof

/-- FREE: what the latches hold after a reset taken in a state (I3, assumption 4). -/
opaque Config.freeLatches : Machine.State → LatchDraw

/-- FREE: what the tables and the decode stack hold after a draw taken in a state (I3, I5, assumptions 4 and 5). -/
opaque Config.freeTables : Machine.State → TableDraw

/-- FREE: what the session state holds after a draw taken in a state (I5, assumption 5). -/
opaque Config.freeSession : Machine.State → SessionDraw

end Sys2Proof
end

