-- ==== Sys2Proof/Machine/Flags.lean ====
section
/-! DEFINITION. Flags, status words and pins: STATUS (10_state.md R26, R27), IRQ_STATUS and IRQ_EN (R28, R29), the
interrupt line (R36; 60_exceptions.md R259), the handshakes (20_memory.md R64, R66, R68) and the error flag of a
stop reason (60_exceptions.md R247). -/

namespace Sys2Proof.Machine

open Sys2Proof

/-- STATUS.BUSY: 1 exactly while `s.phase ≠ IDLE` (10_state.md R26, R37). -/
def State.busy (s : State) : Bool := decide (s.eng.phase ≠ .idle)

/-- The code of a stop reason (10_state.md R27). -/
def Reason.bits : Reason → Nat
  | .none => 0
  | .eofCode => 1
  | .inEnd => 2
  | .inError => 3
  | .badCode => 4
  | .textFormat => 5
  | .aborted => 6
  | .cfgError => 7

/-- `err(r)`: 1 exactly for IN_ERROR, BAD_CODE, TEXT_FORMAT and CFG_ERROR (60_exceptions.md R247). -/
def Reason.isErr : Reason → Bool
  | .inError | .badCode | .textFormat | .cfgError => true
  | .none | .eofCode | .inEnd | .aborted => false

/-- The STATUS word: BUSY[0], DONE[1], ERR[2], REASON[7:4], DIR[8], STRAT[10:9], every other bit 0 (R26). -/
def State.statusWord (s : State) : Word :=
  BitVec.ofNat 32
    (s.busy.toNat + 2 * s.regs.done.toNat + 4 * s.regs.err.toNat + 16 * s.regs.reason.bits +
      256 * s.regs.dir.bits + 512 * s.regs.strat.bits)

/-- The bit of `LOOKUP_IMPL` in CAPS (R34). -/
def lookupBit : LookupImpl → Nat
  | .hashProbe => 0
  | .cam => 1

/-- The CAPS word: MAX_CODE_CAP[15:0], HASH_BITS[20:16], LOOKUP_IMPL[24], every other bit 0 (R34). -/
def capsWord (c : Config) : Word :=
  BitVec.ofNat 32 (c.maxCodeCap.toNat + 65536 * c.hashBits.toNat + 16777216 * lookupBit c.lookupImpl)

/-- The ID register, at all times (R23). -/
def idWord : Word := 0x4C5A5701

/-- IRQ_STATUS bit 0, DONE_IRQ (R28). -/
def doneIrq : BitVec 3 := 1

/-- IRQ_STATUS bit 1, ERR_IRQ (R28). -/
def errIrq : BitVec 3 := 2

/-- IRQ_STATUS bit 2, CMD_IRQ (R28). -/
def cmdIrq : BitVec 3 := 4

/-- The IRQ_STATUS bits a completion with ERR = `e` sets: DONE_IRQ, and ERR_IRQ if `e = 1` (R28; 60_exceptions.md R250). -/
def completionIrq (e : Bool) : BitVec 3 := if e then doneIrq ||| errIrq else doneIrq

/-- The interrupt output, a level (R36; 60_exceptions.md R259). It is 0 while `rst_n = 0` (70_reset_and_hazards.md R270). -/
def State.irq (s : State) : Bool := s.env.rstN && decide (s.regs.irqStatus &&& s.regs.irqEn ≠ 0)

/-- `in_ready` (20_memory.md R68), 0 while `rst_n = 0` (R270). -/
def State.inReady (s : State) : Bool :=
  s.env.rstN && decide (s.eng.phase = .run) && s.eng.obuf.isEmpty

/-- `out_valid` (20_memory.md R66), 0 while `rst_n = 0` (R270). -/
def State.outValid (s : State) : Bool := s.env.rstN && !s.eng.obuf.isEmpty

/-- `out_kind`: 0 Byte, 1 End (R66). -/
def OutBeat.kind : OutBeat → BitVec 1
  | .byte _ => 0
  | .endMark => 1

/-- `out_data` of a data beat (R66). No rule says what it carries beside an End. -/
def OutBeat.data : OutBeat → Option Byte
  | .byte b => some b
  | .endMark => none

/-- The beat offered at the output port, the head of `s.obuf` (R66). -/
def State.outBeat (s : State) : Option OutBeat := if s.outValid then s.eng.obuf.head? else none

/-- `in_kind` and `in_data` as a beat: 0 Byte, 1 End, 2 Error, and 3 treated as Error (R64). -/
def Beat.ofSignals (kind : BitVec 2) (data : Byte) : Beat :=
  if kind = 0 then .byte data else if kind = 1 then .endMark else .error

end Sys2Proof.Machine
end

