-- ==== Sys2Proof/Machine/Ops.lean ====
section
/-! DEFINITION. The named operations over registers, tables and the output buffer; a stop as one shared operation
(60_exceptions.md R246) and, beside it, completion (R250), after which the block is idle again; reset (R270). -/

namespace Sys2Proof.Machine

open Sys2Proof

/-! ### Memories -/

/-- The cell at an address; an unlisted address has none. -/
def Memory.read {α : Type} : Memory α → Nat → Option α
  | [], _ => none
  | (a, x) :: m, k => if a = k then some x else Memory.read m k

/-- Write a cell, keeping the addresses strictly rising. -/
def Memory.write {α : Type} : Memory α → Nat → α → Memory α
  | [], k, v => [(k, v)]
  | (a, x) :: m, k, v =>
    if k < a then (k, v) :: (a, x) :: m
    else if k = a then (k, v) :: m
    else (a, x) :: Memory.write m k v

/-- Every address of the list is above `a`, and they rise strictly. -/
def Memory.risesFrom {α : Type} : Nat → Memory α → Bool
  | _, [] => true
  | a, (b, _) :: m => decide (a < b) && Memory.risesFrom b m

/-- The canonical form: addresses strictly rising. No cell equals what an unlisted address reads as, since that is
no value at all. -/
def Memory.wf {α : Type} : Memory α → Bool
  | [] => true
  | (a, _) :: m => Memory.risesFrom a m

/-- The memory that a list of cells writes, in order. -/
def Memory.ofCells {α : Type} (cells : List (Nat × α)) : Memory α :=
  cells.foldl (fun m c => Memory.write m c.1 c.2) []

/-! ### Arithmetic the rules name -/

/-- `bitlen(m)`: the number of bits of `m` without leading zeros, 0 for 0 (00_scope.md R14). -/
def bitlen (m : Nat) : Nat := if m = 0 then 0 else m.log2 + 1

/-- One more, modulo 2^32: the counters wrap (10_state.md R33). -/
def countUp (w : Word) : Word := w + 1

/-! ### Output buffer and counters -/

/-- `OutPush(b)` (00_scope.md R12). -/
def outPush (b : Byte) (s : State) : State :=
  { s with eng.obuf := s.eng.obuf ++ [.byte b] }

/-- `OutPush` of each byte, in order. -/
def outPushAll (bs : List Byte) (s : State) : State :=
  { s with eng.obuf := s.eng.obuf ++ bs.map .byte }

/-- `OutEnd()` (00_scope.md R12). -/
def outEnd (s : State) : State :=
  { s with eng.obuf := s.eng.obuf ++ [.endMark] }

/-- One more data byte consumed (10_state.md R33). -/
def countByteIn (s : State) : State := { s with regs.bytesIn := countUp s.regs.bytesIn }

/-- One more code transferred (10_state.md R33). -/
def countCode (s : State) : State := { s with regs.codeCount := countUp s.regs.codeCount }

/-- Set bits of IRQ_STATUS (10_state.md R28). -/
def raiseIrq (bits : BitVec 3) (s : State) : State :=
  { s with regs.irqStatus := s.regs.irqStatus ||| bits }

/-- The rejection of a command word: CMD_IRQ and nothing else (45_host_commands.md R228, R234, R235). -/
def rejectCommand (s : State) : State := raiseIrq cmdIrq s

/-! ### Stops -/

/-- `raise Stop(reason, info)`: the reason and its detail are recorded, End goes after every byte already pushed,
and the engine drains (60_exceptions.md R246). BUSY stays 1, DONE and ERR are untouched. -/
def raiseStop (r : Reason) (info : Word) (s : State) : State :=
  { s with
    regs.reason := r
    regs.errInfo := info
    eng.obuf := s.eng.obuf ++ [.endMark]
    eng.phase := .drain }

/-- Report the end of an operation: DONE, ERR = `err(REASON)`, DONE_IRQ and, with ERR, ERR_IRQ (60_exceptions.md R250). -/
def reportDone (s : State) : State :=
  { s with
    regs.done := true
    regs.err := s.regs.reason.isErr
    regs.irqStatus := s.regs.irqStatus ||| completionIrq s.regs.reason.isErr }

/-- `complete()`: the delivery of End ends the operation (60_exceptions.md R250). -/
def complete (s : State) : State := reportDone { s with eng.phase := .idle }

/-! ### Mapping tables -/

/-- The address of the key `(p, c)` in `ENC`: 24 bits, the prefix code above the byte (10_state.md R43). -/
def encKey (p : Code) (c : Byte) : Nat := p.toNat * 256 + c.toNat

/-- `EncLookup(p, c)` (44_dictionary_tables.md R208). -/
def encLookup (p : Code) (c : Byte) (s : State) : Option Code := Memory.read s.tabs.enc (encKey p c)

/-- `EncInsert(p, c, next_code)` and the increment of `next_code` (R209; 42_compress.md R171). The code stored is the
16-bit `next_code`, in range whenever an insert is made (41_code_stream.md R148, 42_compress.md R178; assumption 14). -/
def encInsertNext (p : Code) (c : Byte) (s : State) : State :=
  { s with
    tabs.enc := Memory.write s.tabs.enc (encKey p c) (BitVec.ofNat 16 s.eng.nextCode.toNat)
    eng.nextCode := BitVec.ofNat 17 (s.eng.nextCode.toNat + 1) }

/-- `DecWrite(next_code, p, c)` and the increment of `next_code` (R216; 43_decompress.md R189). -/
def decWriteNext (p : Code) (c : Byte) (s : State) : State :=
  { s with
    tabs.dec := Memory.write s.tabs.dec s.eng.nextCode.toNat (p, c)
    eng.nextCode := BitVec.ofNat 17 (s.eng.nextCode.toNat + 1) }

/-- The room test of 42_compress.md R172 and 43_decompress.md R189: `next_code ≤ a_mc`. -/
def State.hasRoom (s : State) : Bool := decide (s.eng.nextCode.toNat ≤ s.eng.aMc.toNat)

/-- What the string walk answers. -/
inductive Walk where
  /-- The decode stack at the end of the walk, its top (the string's first byte) first. -/
  | found (stack : List Byte)
  /-- The walk met code 256. -/
  | atEof
  /-- The walk met a code at or above `next_code` or with no entry, or did not end. -/
  | undefined
deriving DecidableEq, Repr

/-- The walk of `DecodeString` (44_dictionary_tables.md R218): push the suffix byte, go on with the prefix, until a
literal starts the string. Each prefix is smaller than its own code, so `fuel = k + 1` reads suffice. `n` is `next_code`:
R207 leaves the string of a code at or above it undefined, and `DEC` may still list an old entry there (R216);
DESIGN CHOICE, such a code ends the walk as one with no entry does, and no entry at or above `n` is read
(10_state.md R44; assumption 10, safe). -/
def walkString (dec : Memory (Code × Byte)) (n : Nat) : Nat → Code → List Byte → Walk
  | 0, _, _ => .undefined
  | fuel + 1, k, stack =>
    if k.toNat ≤ 255 then .found (BitVec.ofNat 8 k.toNat :: stack)
    else if k.toNat = 256 then .atEof
    else if n ≤ k.toNat then .undefined
    else
      match Memory.read dec k.toNat with
      | none => .undefined
      | some (p, c) => walkString dec n fuel p (c :: stack)

/-- `DecodeString(k)` (R218): the stack starts empty and is popped from its top, which gives `str(k)` (R207). -/
def decodeString (k : Code) (s : State) : Walk :=
  walkString s.tabs.dec s.eng.nextCode.toNat (k.toNat + 1) k []

/-! ### Reset -/

/-- What an assertion of `rst_n` does to the block (70_reset_and_hazards.md R270, R271; 10_state.md R52): every
element takes its reset value; the unspecified ones take free draws (I3, assumption 4). The parameters, the source's
queue, the sink and the host's moves are not the block's (R273). -/
def resetBlock (s : State) : State :=
  let l := Config.freeLatches s
  let t := Config.freeTables s
  { s with
    regs := Regs.reset
    eng := { Engine.reset with
      aDir := l.aDir, aStrat := l.aStrat, aMc := l.aMc, cur := l.cur, prev := l.prev, prevFirst := l.prevFirst }
    tabs := { enc := Memory.ofCells t.enc, dec := Memory.ofCells t.dec, stack := t.stack }
    cs := CodeStream.reset }

/-- The tables and the session state after an ABORT keep arbitrary values (45_host_commands.md R232, I5): free
draws, but for `cs.width`, which CODE_WIDTH goes on showing (10_state.md R32; assumption 5). -/
def scrambleSession (s : State) : State :=
  let t := Config.freeTables s
  let c := Config.freeSession s
  { s with
    tabs := { s.tabs with enc := Memory.ofCells t.enc, dec := Memory.ofCells t.dec }
    cs := { width := s.cs.width, currentCode := c.currentCode, nextBump := c.nextBump, acc := c.acc,
            nbits := c.nbits, tval := c.tval, tdig := c.tdig } }

end Sys2Proof.Machine
end

