-- ==== Sys2Proof/Machine/CodeStream.lean ====
section
/-! DEFINITION. The Code Stream (41_code_stream.md): session initialisation, the four writers and readers, the
bit-packer, width growth, finalisation. -/

namespace Sys2Proof.Machine

open Sys2Proof

/-- `CS.INIT`'s width for a strategy and a `max_code` (41_code_stream.md R130). -/
def initialWidth (st : Strategy) (mc : Code) : Nat :=
  match st with
  | .text => 0
  | .fixed16 => 16
  | .fixedw => bitlen mc.toNat
  | .adaptive => 9

/-- The session state of a fresh operation (R130). -/
def sessionInit (st : Strategy) (mc : Code) : CodeStream :=
  { width := BitVec.ofNat 5 (initialWidth st mc), currentCode := 256, nextBump := 512, acc := 0, nbits := 0,
    tval := 0, tdig := false }

/-- `CS.INIT()` (R130). -/
def csInit (s : State) : State := { s with cs := sessionInit s.eng.aStrat s.eng.aMc }

/-! ### Width growth -/

/-- `AD.BUMP()` on the session state (R142). -/
def bump (mc : Code) (c : CodeStream) : CodeStream :=
  if c.currentCode.toNat < mc.toNat then
    let next := c.currentCode.toNat + 1
    if next = c.nextBump.toNat then
      { c with
        currentCode := BitVec.ofNat 16 next
        nextBump := BitVec.ofNat 17 (2 * c.nextBump.toNat)
        width := BitVec.ofNat 5 (c.width.toNat + 1) }
    else { c with currentCode := BitVec.ofNat 16 next }
  else c

/-- `AD.BUMP()` where the strategy is ADAPTIVE, nothing elsewhere (R131, R132). -/
def bumpFor (st : Strategy) (mc : Code) (c : CodeStream) : CodeStream :=
  match st with
  | .adaptive => bump mc c
  | .text | .fixed16 | .fixedw => c

/-! ### Writers -/

/-- The ASCII byte of a decimal digit (30_encoding.md R99). -/
def digitByte (d : Nat) : Byte := BitVec.ofNat 8 (0x30 + d)

/-- The decimal digits of `k`, most significant first, no leading zeros; `fuel` bounds their number. -/
def decimalDigits : Nat → Nat → List Byte
  | 0, _ => []
  | fuel + 1, k => if k < 10 then [digitByte k] else decimalDigits fuel (k / 10) ++ [digitByte (k % 10)]

/-- `TEXT.WRITE(k)`'s bytes: the digits, then 0x0A; a code has at most five digits (R134; 30_encoding.md R99). -/
def textBytes (k : Code) : List Byte := decimalDigits 5 k.toNat ++ [0x0A]

/-- `F16.WRITE(k)`'s bytes: `k[7:0]`, then `k[15:8]` (R136). -/
def fixed16Bytes (k : Code) : List Byte := [BitVec.ofNat 8 k.toNat, BitVec.ofNat 8 (k.toNat / 256)]

/-- The packer's loop: while at least eight bits are pending, the low byte goes out (R138). The answer is the bytes
in order, and what is left in the accumulator and of the count. -/
def packDrain : Nat → BitVec 24 → Nat → List Byte × BitVec 24 × Nat
  | 0, acc, n => ([], acc, n)
  | fuel + 1, acc, n =>
    if 8 ≤ n then
      let r := packDrain fuel (acc >>> 8) (n - 8)
      (BitVec.ofNat 8 acc.toNat :: r.1, r.2)
    else ([], acc, n)

/-- `PACK.WRITE(k)` on the session state: the code, masked to the width, goes above the pending bits; full bytes go
out (R138). At most seven bytes can be pending in 62 bits, so seven turns of the loop suffice. -/
def packWrite (k : Code) (c : CodeStream) : List Byte × CodeStream :=
  let acc := c.acc ||| (BitVec.ofNat 24 (k.toNat % 2 ^ c.width.toNat) <<< c.nbits.toNat)
  let r := packDrain 7 acc (c.nbits.toNat + c.width.toNat)
  (r.1, { c with acc := r.2.1, nbits := BitVec.ofNat 5 r.2.2 })

/-- One code in the framing of a strategy: its bytes, and the session state after it; in ADAPTIVE the bump comes
after the code is packed (R131). -/
def writeCode (st : Strategy) (mc : Code) (k : Code) (c : CodeStream) : List Byte × CodeStream :=
  match st with
  | .text => (textBytes k, c)
  | .fixed16 => (fixed16Bytes k, c)
  | .fixedw => packWrite k c
  | .adaptive => ((packWrite k c).1, bump mc (packWrite k c).2)

/-- `CS.WRITE(k)` (R131). -/
def csWrite (k : Code) (s : State) : State :=
  let r := writeCode s.eng.aStrat s.eng.aMc k s.cs
  outPushAll r.1 (countCode { s with cs := r.2 })

/-- `PACK.FLUSH()` on the session state: at most one byte, and nothing left pending (R140). -/
def flushSession (c : CodeStream) : List Byte × CodeStream :=
  if 0 < c.nbits.toNat then ([BitVec.ofNat 8 c.acc.toNat], { c with acc := 0, nbits := 0 }) else ([], c)

/-- The flush at the end of a stream: in the packed strategies only, since the others have no pending bits (R146). -/
def flushFor (st : Strategy) (c : CodeStream) : List Byte × CodeStream :=
  match st with
  | .fixedw | .adaptive => flushSession c
  | .text | .fixed16 => ([], c)

/-- The flush on the machine. -/
def csFlush (s : State) : State :=
  let r := flushFor s.eng.aStrat s.cs
  outPushAll r.1 { s with cs := r.2 }

/-- The EOF sentinel (00_scope.md R16). -/
def eofCode : Code := 256

/-- `CS.FINALIZE()`: the EOF code, counted and bumped like any other, then the flush (R146). -/
def csFinalize (s : State) : State := csFlush (csWrite eofCode s)

/-! ### Readers -/

/-- What a reader answers to one byte. -/
inductive ReadResult where
  /-- NoCode. -/
  | noCode (c : CodeStream)
  /-- Code(k). -/
  | code (k : Code) (c : CodeStream)
  /-- `raise Stop(TEXT_FORMAT, b)`. -/
  | formatError
deriving DecidableEq, Repr

/-- `TEXT.READ.BYTE(b)` (R135). -/
def textReadByte (b : Byte) (c : CodeStream) : ReadResult :=
  if 0x30 ≤ b.toNat ∧ b.toNat ≤ 0x39 then
    let v := c.tval.toNat * 10 + (b.toNat - 0x30)
    if 65535 < v then .formatError
    else .noCode { c with tval := BitVec.ofNat 17 v, tdig := true }
  else if b.toNat = 0x0A then
    if c.tdig then .code (BitVec.ofNat 16 c.tval.toNat) { c with tval := 0, tdig := false }
    else .formatError
  else .formatError

/-- `F16.READ.BYTE(b)` (R137): the low byte is held in `cs.acc[7:0]` while `cs.nbits` is not 0. -/
def fixed16ReadByte (b : Byte) (c : CodeStream) : ReadResult :=
  if c.nbits = 0 then .noCode { c with acc := BitVec.ofNat 24 b.toNat, nbits := 8 }
  else .code (BitVec.ofNat 16 (256 * b.toNat + c.acc.toNat % 256)) { c with acc := 0, nbits := 0 }

/-- `PACK.READ.BYTE(b)` (R139). -/
def packReadByte (b : Byte) (c : CodeStream) : ReadResult :=
  let acc := c.acc ||| (BitVec.ofNat 24 b.toNat <<< c.nbits.toNat)
  let n := c.nbits.toNat + 8
  if c.width.toNat ≤ n then
    .code (BitVec.ofNat 16 (acc.toNat % 2 ^ c.width.toNat))
      { c with acc := acc >>> c.width.toNat, nbits := BitVec.ofNat 5 (n - c.width.toNat) }
  else .noCode { c with acc := acc, nbits := BitVec.ofNat 5 n }

/-- The reader of the active strategy (R132). -/
def readByte (st : Strategy) (b : Byte) (c : CodeStream) : ReadResult :=
  match st with
  | .text => textReadByte b c
  | .fixed16 => fixed16ReadByte b c
  | .fixedw => packReadByte b c
  | .adaptive => packReadByte b c

end Sys2Proof.Machine
end

