-- ==== Sys2Proof/Machine/Operands.lean ====
section
/-! DEFINITION. Operands: the register window's offset decode and its reads and writes (20_memory.md R60 to R63), the
`max_code` operand of START and its legality (45_host_commands.md R229), the context of a received code (30_encoding.md R97)
and the strings a code stands for (43_decompress.md R187). -/

namespace Sys2Proof.Machine

open Sys2Proof

/-! ### Register window -/

/-- The word index `off[5:2]`; `off[1:0]` is ignored (20_memory.md R61, assumption 8). -/
def wordIndex (off : Nat) : Nat := off / 4 % 16

/-- The window is 64 bytes (R60). -/
def inWindow (off : Nat) : Bool := decide (off < 64)

/-- What a read of word `i` of the window returns (10_state.md R22 to R35). CMD and the reserved words read 0. -/
def readWord (s : State) (i : Nat) : Word :=
  match i with
  | 0 => idWord
  | 1 => s.regs.maxCode
  | 3 => s.statusWord
  | 4 => BitVec.ofNat 32 s.regs.irqStatus.toNat
  | 5 => BitVec.ofNat 32 s.regs.irqEn.toNat
  | 6 => s.regs.errInfo
  | 7 => BitVec.ofNat 32 s.eng.nextCode.toNat
  | 8 => BitVec.ofNat 32 s.cs.width.toNat
  | 9 => s.regs.codeCount
  | 10 => s.regs.bytesIn
  | 11 => s.regs.bytesOut
  | 12 => capsWord s.cfg
  | _ => 0

/-- A register read at an offset of the window. While `rst_n = 0` it returns the reset value (70_reset_and_hazards.md R270). -/
def readReg (s : State) (off : Nat) : Word :=
  if s.env.rstN then readWord s (wordIndex off) else readWord (resetBlock s) (wordIndex off)

/-- The word index of CMD, offset 0x08 (10_state.md R25). -/
def cmdIndex : Nat := 2

/-- A write of `d` to word `i` other than CMD: MAX_CODE and IRQ_EN[2:0] are stored, a 1 written to a bit of IRQ_STATUS
clears it, and every other word ignores the write (10_state.md R22, R24, R28, R29, R35; 20_memory.md R63). -/
def writeWord (i : Nat) (d : Word) (s : State) : State :=
  match i with
  | 1 => { s with regs.maxCode := d }
  | 4 => { s with regs.irqStatus := s.regs.irqStatus &&& ~~~(BitVec.ofNat 3 d.toNat) }
  | 5 => { s with regs.irqEn := BitVec.ofNat 3 d.toNat }
  | _ => s

/-! ### The operand of START -/

/-- START's legality check on `m = MAX_CODE` (R229): at most MAX_CODE_CAP, and at least 256 for FIXEDW. -/
def startLegal (cfg : Config) (st : Strategy) (m : Word) : Bool :=
  decide (m.toNat ≤ cfg.maxCodeCap.toNat) && (decide (st ≠ .fixedw) || decide (256 ≤ m.toNat))

/-! ### The operand of a code class -/

/-- The context in which the next received code is classified (30_encoding.md R97). -/
def State.codeCtx (s : State) : CodeCtx :=
  { nextCode := s.eng.nextCode, maxCode := s.eng.aMc, prevValid := s.eng.prevValid }

/-- What a code's string comes to. -/
inductive Resolved where
  /-- The string, its first byte apart: it is never empty (43_decompress.md R188). -/
  | string (first : Byte) (rest : List Byte)
  /-- The walk met code 256 (S1). -/
  | refusedEof
  /-- R207 leaves the string undefined. -/
  | undefined
deriving DecidableEq, Repr

/-- `DecodeString` of a DICT code. -/
def resolve (s : State) (k : Code) : Resolved :=
  match decodeString k s with
  | .found (b :: bs) => .string b bs
  | .found [] => .undefined
  | .atEof => .refusedEof
  | .undefined => .undefined

end Sys2Proof.Machine
end

