-- ==== Sys2Proof/Machine/Codes.lean ====
section
/-! DEFINITION. The meanings of the code classes: EOF (41_code_stream.md R133) and DECODE's four classes
(43_decompress.md R187 to R192). -/

namespace Sys2Proof.Machine

open Sys2Proof

/-- SYM.WRITE(seq) of a resolved string (40_symbol_stream.md R121; 43_decompress.md R188). -/
def symWrite (first : Byte) (rest : List Byte) (s : State) : State := outPushAll (first :: rest) s

/-- The insert of 43_decompress.md R189: only with a previous string and while there is room. -/
def decodeInsert (first : Byte) (s : State) : State :=
  if s.eng.prevValid && s.hasRoom then decWriteNext s.eng.prev first s else s

/-- The update of 43_decompress.md R190. -/
def setPrevious (k : Code) (first : Byte) (s : State) : State :=
  { s with eng.prev := k, eng.prevFirst := first, eng.prevValid := true }

/-- What DECODE does with a code whose string is resolved: emit, insert, update (R187). -/
def acceptCode (k : Code) (first : Byte) (rest : List Byte) (s : State) : State :=
  setPrevious k first (decodeInsert first (symWrite first rest s))

/-- The decode stack is empty once its bytes are popped (44_dictionary_tables.md R218). -/
def stackPopped (s : State) : State := { s with tabs.stack := [] }

/-- LIT: emit the byte (R187). -/
def execLit (b : Byte) (s : State) : Host.Outcome State Fault Refusal :=
  .next (acceptCode (BitVec.ofNat 16 b.toNat) b [] s)

/-- EOF: the stop EOF_CODE, with no output and no dictionary change (41_code_stream.md R133). The count and the bump
precede it (R132). -/
def execEof (s : State) : Host.Outcome State Fault Refusal := .next (raiseStop .eofCode 0 s)

/-- DICT: emit `str(code)` (R187). -/
def execDict (k : Code) (s : State) : Host.Outcome State Fault Refusal :=
  match resolve s k with
  | .string first rest => .next (acceptCode k first rest (stackPopped s))
  | .refusedEof => .refused .stringOfEof
  | .undefined => .fault (.undefinedString k)

/-- KWKWK: emit `str(prev) ++ [prev_first]`, whose first byte is `prev_first` (43_decompress.md R187, R191; C9). -/
def execKwkwk (k : Code) (s : State) : Host.Outcome State Fault Refusal :=
  match decodeString s.eng.prev s with
  | .found bs =>
    .next (setPrevious k s.eng.prevFirst
      (decodeInsert s.eng.prevFirst (outPushAll (bs ++ [s.eng.prevFirst]) (stackPopped s))))
  | .atEof => .refused .stringOfEof
  | .undefined => .fault (.undefinedString s.eng.prev)

/-- BAD: the stop BAD_CODE with the code in ERR_INFO, before any output or table write (43_decompress.md R192). -/
def execBad (k : Code) (s : State) : Host.Outcome State Fault Refusal :=
  .next (raiseStop .badCode (BitVec.ofNat 32 k.toNat) s)

end Sys2Proof.Machine
end

