-- ==== Sys2Proof/Machine/Commands.lean ====
section
/-! DEFINITION. The meanings of the command words (45_host_commands.md R225 to R243). -/

namespace Sys2Proof.Machine

open Sys2Proof

/-- The part of START that precedes its legality check (R229): STATUS, ERR_INFO and the counters cleared,
`next_code` back at 257. -/
def startReport (d : Dir) (st : Strategy) (s : State) : State :=
  { s with
    regs.dir := d
    regs.strat := st
    regs.done := false
    regs.err := false
    regs.reason := .none
    regs.errInfo := 0
    regs.codeCount := 0
    regs.bytesIn := 0
    regs.bytesOut := 0
    eng.nextCode := 257 }

/-- `CfgError(m)` (R230): reported like a completion; nothing starts. -/
def cfgError (m : Word) (s : State) : State :=
  { s with
    regs.reason := .cfgError
    regs.errInfo := m
    regs.done := true
    regs.err := true
    regs.irqStatus := s.regs.irqStatus ||| completionIrq true
    cs.width := 0 }

/-- The part of START that begins the operation (R229): configuration latched, match and previous string empty,
`ENC` cleared, session initialised, phase RUN. -/
def startOperation (d : Dir) (st : Strategy) (m : Word) (s : State) : State :=
  let s1 := csInit
    { s with
      eng.aDir := d
      eng.aStrat := st
      eng.aMc := BitVec.ofNat 16 m.toNat
      eng.curValid := false
      eng.prevValid := false
      tabs.enc := [] }
  { s1 with eng.phase := .run }

/-- START while idle (R229). -/
def startIdle (d : Dir) (st : Strategy) (s : State) : State :=
  if startLegal s.cfg st s.regs.maxCode then startOperation d st s.regs.maxCode (startReport d st s)
  else cfgError s.regs.maxCode (startReport d st s)

/-- START (R227): rejected while busy (R228), else R229. -/
def start (d : Dir) (st : Strategy) (s : State) : State :=
  if s.busy then rejectCommand s else startIdle d st s

/-- ABORT while busy (R232): undelivered beats are discarded; from RUN the reason is ABORTED, in DRAIN the recorded
reason is kept; then the end is reported. The tables and the session keep arbitrary values (I5). -/
def abortBusy (s : State) : State :=
  let s1 := if s.eng.phase = .run then { s with regs.reason := .aborted, regs.errInfo := 0 } else s
  scrambleSession (reportDone { s1 with eng.obuf := [], eng.phase := .idle })

/-- CLEAR while idle (R233). -/
def clearIdle (s : State) : State :=
  { s with regs.done := false, regs.err := false, regs.reason := .none, regs.errInfo := 0 }

/-- NOP (R226). -/
def execNop (s : State) : Host.Outcome State Fault Refusal := .next s

/-- START.C.TEXT (R236). -/
def execStartCText (s : State) : Host.Outcome State Fault Refusal := .next (start .compress .text s)

/-- START.D.TEXT (R237). -/
def execStartDText (s : State) : Host.Outcome State Fault Refusal := .next (start .decompress .text s)

/-- START.C.F16 (R238). -/
def execStartCF16 (s : State) : Host.Outcome State Fault Refusal := .next (start .compress .fixed16 s)

/-- START.D.F16 (R239). -/
def execStartDF16 (s : State) : Host.Outcome State Fault Refusal := .next (start .decompress .fixed16 s)

/-- START.C.FW (R240). -/
def execStartCFw (s : State) : Host.Outcome State Fault Refusal := .next (start .compress .fixedw s)

/-- START.D.FW (R241). -/
def execStartDFw (s : State) : Host.Outcome State Fault Refusal := .next (start .decompress .fixedw s)

/-- START.C.AD (R242). -/
def execStartCAd (s : State) : Host.Outcome State Fault Refusal := .next (start .compress .adaptive s)

/-- START.D.AD (R243). -/
def execStartDAd (s : State) : Host.Outcome State Fault Refusal := .next (start .decompress .adaptive s)

/-- ABORT: nothing while idle (R231), else R232. -/
def execAbort (s : State) : Host.Outcome State Fault Refusal := .next (if s.busy then abortBusy s else s)

/-- CLEAR: rejected while busy (R234), else R233. -/
def execClear (s : State) : Host.Outcome State Fault Refusal :=
  .next (if s.busy then rejectCommand s else clearIdle s)

/-- RESERVED: CMD_IRQ is set and nothing else changes, in any phase (R235). The word itself has no further effect. -/
def execReserved (_w : Word) (s : State) : Host.Outcome State Fault Refusal := .next (rejectCommand s)

end Sys2Proof.Machine
end

