-- ==== Sys2Proof/Machine/Dispatch.lean ====
section
/-! DEFINITION. One arm per instruction: its meaning. -/

namespace Sys2Proof.Machine

open Sys2Proof

def exec (i : Instr) (s : State) : Host.Outcome State Fault Refusal :=
  match i with
  -- command words (45_host_commands.md R225)
  | .nop => Sys2Proof.Machine.execNop s
  | .startCText => Sys2Proof.Machine.execStartCText s
  | .startDText => Sys2Proof.Machine.execStartDText s
  | .startCF16 => Sys2Proof.Machine.execStartCF16 s
  | .startDF16 => Sys2Proof.Machine.execStartDF16 s
  | .startCFw => Sys2Proof.Machine.execStartCFw s
  | .startDFw => Sys2Proof.Machine.execStartDFw s
  | .startCAd => Sys2Proof.Machine.execStartCAd s
  | .startDAd => Sys2Proof.Machine.execStartDAd s
  | .abort => Sys2Proof.Machine.execAbort s
  | .clear => Sys2Proof.Machine.execClear s
  | .reserved w => Sys2Proof.Machine.execReserved w s
  -- code classes (30_encoding.md R97)
  | .lit b => Sys2Proof.Machine.execLit b s
  | .eof => Sys2Proof.Machine.execEof s
  | .dict k => Sys2Proof.Machine.execDict k s
  | .kwkwk k => Sys2Proof.Machine.execKwkwk k s
  | .bad k => Sys2Proof.Machine.execBad k s

end Sys2Proof.Machine
end

