-- ==== Sys2Proof/Machine/Compress.lean ====
section
/-! DEFINITION. The consuming steps of a compress operation (42_compress.md R170 to R174; 40_symbol_stream.md R120). -/

namespace Sys2Proof.Machine

open Sys2Proof

/-- The miss arm of COMPRESS.BYTE (42_compress.md R171): insert while there is room (R172), emit the longest known
prefix, and start the next match with the byte that missed. -/
def compressMiss (c : Byte) (s : State) : State :=
  let s1 := if s.hasRoom then encInsertNext s.eng.cur c s else s
  let s2 := csWrite s.eng.cur s1
  { s2 with eng.cur := BitVec.ofNat 16 c.toNat }

/-- COMPRESS.BYTE(c) (R171). -/
def compressByte (c : Byte) (s : State) : State :=
  if s.eng.curValid then
    match encLookup s.eng.cur c s with
    | some k => { s with eng.cur := k }
    | none => compressMiss c s
  else { s with eng.cur := BitVec.ofNat 16 c.toNat, eng.curValid := true }

/-- COMPRESS.END (R173): the pending match, the EOF code and the flush, then the stop IN_END. -/
def compressEnd (s : State) : State :=
  raiseStop .inEnd 0 (csFinalize (if s.eng.curValid then csWrite s.eng.cur s else s))

/-- COMPRESS.ERROR (R174): the stream is finalised without the pending match, then the stop IN_ERROR. -/
def compressError (s : State) : State := raiseStop .inError 0 (csFinalize s)

/-- A consuming step of a compress operation: SYM.READ (40_symbol_stream.md R120) and its caller. -/
def consumeCompress (b : Beat) (s : State) : State :=
  match b with
  | .byte c => compressByte c (countByteIn s)
  | .endMark => compressEnd s
  | .error => compressError s

end Sys2Proof.Machine
end

