-- ==== Sys2Proof/Machine/Decompress.lean ====
section
/-! DEFINITION. The consuming step of a decompress operation up to a completed code: CS.READ.BEAT
(41_code_stream.md R132, R147; 43_decompress.md R186). -/

namespace Sys2Proof.Machine

open Sys2Proof

/-- What an engine step comes to: a state, or a completed code to be executed in a state. -/
inductive Fetch where
  | done (t : State)
  | code (k : Code) (t : State)
deriving DecidableEq, Repr

/-- A completed code: counted, and bumped in ADAPTIVE, before it is classified (R132, R144). -/
def codeCompleted (c : CodeStream) (s : State) : State :=
  countCode { s with cs := bumpFor s.eng.aStrat s.eng.aMc c }

/-- CS.READ.BEAT on a data byte (R132). A byte the Text reader cannot parse stops with TEXT_FORMAT, ERR_INFO the byte
(R135); the digits read so far are not written (assumption 15). -/
def fetchByte (b : Byte) (s : State) : Fetch :=
  match readByte s.eng.aStrat b s.cs with
  | .noCode c => .done { s with cs := c }
  | .code k c => .code k (codeCompleted c s)
  | .formatError => .done (raiseStop .textFormat (BitVec.ofNat 32 b.toNat) s)

/-- CS.READ.BEAT (R132): Error stops with IN_ERROR, End with IN_END, and any partial code is discarded (R147). -/
def fetchBeat (b : Beat) (s : State) : Fetch :=
  match b with
  | .byte x => fetchByte x (countByteIn s)
  | .endMark => .done (raiseStop .inEnd 0 s)
  | .error => .done (raiseStop .inError 0 s)

end Sys2Proof.Machine
end

