-- ==== Sys2Proof/Machine/Turns.lean ====
section
/-! DEFINITION. One move of the engine (20_memory.md R67, R68) and one move of the host (R60 to R66, R69;
70_reset_and_hazards.md R270, R280), up to the instruction it may run. -/

namespace Sys2Proof.Machine

open Sys2Proof

/-- The drain step (20_memory.md R67) on the head of `s.obuf`, which the sink accepts. -/
def drainBeat (b : OutBeat) (rest : List OutBeat) (s : State) : State :=
  let s1 := { s with eng.obuf := rest, env.delivered := s.env.delivered ++ [b] }
  match b with
  | .byte _ => { s1 with regs.bytesOut := countUp s1.regs.bytesOut }
  | .endMark => complete s1

/-- A consuming step (R68) on the head of the input queue: the rule of the active direction. -/
def consumeBeat (b : Beat) (rest : List Beat) (s : State) : Fetch :=
  let s1 := { s with env.inq := rest }
  match s.eng.aDir with
  | .compress => .done (consumeCompress b s1)
  | .decompress => fetchBeat b s1

/-- One move of the engine. While `rst_n = 0` it takes no step (R270). While `s.obuf` holds beats it can only drain,
when the sink accepts (R66, R67). It consumes a beat only in RUN with `s.obuf` empty (R68). Otherwise it waits and
changes no state (60_exceptions.md R268). -/
def engineMove (s : State) : Fetch :=
  if s.env.rstN then
    match s.eng.obuf with
    | b :: rest => .done (if s.env.outReady then drainBeat b rest s else s)
    | [] =>
      if s.eng.phase = .run then
        match s.env.inq with
        | b :: rest => consumeBeat b rest s
        | [] => .done s
      else .done s
  else .done s

/-- What a move of the host comes to. -/
inductive HostMove where
  | done (t : State)
  /-- A write to CMD: the word is to be executed (10_state.md R25). -/
  | command (w : Word)
  | refused (r : Refusal)
deriving DecidableEq, Repr

/-- `RegWrite(off, d)` (20_memory.md R60 to R63). With any byte strobe active all 32 bits are written (R62). While
`rst_n = 0` register writes are ignored (70_reset_and_hazards.md R270). -/
def regWrite (off : Nat) (strobes : BitVec 4) (d : Word) (s : State) : HostMove :=
  if !inWindow off then .refused (.outsideWindow off)
  else if strobes = 0 then .refused (.noByteStrobe off)
  else if !s.env.rstN then .done s
  else if wordIndex off = cmdIndex then .command d
  else .done (writeWord (wordIndex off) d s)

/-- `RegRead(off)` (R60): the word is returned to the host, and nothing else changes (R63). -/
def regRead (off : Nat) (s : State) : HostMove :=
  if !inWindow off then .refused (.outsideWindow off)
  else .done { s with env.reads := s.env.reads ++ [(off, readReg s off)] }

/-- A change of `rst_n` (70_reset_and_hazards.md R270, R271): assertion resets the block, and so does the return to 1
from an asserted reset, after which every element holds its reset value (assumption 11). -/
def driveReset (level : Bool) (s : State) : State :=
  if level && s.env.rstN then s else { resetBlock s with env.rstN := level }

/-- A move of the host other than letting the engine move. -/
def hostMove (t : HostTurn) (s : State) : HostMove :=
  match t with
  | .regWrite off strobes d => regWrite off strobes d s
  | .regRead off => regRead off s
  | .offer kind data => .done { s with env.inq := s.env.inq ++ [Beat.ofSignals kind data] }
  | .withdraw => .done { s with env.inq := [] }
  | .sinkReady level => .done { s with env.outReady := level }
  | .rst level => .done (driveReset level s)
  | .engine => .done s

end Sys2Proof.Machine
end

