-- ==== Sys2Proof/Machine/Step.lean ====
section
/-! DEFINITION. One step: the next move in the total order of host accesses and engine steps (20_memory.md R72), and
how a word is placed where the next step finds it. -/

namespace Sys2Proof.Machine

open Sys2Proof

/-- Run a completed code: its class is decided by the state it is received in (30_encoding.md R97). -/
def runFetch (f : Fetch) : Host.Outcome State Fault Refusal :=
  match f with
  | .done t => .next t
  | .code k t => exec (classify t.codeCtx k) t

/-- One move of the engine. -/
def engineStep (s : State) : Host.Outcome State Fault Refusal := runFetch (engineMove s)

/-- One move of the host, which has left the list of pending moves. A word written to CMD is decoded and run. -/
def hostStep (t : HostTurn) (s : State) : Host.Outcome State Fault Refusal :=
  match t with
  | .engine => engineStep s
  | t =>
    match hostMove t s with
    | .done u => .next u
    | .command w => exec (decodeCmd w) s
    | .refused r => .refused r

/-- One atomic step (20_memory.md R72): the first pending move of the host's list, or the engine's where none is
pending (assumption 1). An illegal parameter set is refused (I10). -/
def step (s : State) : Host.Outcome State Fault Refusal :=
  if s.cfg.legal then
    match s.env.script with
    | [] => engineStep s
    | t :: rest => hostStep t { s with env.script := rest }
  else .refused .illegalConfig

/-- `s` with a word placed where the next step finds it: a command word (32 bits) as the host's next move, a write to
CMD; a code (16 bits) as the second byte of a Fixed-16 code at the input port of a decompress operation that holds
the first (41_code_stream.md R137), with the engine's move next. The operation is the sample session of
`CodeCtx.sample`, after the codes 65 and 65: a code's class needs a session (30_encoding.md R97; assumption 9). -/
def State.withFetchWord (s : State) (nbits w : Nat) : State :=
  match nbits with
  | 32 =>
    { s with
      env.rstN := true
      env.script := .regWrite 0x08 0xF (BitVec.ofNat 32 w) :: s.env.script }
  | 16 =>
    { s with
      env.rstN := true
      env.script := .engine :: s.env.script
      env.inq := .byte (BitVec.ofNat 8 (w / 256)) :: s.env.inq
      eng.phase := .run
      eng.aDir := .decompress
      eng.aStrat := .fixed16
      eng.aMc := CodeCtx.sample.maxCode
      eng.obuf := []
      eng.nextCode := CodeCtx.sample.nextCode
      eng.prevValid := CodeCtx.sample.prevValid
      eng.prev := 65
      eng.prevFirst := 65
      tabs.dec := [(257, (65, 65))]
      cs.acc := BitVec.ofNat 24 (w % 256)
      cs.nbits := 8 }
  | _ => s

end Sys2Proof.Machine
end

