-- ==== Sys2Proof/Machine/Lookup.lean ====
section
/-! DEFINITION. The physical organisation of the mapping tables (44_dictionary_tables.md R210 to R217): the encode hash RAM
with linear probe, the encode CAM and the decode RAM. The machine's steps use the abstract maps, as 10_state.md R55 allows;
R206 says that these give the same answers, and LookupEngineMatchesMap and MachineLookupsArePhysical state it. -/

namespace Sys2Proof.Machine

open Sys2Proof

/-! ### Encode table: hash RAM with linear probe (LOOKUP_IMPL = HASH_PROBE) -/

/-- The fields of a valid slot of the encode RAM (R210). -/
structure EncSlot where
  kp : Code
  kc : Byte
  code : Code
deriving DecidableEq, Repr

/-- The 41 bits of a valid slot: V[40], KP[39:24], KC[23:16], CODE[15:0] (R210). -/
def EncSlot.bits (x : EncSlot) : BitVec 41 :=
  BitVec.ofNat 41 (2 ^ 40 + x.kp.toNat * 2 ^ 24 + x.kc.toNat * 2 ^ 16 + x.code.toNat)

/-- The encode RAM: the valid slots by their index. An unlisted slot has V = 0, and its other fields are ignored
(R210, I4). -/
abbrev EncRam := Memory EncSlot

/-- The hash function (R211): `((c << (HASH_BITS - 8)) XOR p) mod HASH_SLOTS`. -/
def encHash (cfg : Config) (p : Code) (c : Byte) : Nat :=
  ((c.toNat <<< (cfg.hashBits.toNat - 8)) ^^^ p.toNat) % cfg.hashSlots

/-- What a probe comes to. -/
inductive Probe where
  /-- The key stands in a slot. -/
  | hit (code : Code)
  /-- The probe stopped at an empty slot, the engine's `miss_slot`. -/
  | miss (slot : Nat)
  /-- No slot is empty: R217 excludes it. -/
  | endless
deriving DecidableEq, Repr

/-- The probe sequence (R212) from slot `i`, at most `fuel` reads. -/
def probeFrom (slots : Nat) (ram : EncRam) (p : Code) (c : Byte) : Nat → Nat → Probe
  | 0, _ => .endless
  | fuel + 1, i =>
    match Memory.read ram i with
    | none => .miss i
    | some x => if x.kp = p ∧ x.kc = c then .hit x.code else probeFrom slots ram p c fuel ((i + 1) % slots)

/-- The probe of a key: it ends in at most `HASH_SLOTS` reads (R217). -/
def EncRam.probe (cfg : Config) (ram : EncRam) (p : Code) (c : Byte) : Probe :=
  probeFrom cfg.hashSlots ram p c cfg.hashSlots (encHash cfg p c)

/-- `EncLookup` under HASH_PROBE (R208, R212). -/
def EncRam.lookup (cfg : Config) (ram : EncRam) (p : Code) (c : Byte) : Option Code :=
  match EncRam.probe cfg ram p c with
  | .hit k => some k
  | .miss _ => none
  | .endless => none

/-- `EncInsert` under HASH_PROBE: the slot at which the lookup of the same step stopped is written, no other (R213). -/
def EncRam.insert (cfg : Config) (ram : EncRam) (p : Code) (c : Byte) (k : Code) : EncRam :=
  match EncRam.probe cfg ram p c with
  | .miss i => Memory.write ram i { kp := p, kc := c, code := k }
  | .hit _ => ram
  | .endless => ram

/-! ### Encode table: CAM (LOOKUP_IMPL = CAM) -/

/-- The key fields of a valid entry of the CAM (R215). -/
structure CamEntry where
  kp : Code
  kc : Byte
deriving DecidableEq, Repr

/-- The CAM: the valid entries by their index `k − 257` (R215). -/
abbrev Cam := Memory CamEntry

/-- `EncLookup` under CAM: `Some(257 + index)` of the entry that matches (R215). -/
def Cam.lookup : Cam → Code → Byte → Option Code
  | [], _, _ => none
  | (i, x) :: m, p, c => if x.kp = p ∧ x.kc = c then some (BitVec.ofNat 16 (257 + i)) else Cam.lookup m p c

/-- `EncInsert` under CAM: entry `k − 257` is written (R215). -/
def Cam.insert (m : Cam) (p : Code) (c : Byte) (k : Code) : Cam :=
  Memory.write m (k.toNat - 257) { kp := p, kc := c }

/-! ### Either organisation -/

/-- The physical encode table of either organisation (R8 `LOOKUP_IMPL`). -/
inductive PhysEnc where
  | ram (m : EncRam)
  | cam (m : Cam)
deriving DecidableEq, Repr

/-- The table right after START's clear: every V bit 0 (R214, R215). -/
def PhysEnc.cleared (cfg : Config) : PhysEnc :=
  match cfg.lookupImpl with
  | .hashProbe => .ram []
  | .cam => .cam []

/-- `EncLookup` on the physical table. -/
def PhysEnc.lookup (cfg : Config) (t : PhysEnc) (p : Code) (c : Byte) : Option Code :=
  match t with
  | .ram m => EncRam.lookup cfg m p c
  | .cam m => Cam.lookup m p c

/-- `EncInsert` on the physical table. -/
def PhysEnc.insert (cfg : Config) (t : PhysEnc) (p : Code) (c : Byte) (k : Code) : PhysEnc :=
  match t with
  | .ram m => .ram (EncRam.insert cfg m p c k)
  | .cam m => .cam (Cam.insert m p c k)

/-- The physical table after a run of inserts since START, with the codes 257, 258, ... in order (R221). -/
def PhysEnc.afterInserts (cfg : Config) : List (Code × Byte) → PhysEnc
  | [] => PhysEnc.cleared cfg
  | (p, c) :: earlier => PhysEnc.insert cfg (PhysEnc.afterInserts cfg earlier) p c (BitVec.ofNat 16 (257 + earlier.length))

/-- The abstract `ENC` after the same inserts (10_state.md R43). -/
def encAfterInserts : List (Code × Byte) → Memory Code
  | [] => []
  | (p, c) :: earlier =>
    Memory.write (encAfterInserts earlier) (encKey p c) (BitVec.ofNat 16 (257 + earlier.length))

/-! ### Decode RAM -/

/-- The decode RAM: the entries written, by their index `k − 257` (R216). -/
abbrev DecRam := Memory (Code × Byte)

/-- `DecRead(k)` on the decode RAM (R216). -/
def DecRam.readCode (m : DecRam) (k : Nat) : Option (Code × Byte) := Memory.read m (k - 257)

/-- `DecWrite(k, p, c)` on the decode RAM (R216). -/
def DecRam.writeCode (m : DecRam) (k : Nat) (p : Code) (c : Byte) : DecRam := Memory.write m (k - 257) (p, c)

/-- The decode RAM after a run of writes since START, to the codes 257, 258, ... in order (R221). START does not clear it:
`old` is what it held (R216). -/
def DecRam.afterWrites (old : DecRam) : List (Code × Byte) → DecRam
  | [] => old
  | (p, c) :: earlier => (DecRam.afterWrites old earlier).writeCode (257 + earlier.length) p c

/-- The abstract `DEC` after the same writes (10_state.md R44). -/
def decAfterWrites (old : Memory (Code × Byte)) : List (Code × Byte) → Memory (Code × Byte)
  | [] => old
  | (p, c) :: earlier => Memory.write (decAfterWrites old earlier) (257 + earlier.length) (p, c)

end Sys2Proof.Machine
end

