-- ==== Sys2Proof/Safety.lean ====
section
/-! DEFINITION. What a safe state is: the invariants of 10_state.md R53, 41_code_stream.md R148 and R149, and 60_exceptions.md R246 to R250,
in the terms the statements use. -/

namespace Sys2Proof.Machine

open Sys2Proof

/-! ### Whose move it is -/

/-- The engine moves next: nothing is pending, or the list says so (20_memory.md R72). -/
def State.engineNext (s : State) : Bool :=
  match s.env.script with
  | [] => true
  | .engine :: _ => true
  | _ => false

/-- `s` with its next pending move taken off the list. -/
def State.popTurn (s : State) : State := { s with env.script := s.env.script.tail }

/-- The engine may consume a beat: RUN, `s.obuf` empty, out of reset (20_memory.md R68). -/
def State.canConsume (s : State) : Prop :=
  s.cfg.legal = true ∧ s.engineNext = true ∧ s.env.rstN = true ∧ s.eng.phase = .run ∧ s.eng.obuf = []

/-! ### Output buffer and report -/

/-- Every beat is a data byte. -/
def bytesOnly (q : List OutBeat) : Bool := q.all (fun b => decide (b ≠ .endMark))

/-- Data bytes, then one End: what `s.obuf` holds after a stop (60_exceptions.md R246). -/
def endsOnce (q : List OutBeat) : Bool := decide (q.getLast? = some .endMark) && bytesOnly q.dropLast

/-- The reasons a `raise Stop` can have (60_exceptions.md R247). -/
def Reason.isStop : Reason → Bool
  | .eofCode | .inEnd | .inError | .badCode | .textFormat => true
  | .none | .aborted | .cfgError => false

/-- The phase, the output buffer and the report agree: IDLE has nothing to deliver, RUN has pushed no End and has no
reason, DRAIN holds exactly one End, the last beat (20_memory.md R67; 60_exceptions.md R246, R250; 10_state.md R26, R27). -/
structure ReportInv (s : State) : Prop where
  idle : s.eng.phase = .idle → s.eng.obuf = []
  run : s.eng.phase = .run → bytesOnly s.eng.obuf = true ∧ s.regs.reason = .none
  drain : s.eng.phase = .drain → endsOnce s.eng.obuf = true ∧ s.regs.reason.isStop = true
  busy : s.eng.phase ≠ .idle →
    s.regs.done = false ∧ s.regs.err = false ∧ s.regs.dir = s.eng.aDir ∧ s.regs.strat = s.eng.aStrat
  finished : s.regs.done = true → s.regs.err = s.regs.reason.isErr
  fresh : s.eng.phase = .idle → s.regs.done = false → s.regs.err = false ∧ s.regs.reason = .none

/-! ### Canonical tables -/

/-- Both tables are in canonical form. -/
def TablesCanonical (s : State) : Prop :=
  Memory.wf s.tabs.enc = true ∧ Memory.wf s.tabs.dec = true

/-! ### The dictionary engine (10_state.md R53) -/

/-- R53 (b), (c), (d), (e), for a compress operation: every entry `(p, c) → k` has `257 ≤ k < next_code` and a prefix
below `k` other than 256; `ENC` is injective, and holds exactly the codes `257..next_code − 1`; the pending match is a
defined code. -/
structure EncInv (s : State) : Prop where
  entry : ∀ p c k, encLookup p c s = some k →
    257 ≤ k.toNat ∧ k.toNat < s.eng.nextCode.toNat ∧ p.toNat < k.toNat ∧ p.toNat ≠ 256
  injective : ∀ p c p' c' k, encLookup p c s = some k → encLookup p' c' s = some k → p = p' ∧ c = c'
  onto : ∀ k : Code, 257 ≤ k.toNat → k.toNat < s.eng.nextCode.toNat → ∃ p c, encLookup p c s = some k
  cur : s.eng.curValid = true → s.eng.cur.toNat < s.eng.nextCode.toNat ∧ s.eng.cur.toNat ≠ 256

/-- `str(k)` of a decompress dictionary (44_dictionary_tables.md R207): a literal stands for its byte, an entry `(p, c)`
for the string of `p` followed by `c`. -/
inductive StrOf (dec : Memory (Code × Byte)) : Code → List Byte → Prop where
  | literal (k : Code) (b : Byte) (hk : k.toNat = b.toNat) : StrOf dec k [b]
  | entry (k p : Code) (c : Byte) (bs : List Byte) (hk : 257 ≤ k.toNat)
      (hr : Memory.read dec k.toNat = some (p, c)) (hp : StrOf dec p bs) : StrOf dec k (bs ++ [c])

/-- Every code from 257 up to `n` has an entry in `DEC`, whose prefix is a smaller code other than 256 (R53 (c);
44_dictionary_tables.md R218). -/
def DecDefined (dec : Memory (Code × Byte)) (n : Nat) : Prop :=
  ∀ k : Nat, 257 ≤ k → k < n → ∃ p c, Memory.read dec k = some (p, c) ∧ p.toNat < k ∧ p.toNat ≠ 256

/-- R53 (c), (f), for a decompress operation: every code below `next_code` has an entry whose prefix is below it and
not 256; the previous code is a defined code, its string starts with `s.prev_first` (10_state.md R42; 43_decompress.md
R190), and nothing is inserted before there is one. -/
structure DecInv (s : State) : Prop where
  entry : DecDefined s.tabs.dec s.eng.nextCode.toNat
  prev : s.eng.prevValid = true → s.eng.prev.toNat < s.eng.nextCode.toNat ∧ s.eng.prev.toNat ≠ 256
  prevFirst : s.eng.prevValid = true → ∃ rest, StrOf s.tabs.dec s.eng.prev (s.eng.prevFirst :: rest)
  first : s.eng.prevValid = false → s.eng.nextCode.toNat = 257

/-- The invariants of an operation (R53; 10_state.md R38; 45_host_commands.md R229). -/
structure EngineInv (s : State) : Prop where
  bound : s.eng.phase ≠ .idle → s.eng.aMc.toNat ≤ s.cfg.maxCodeCap.toNat
  fixedw : s.eng.phase ≠ .idle → s.eng.aStrat = .fixedw → 256 ≤ s.eng.aMc.toNat
  next : s.eng.phase ≠ .idle →
    257 ≤ s.eng.nextCode.toNat ∧ s.eng.nextCode.toNat ≤ max s.eng.aMc.toNat 256 + 1
  compress : s.eng.phase ≠ .idle → s.eng.aDir = .compress → EncInv s
  decompress : s.eng.phase ≠ .idle → s.eng.aDir = .decompress → DecInv s

/-! ### The session state (41_code_stream.md R148) -/

/-- The width that a strategy prescribes (10_state.md R45; 30_encoding.md R102 for ADAPTIVE, from `cs.current_code`). -/
def widthOf (st : Strategy) (mc currentCode : Nat) : Nat :=
  match st with
  | .text => 0
  | .fixed16 => 16
  | .fixedw => bitlen mc
  | .adaptive => max 9 (bitlen currentCode)

/-- The bound on `cs.nbits` between steps (10_state.md R46; 41_code_stream.md R138, R139): a writer keeps fewer than 8
bits pending, a packed reader fewer than a code's width, the FIXED16 reader none or one byte. -/
def nbitsOk (d : Dir) (st : Strategy) (width nbits : Nat) : Prop :=
  match st, d with
  | .text, _ => nbits = 0
  | .fixed16, .compress => nbits = 0
  | .fixed16, .decompress => nbits = 0 ∨ nbits = 8
  | .fixedw, .compress => nbits < 8
  | .adaptive, .compress => nbits < 8
  | .fixedw, .decompress => nbits < width
  | .adaptive, .decompress => nbits < width

/-- R148 and R45 to R47, for the session state of a running operation: its width, its counter, the doubling bound, the
pending bits and the value of the Text line. -/
structure SessionOk (d : Dir) (st : Strategy) (mc : Code) (c : CodeStream) : Prop where
  width : c.width.toNat = widthOf st mc.toNat c.currentCode.toNat
  current : 256 ≤ c.currentCode.toNat ∧ c.currentCode.toNat ≤ max mc.toNat 256
  still : st ≠ .adaptive → c.currentCode.toNat = 256 ∧ c.nextBump.toNat = 512
  nextBump : st = .adaptive → c.nextBump.toNat = 2 ^ c.width.toNat
  nbits : nbitsOk d st c.width.toNat c.nbits.toNat
  acc : c.acc.toNat < 2 ^ c.nbits.toNat
  tval : c.tval.toNat ≤ 65535

/-- The session invariant: `SessionOk` in RUN and DRAIN. -/
def SessionInv (s : State) : Prop := s.eng.phase ≠ .idle → SessionOk s.eng.aDir s.eng.aStrat s.eng.aMc s.cs

/-- What makes every written code fit its width (41_code_stream.md R149): in an ADAPTIVE compress the dictionary is
never ahead of the width counter by more than one. -/
def FitInv (s : State) : Prop :=
  s.eng.phase ≠ .idle → s.eng.aDir = .compress → s.eng.aStrat = .adaptive →
    s.eng.nextCode.toNat ≤ s.cs.currentCode.toNat + 1

/-- The invariant of the machine. -/
structure Inv (s : State) : Prop where
  legal : s.cfg.legal = true
  report : ReportInv s
  tables : TablesCanonical s
  engine : EngineInv s
  session : SessionInv s
  fit : FitInv s

/-! ### Safe accesses and observations -/

/-- The pending move is no access that the model refuses by name (20_memory.md R61, R62): it lies in the window, and a
write has a byte strobe active. -/
def HostTurn.admissible : HostTurn → Bool
  | .regWrite off strobes _ => inWindow off && decide (strobes ≠ 0)
  | .regRead off => inWindow off
  | .offer _ _ | .withdraw | .sinkReady _ | .rst _ | .engine => true

/-- A move of the two streams' environment or of the engine, and none of the register bus or of `rst_n`. -/
def HostTurn.streamOnly : HostTurn → Bool
  | .offer _ _ | .sinkReady _ | .engine => true
  | .regWrite _ _ _ | .regRead _ | .withdraw | .rst _ => false

/-- The host's write of an instruction's word to CMD, offset 0x08 with every byte strobe (10_state.md R25). -/
def commandWrite (i : Instr) : HostTurn := .regWrite 0x08 0xF (BitVec.ofNat 32 (encodeValue i))

/-- The block is idle, out of reset, with nothing to deliver, and its parameters are legal. -/
def State.ready (s : State) : Prop :=
  s.cfg.legal = true ∧ s.env.rstN = true ∧ s.eng.phase = .idle ∧ s.eng.obuf = []

/-- A data stream as the source offers it, then End (20_memory.md R64). -/
def sourceOf (bytes : List Byte) : List Beat := bytes.map .byte ++ [.endMark]

/-- A completed operation's delivered beats: data bytes, then End (20_memory.md R66, R67). -/
def sinkOf (bytes : List Byte) : List OutBeat := bytes.map .byte ++ [.endMark]

/-! ### Code streams, as the spec describes them -/

/-- The width of code number `i` (30_encoding.md R102); TEXT and FIXED16 carry any code of 16 bits. -/
def codeWidth (st : Strategy) (mc : Code) (i : Nat) : Nat :=
  match st with
  | .text => 16
  | .fixed16 => 16
  | .fixedw => bitlen mc.toNat
  | .adaptive => max 9 (bitlen (min (256 + i) (max mc.toNat 256)))

/-- The first stream bit of code number `i`: the sum of the widths before it (30_encoding.md R101). -/
def codeOffset (st : Strategy) (mc : Code) : Nat → Nat
  | 0 => 0
  | i + 1 => codeOffset st mc i + codeWidth st mc i

/-- Bit `j` of a stream: bit `j mod 8` of byte `j / 8` (30_encoding.md R101). -/
def streamBit (bytes : List Byte) (j : Nat) : Bool := (bytes.getD (j / 8) 0).getLsbD (j % 8)

/-- The bytes that a sequence of codes is written as, and the session after it (41_code_stream.md R131). -/
def writeCodes (st : Strategy) (mc : Code) : List Code → CodeStream → List Byte × CodeStream
  | [], c => ([], c)
  | k :: ks, c =>
    let r := writeCode st mc k c
    let q := writeCodes st mc ks r.2
    (r.1 ++ q.1, q.2)

/-- A whole code stream: the codes written in a fresh session, then the flush (41_code_stream.md R130, R131, R146). -/
def codeStreamOf (st : Strategy) (mc : Code) (ks : List Code) : List Byte :=
  let r := writeCodes st mc ks (sessionInit st mc)
  r.1 ++ (flushFor st r.2).1

/-- The codes read from bytes, in order, and the session after them; nothing where the Text reader stops
(41_code_stream.md R132). -/
def readCodes (st : Strategy) (mc : Code) : List Byte → CodeStream → Option (List Code × CodeStream)
  | [], c => some ([], c)
  | b :: bs, c =>
    match readByte st b c with
    | .noCode c' => readCodes st mc bs c'
    | .code k c' => (readCodes st mc bs (bumpFor st mc c')).map (fun q => (k :: q.1, q.2))
    | .formatError => none

end Sys2Proof.Machine
end

