-- ==== Sys2Proof/Certificates/Slice0/Obligations.lean ====
section
/-! DEFINITION. The statements about LZWCORE that the provers prove: each formalises a rule of spec/ or says what the whole
machine keeps. -/

open Sys2Proof Sys2Proof.Machine

/-! ### Encodings -/

/-- The complete command decode (30_encoding.md R94): the eleven words of the table, written out, and every other word is
reserved. -/
def Obligations.CommandWordsDecode : Prop :=
  ∀ x : CodeCtx,
    decode .cmd32 x [0x00, 0x00, 0x00, 0x00] = .instr .nop ∧
    decode .cmd32 x [0x01, 0x00, 0x00, 0x00] = .instr .startCText ∧
    decode .cmd32 x [0x11, 0x00, 0x00, 0x00] = .instr .startDText ∧
    decode .cmd32 x [0x21, 0x00, 0x00, 0x00] = .instr .startCF16 ∧
    decode .cmd32 x [0x31, 0x00, 0x00, 0x00] = .instr .startDF16 ∧
    decode .cmd32 x [0x41, 0x00, 0x00, 0x00] = .instr .startCFw ∧
    decode .cmd32 x [0x51, 0x00, 0x00, 0x00] = .instr .startDFw ∧
    decode .cmd32 x [0x61, 0x00, 0x00, 0x00] = .instr .startCAd ∧
    decode .cmd32 x [0x71, 0x00, 0x00, 0x00] = .instr .startDAd ∧
    decode .cmd32 x [0x02, 0x00, 0x00, 0x00] = .instr .abort ∧
    decode .cmd32 x [0x03, 0x00, 0x00, 0x00] = .instr .clear ∧
    ∀ w : Word, w ∉ definedWords → decode .cmd32 x (leBytes 4 w.toNat) = .instr (.reserved w)

/-- A received code falls in exactly one class, by the conditions of 30_encoding.md R97, in the order 43_decompress.md
R187 tests them. -/
def Obligations.CodeClassesDecode : Prop :=
  ∀ (x : CodeCtx) (k : Code),
    (∀ b : Byte, k.toNat = b.toNat → decode .code16 x (leBytes 2 k.toNat) = .instr (.lit b)) ∧
    (k.toNat = 256 → decode .code16 x (leBytes 2 k.toNat) = .instr .eof) ∧
    (257 ≤ k.toNat → k.toNat < x.nextCode.toNat → decode .code16 x (leBytes 2 k.toNat) = .instr (.dict k)) ∧
    (257 ≤ k.toNat → k.toNat = x.nextCode.toNat → x.prevValid = true → x.nextCode.toNat ≤ x.maxCode.toNat →
      decode .code16 x (leBytes 2 k.toNat) = .instr (.kwkwk k)) ∧
    (257 ≤ k.toNat → x.nextCode.toNat ≤ k.toNat →
      (k.toNat ≠ x.nextCode.toNat ∨ x.prevValid = false ∨ x.maxCode.toNat < x.nextCode.toNat) →
      decode .code16 x (leBytes 2 k.toNat) = .instr (.bad k))

/-- Decoding an encoded instruction gives it back: every command, and every code class in every context that admits it
(30_encoding.md R90 to R97). -/
def Obligations.DecodeOfEncode : Prop :=
  ∀ (i : Instr) (x : CodeCtx), i.wellFormed = true → i.admitted x = true → decode i.format x (encode i) = .instr i

/-- Each word has one meaning: what decodes to an instruction is that instruction's encoding, and the instruction is
well formed and admitted. -/
def Obligations.EncodeOfDecode : Prop :=
  ∀ (f : Format) (x : CodeCtx) (bytes : List Byte) (i : Instr), decode f x bytes = .instr i →
    encode i = bytes ∧ i.format = f ∧ i.wellFormed = true ∧ i.admitted x = true

/-- The fields of a START word (30_encoding.md R90 to R93): OP 1, DIR, STRAT and MBZ 0; and the word is the only one with
those fields. -/
def Obligations.StartWordFields : Prop :=
  ∀ (d : Dir) (st : Strategy) (w : Word),
    decodeCmd w = Instr.start d st ↔
      cmdOp w = 1 ∧ cmdDir w = d.bits ∧ cmdStrat w = st.bits ∧ cmdMbz w = 0

/-- The reserved words (30_encoding.md R96; 45_host_commands.md R235): OP 4 to 15, a non-zero MBZ field, or a non-zero DIR or
STRAT without OP 1. Such a word sets CMD_IRQ and changes nothing else, in any phase. -/
def Obligations.ReservedWordsOnlySetCmdIrq : Prop :=
  ∀ (w : Word),
    (decodeCmd w = .reserved w ↔
      (4 ≤ cmdOp w ∨ cmdMbz w ≠ 0 ∨ (cmdOp w ≠ 1 ∧ (cmdDir w ≠ 0 ∨ cmdStrat w ≠ 0)))) ∧
    ∀ s : State, exec (.reserved w) s = .next { s with regs.irqStatus := s.regs.irqStatus ||| 0b100 }

/-! ### A step runs what was decoded -/

/-- A write to CMD (any offset that decodes to word 2, any byte strobe) runs the decoded command once, on the state whose
pending write is taken off the list; a read of CMD returns 0 (10_state.md R25; 20_memory.md R61, R62). -/
def Obligations.StepRunsWrittenCommand : Prop :=
  (∀ (s : State) (off : Nat) (strobes : BitVec 4) (d : Word) (rest : List HostTurn) (i : Instr) (x : CodeCtx),
    s.cfg.legal = true → s.env.rstN = true → s.env.script = .regWrite off strobes d :: rest →
    0x08 ≤ off → off ≤ 0x0B → strobes ≠ 0 → decode .cmd32 x (leBytes 4 d.toNat) = .instr i →
    step s = exec i { s with env.script := rest }) ∧
  ∀ s : State, readReg s 0x08 = 0

/-- Where the model places a word for the next step (the model's choice, assumption 9): a command word runs on the state
itself, a code on a decompress session that has received the codes 65 and 65. -/
def Obligations.PlacedWordRuns : Prop :=
  ∀ (s : State) (w : Nat) (i : Instr), s.cfg.legal = true →
    (decodeTableWord 32 w = some i → step (s.withFetchWord 32 w) = exec i { s with env.rstN := true }) ∧
    (decodeTableWord 16 w = some i → step (s.withFetchWord 16 w) = exec i
      { s with
        env.rstN := true
        eng.phase := .run
        eng.aDir := .decompress
        eng.aStrat := .fixed16
        eng.aMc := 32767
        eng.obuf := []
        eng.nextCode := 258
        eng.prevValid := true
        eng.prev := 65
        eng.prevFirst := 65
        tabs.dec := [(257, (65, 65))]
        cs.acc := 0
        cs.nbits := 0
        regs.bytesIn := s.regs.bytesIn + 1
        regs.codeCount := s.regs.codeCount + 1 })

/-- One beat of a decompress operation (41_code_stream.md R132, R147; 43_decompress.md R186): Error and End stop; a byte that
completes no code changes the session and BYTES_IN only; a byte the Text reader refuses stops with TEXT_FORMAT and the
byte in ERR_INFO (R135), and leaves the session as it was, which is DEDUCED (assumption 15); a completed code is counted
and, in ADAPTIVE, bumped, then 256 stops (R133) and any other code is decoded and run. -/
def Obligations.StepReadsBeat : Prop :=
  ∀ (s : State) (b : Beat) (rest : List Beat), s.canConsume → s.eng.aDir = .decompress → s.env.inq = b :: rest →
    let u := { s with env.script := s.env.script.tail, env.inq := rest }
    match b with
    | .error =>
      step s = .next { u with
        regs.reason := .inError, regs.errInfo := 0, eng.obuf := [.endMark], eng.phase := .drain }
    | .endMark =>
      step s = .next { u with
        regs.reason := .inEnd, regs.errInfo := 0, eng.obuf := [.endMark], eng.phase := .drain }
    | .byte x =>
      match readByte s.eng.aStrat x s.cs with
      | .noCode c => step s = .next { u with regs.bytesIn := s.regs.bytesIn + 1, cs := c }
      | .formatError =>
        step s = .next { u with
          regs.bytesIn := s.regs.bytesIn + 1, regs.reason := .textFormat, regs.errInfo := x.setWidth 32,
          eng.obuf := [.endMark], eng.phase := .drain }
      | .code k c =>
        let v := { u with
          regs.bytesIn := s.regs.bytesIn + 1, regs.codeCount := s.regs.codeCount + 1,
          cs := if s.eng.aStrat = .adaptive then bump s.eng.aMc c else c }
        if k = 256 then
          step s = .next { v with
            regs.reason := .eofCode, regs.errInfo := 0, eng.obuf := [.endMark], eng.phase := .drain }
        else
          ∀ i : Instr,
            decode .code16 { nextCode := s.eng.nextCode, maxCode := s.eng.aMc, prevValid := s.eng.prevValid }
              (leBytes 2 k.toNat) = .instr i → step s = exec i v

/-- The drain step (20_memory.md R67) and completion (60_exceptions.md R250): the head of the output buffer is delivered; a
byte is counted in BYTES_OUT; End makes the block idle and reports DONE, ERR = err(REASON), DONE_IRQ and, with ERR, ERR_IRQ. -/
def Obligations.StepDrainsBeat : Prop :=
  ∀ (s : State) (b : OutBeat) (rest : List OutBeat), s.cfg.legal = true → s.engineNext = true → s.env.rstN = true →
    s.env.outReady = true → s.eng.obuf = b :: rest →
    let u := { s with
      env.script := s.env.script.tail, eng.obuf := rest, env.delivered := s.env.delivered ++ [b] }
    match b with
    | .byte _ => step s = .next { u with regs.bytesOut := s.regs.bytesOut + 1 }
    | .endMark =>
      step s = .next { u with
        eng.phase := .idle
        regs.done := true
        regs.err := s.regs.reason.isErr
        regs.irqStatus := s.regs.irqStatus ||| (if s.regs.reason.isErr then 0b011 else 0b001) }

/-- The engine waits and changes no state in IDLE, while the sink does not accept, and while no beat is offered
(60_exceptions.md R268; 20_memory.md R66, R68). -/
def Obligations.StepWaits : Prop :=
  ∀ s : State, s.cfg.legal = true → s.engineNext = true →
    ((s.eng.phase ≠ .run ∧ s.eng.obuf = []) ∨ (s.eng.obuf ≠ [] ∧ s.env.outReady = false) ∨
      (s.eng.obuf = [] ∧ s.env.inq = [])) →
    step s = .next { s with env.script := s.env.script.tail }

/-! ### Registers -/

/-- What a register read returns, out of reset, at every offset of the window (10_state.md R22 to R35); `off[1:0]` is ignored
(20_memory.md R61). -/
def Obligations.RegisterReadValues : Prop :=
  ∀ (s : State) (o : Nat), s.env.rstN = true → o < 4 →
    readReg s (0x00 + o) = 0x4C5A5701 ∧
    readReg s (0x04 + o) = s.regs.maxCode ∧
    readReg s (0x08 + o) = 0 ∧
    readReg s (0x0C + o) = s.statusWord ∧
    readReg s (0x10 + o) = s.regs.irqStatus.setWidth 32 ∧
    readReg s (0x14 + o) = s.regs.irqEn.setWidth 32 ∧
    readReg s (0x18 + o) = s.regs.errInfo ∧
    readReg s (0x1C + o) = s.eng.nextCode.setWidth 32 ∧
    readReg s (0x20 + o) = s.cs.width.setWidth 32 ∧
    readReg s (0x24 + o) = s.regs.codeCount ∧
    readReg s (0x28 + o) = s.regs.bytesIn ∧
    readReg s (0x2C + o) = s.regs.bytesOut ∧
    readReg s (0x30 + o) = capsWord s.cfg ∧
    readReg s (0x34 + o) = 0 ∧ readReg s (0x38 + o) = 0 ∧ readReg s (0x3C + o) = 0

/-- The fields of STATUS (10_state.md R26, R27, R37), with BUSY 1 exactly when the phase is not IDLE, and of CAPS (R34); every
reserved bit reads 0. -/
def Obligations.StatusAndCapsFields : Prop :=
  ∀ s : State,
    (s.statusWord.getLsbD 0 = true ↔ s.eng.phase ≠ .idle) ∧
    s.statusWord.getLsbD 1 = s.regs.done ∧
    s.statusWord.getLsbD 2 = s.regs.err ∧
    s.statusWord.getLsbD 3 = false ∧
    (s.statusWord.extractLsb' 4 4).toNat = s.regs.reason.bits ∧
    s.statusWord.getLsbD 8 = decide (s.regs.dir = .decompress) ∧
    (s.statusWord.extractLsb' 9 2).toNat = s.regs.strat.bits ∧
    s.statusWord.extractLsb' 11 21 = 0 ∧
    (capsWord s.cfg).extractLsb' 0 16 = s.cfg.maxCodeCap ∧
    (capsWord s.cfg).extractLsb' 16 5 = s.cfg.hashBits ∧
    (capsWord s.cfg).extractLsb' 21 3 = 0 ∧
    (capsWord s.cfg).getLsbD 24 = decide (s.cfg.lookupImpl = .cam) ∧
    (capsWord s.cfg).extractLsb' 25 7 = 0

/-- A register read returns its word to the host and has no side effect on any register (20_memory.md R60, R63). -/
def Obligations.RegisterReadHasNoSideEffect : Prop :=
  ∀ (s : State) (off : Nat) (rest : List HostTurn), s.cfg.legal = true → s.env.script = .regRead off :: rest →
    off < 64 →
    step s = .next { s with
      env.script := rest, env.reads := s.env.reads ++ [(off, readReg { s with env.script := rest } off)] }

/-- A register write outside CMD (10_state.md R22, R24, R28, R29, R35; 20_memory.md R61 to R63): MAX_CODE is stored whole,
a 1 clears its IRQ_STATUS bit, IRQ_EN keeps bits [2:0], and every other word ignores the write. -/
def Obligations.RegisterWrites : Prop :=
  ∀ (s : State) (off : Nat) (strobes : BitVec 4) (d : Word) (rest : List HostTurn),
    s.cfg.legal = true → s.env.rstN = true → s.env.script = .regWrite off strobes d :: rest → strobes ≠ 0 →
    let u := { s with env.script := rest }
    (off / 4 = 1 → step s = .next { u with regs.maxCode := d }) ∧
    (off / 4 = 4 → step s = .next { u with regs.irqStatus := s.regs.irqStatus &&& ~~~(d.setWidth 3) }) ∧
    (off / 4 = 5 → step s = .next { u with regs.irqEn := d.setWidth 3 }) ∧
    (off / 4 < 16 → off / 4 ≠ 1 → off / 4 ≠ 2 → off / 4 ≠ 4 → off / 4 ≠ 5 → step s = .next u)

/-- The interrupt line (10_state.md R36; 60_exceptions.md R259): the OR of the enabled pending bits. -/
def Obligations.IrqLine : Prop :=
  ∀ s : State, s.env.rstN = true →
    (s.irq = true ↔ ∃ i : Nat, s.regs.irqStatus.getLsbD i = true ∧ s.regs.irqEn.getLsbD i = true)

/-! ### Reset -/

/-- The reset value of every element for which the spec gives one (10_state.md R22, R52; 00_scope.md R8). -/
def Obligations.ResetValues : Prop :=
  readReg State.reset 0x00 = 0x4C5A5701 ∧ readReg State.reset 0x04 = 0x00007FFF ∧ readReg State.reset 0x08 = 0 ∧
  readReg State.reset 0x0C = 0 ∧ readReg State.reset 0x10 = 0 ∧ readReg State.reset 0x14 = 0 ∧
  readReg State.reset 0x18 = 0 ∧ readReg State.reset 0x1C = 0x101 ∧ readReg State.reset 0x20 = 0 ∧
  readReg State.reset 0x24 = 0 ∧ readReg State.reset 0x28 = 0 ∧ readReg State.reset 0x2C = 0 ∧
  readReg State.reset 0x30 = 0x00107FFF ∧ readReg State.reset 0x34 = 0 ∧ readReg State.reset 0x38 = 0 ∧
  readReg State.reset 0x3C = 0 ∧
  State.reset.eng.phase = .idle ∧ State.reset.eng.obuf = [] ∧ State.reset.eng.curValid = false ∧
  State.reset.eng.nextCode = 257 ∧ State.reset.eng.prevValid = false ∧
  State.reset.cs.width = 0 ∧ State.reset.cs.currentCode = 256 ∧ State.reset.cs.nextBump = 512 ∧
  State.reset.cs.acc = 0 ∧ State.reset.cs.nbits = 0 ∧ State.reset.cs.tval = 0 ∧ State.reset.cs.tdig = false ∧
  State.reset.irq = false ∧ State.reset.inReady = false ∧ State.reset.outValid = false

/-- An assertion of `rst_n` in any phase, and its return to 1 from 0 (70_reset_and_hazards.md R270, R271, R273): every
register takes its reset value, the undelivered beats are lost with no completion, the pins `in_ready`, `out_valid` and
`irq` are 0, and the source's beats, the beats already delivered and the parameters stay. Driving 1 while `rst_n` is 1
changes nothing. That each change acts as one step is DEDUCED (assumption 11); what the unspecified elements hold is
not stated (assumption 4). -/
def Obligations.ResetAbandonsOperation : Prop :=
  (∀ (s : State) (level : Bool) (rest : List HostTurn), s.cfg.legal = true → s.env.script = .rst level :: rest →
    (level = false ∨ s.env.rstN = false) →
    ∃ t, step s = .next t ∧ t.regs = Regs.reset ∧ t.eng.phase = .idle ∧ t.eng.obuf = [] ∧
      t.eng.curValid = false ∧ t.eng.prevValid = false ∧ t.eng.nextCode = 257 ∧ t.cs = CodeStream.reset ∧
      t.regs.done = false ∧ t.regs.irqStatus = 0 ∧ t.inReady = false ∧ t.outValid = false ∧ t.irq = false ∧
      t.cfg = s.cfg ∧ t.env = { s.env with script := rest, rstN := level }) ∧
  ∀ (s : State) (rest : List HostTurn), s.cfg.legal = true → s.env.script = .rst true :: rest →
    s.env.rstN = true → step s = .next { s with env.script := rest }

/-- While `rst_n = 0` (70_reset_and_hazards.md R270) the block takes no step, `in_ready`, `out_valid` and `irq` are 0, register
writes are ignored and register reads return the reset values. -/
def Obligations.InResetNothingMoves : Prop :=
  ∀ s : State, s.cfg.legal = true → s.env.rstN = false →
    s.inReady = false ∧ s.outValid = false ∧ s.irq = false ∧
    (s.engineNext = true → step s = .next { s with env.script := s.env.script.tail }) ∧
    (∀ off strobes d rest, s.env.script = .regWrite off strobes d :: rest → off < 64 → strobes ≠ 0 →
      step s = .next { s with env.script := rest }) ∧
    (∀ off, off < 64 → off / 4 ≠ 12 → readReg s off = readReg State.reset off) ∧
    readReg s 0x30 = capsWord s.cfg

/-! ### Commands -/

/-- NOP (45_host_commands.md R226) is legal in every phase and changes nothing. -/
def Obligations.NopChangesNothing : Prop :=
  ∀ s : State, exec .nop s = .next s

/-- START accepted (45_host_commands.md R229; 41_code_stream.md R130), for its eight words: the report and the counters are
cleared, the configuration is latched, the dictionary and the session are fresh, and the phase is RUN; IRQ_STATUS,
MAX_CODE, `DEC` and the streams are unchanged. -/
def Obligations.StartBeginsOperation : Prop :=
  ∀ (d : Dir) (st : Strategy) (s : State), s.eng.phase = .idle →
    s.regs.maxCode.toNat ≤ s.cfg.maxCodeCap.toNat → (st = .fixedw → 256 ≤ s.regs.maxCode.toNat) →
    exec (Instr.start d st) s = .next
      { s with
        regs.dir := d
        regs.strat := st
        regs.done := false
        regs.err := false
        regs.reason := .none
        regs.errInfo := 0
        regs.codeCount := 0
        regs.bytesIn := 0
        regs.bytesOut := 0
        eng.nextCode := 257
        eng.aDir := d
        eng.aStrat := st
        eng.aMc := s.regs.maxCode.setWidth 16
        eng.curValid := false
        eng.prevValid := false
        eng.phase := .run
        tabs.enc := []
        cs := {
          width :=
            match st with
            | .text => 0
            | .fixed16 => 16
            | .fixedw => BitVec.ofNat 5 (bitlen s.regs.maxCode.toNat)
            | .adaptive => 9
          currentCode := 256
          nextBump := 512
          acc := 0
          nbits := 0
          tval := 0
          tdig := false } }

/-- START refused (45_host_commands.md R230), for its eight words: MAX_CODE above MAX_CODE_CAP, or FIXEDW with MAX_CODE below
256, completes at once with CFG_ERROR and ERR_INFO = MAX_CODE; the phase stays IDLE and the latched configuration, the tables
and the streams are unchanged. -/
def Obligations.StartConfigError : Prop :=
  ∀ (d : Dir) (st : Strategy) (s : State), s.eng.phase = .idle →
    (s.cfg.maxCodeCap.toNat < s.regs.maxCode.toNat ∨ (st = .fixedw ∧ s.regs.maxCode.toNat < 256)) →
    exec (Instr.start d st) s = .next
      { s with
        regs.dir := d
        regs.strat := st
        regs.done := true
        regs.err := true
        regs.reason := .cfgError
        regs.errInfo := s.regs.maxCode
        regs.codeCount := 0
        regs.bytesIn := 0
        regs.bytesOut := 0
        regs.irqStatus := s.regs.irqStatus ||| 0b011
        eng.nextCode := 257
        cs.width := 0 }

/-- START while busy (45_host_commands.md R228), for its eight words: CMD_IRQ is set, and nothing else changes. -/
def Obligations.StartWhileBusyRejected : Prop :=
  ∀ (d : Dir) (st : Strategy) (s : State), s.eng.phase ≠ .idle →
    exec (Instr.start d st) s = .next { s with regs.irqStatus := s.regs.irqStatus ||| 0b100 }

/-- ABORT (45_host_commands.md R231, R232): nothing while idle; while busy the undelivered beats are discarded, the reason
becomes ABORTED from RUN and is kept in DRAIN, and the end is reported. The tables and the session are left open. That
what R232 does not list as written (`next_code`, `cur`, `prev`, `prev_first` and the validity bits) is kept is DEDUCED, and
which elements are drawn is the model's choice (assumption 5). -/
def Obligations.AbortEndsOperation : Prop :=
  ∀ s : State,
    (s.eng.phase = .idle → exec .abort s = .next s) ∧
    (s.eng.phase ≠ .idle → ∃ (tabs : Tables) (cs : CodeStream),
      let r := if s.eng.phase = .run then Reason.aborted else s.regs.reason
      exec .abort s = .next
        { s with
          eng.obuf := []
          eng.phase := .idle
          regs.reason := r
          regs.errInfo := if s.eng.phase = .run then 0 else s.regs.errInfo
          regs.done := true
          regs.err := r.isErr
          regs.irqStatus := s.regs.irqStatus ||| (if r.isErr then 0b011 else 0b001)
          tabs := tabs
          cs := cs })

/-- CLEAR (45_host_commands.md R233, R234): while idle DONE, ERR, REASON and ERR_INFO are cleared; while busy CMD_IRQ is set;
nothing else changes. -/
def Obligations.ClearResetsReport : Prop :=
  ∀ s : State,
    (s.eng.phase = .idle → exec .clear s = .next
      { s with regs.done := false, regs.err := false, regs.reason := .none, regs.errInfo := 0 }) ∧
    (s.eng.phase ≠ .idle → exec .clear s = .next { s with regs.irqStatus := s.regs.irqStatus ||| 0b100 })

/-- The frame of the commands: none of them touches the parameters, the streams, the pending moves, MAX_CODE, IRQ_EN or the
working codes of a match; only START changes the latched configuration, `next_code`, the validity bits, the counters and
STATUS.DIR and STRAT; only ABORT changes the output buffer, `DEC` and the decode stack; and only these two change the
phase, `ENC` and the session. For ABORT, that `next_code`, `cur`, `prev`, `prev_first` and the validity bits are kept is
DEDUCED (assumption 5). -/
def Obligations.CommandFrames : Prop :=
  ∀ (i : Instr) (s t : State), i.format = .cmd32 → exec i s = .next t →
    t.cfg = s.cfg ∧ t.env = s.env ∧ t.regs.maxCode = s.regs.maxCode ∧ t.regs.irqEn = s.regs.irqEn ∧
    t.eng.cur = s.eng.cur ∧ t.eng.prev = s.eng.prev ∧ t.eng.prevFirst = s.eng.prevFirst ∧
    ((∀ d st, i ≠ Instr.start d st) → t.eng.aDir = s.eng.aDir ∧ t.eng.aStrat = s.eng.aStrat ∧
      t.eng.aMc = s.eng.aMc ∧ t.eng.nextCode = s.eng.nextCode ∧ t.eng.curValid = s.eng.curValid ∧
      t.eng.prevValid = s.eng.prevValid ∧ t.regs.codeCount = s.regs.codeCount ∧ t.regs.bytesIn = s.regs.bytesIn ∧
      t.regs.bytesOut = s.regs.bytesOut ∧ t.regs.dir = s.regs.dir ∧ t.regs.strat = s.regs.strat) ∧
    (i ≠ .abort → t.eng.obuf = s.eng.obuf ∧ t.tabs.dec = s.tabs.dec ∧ t.tabs.stack = s.tabs.stack) ∧
    (i ≠ .abort → (∀ d st, i ≠ Instr.start d st) → t.eng.phase = s.eng.phase ∧ t.tabs = s.tabs ∧ t.cs = s.cs)

/-! ### Code classes -/

/-- LIT (43_decompress.md R187 to R190): the byte goes out; with a previous string and room, the entry (prev, byte) is
written at `next_code`; the code becomes the previous one. Nothing else changes. -/
def Obligations.LiteralCode : Prop :=
  ∀ (b : Byte) (s : State),
    let u := { s with
      eng.obuf := s.eng.obuf ++ [.byte b], eng.prev := b.setWidth 16, eng.prevFirst := b, eng.prevValid := true }
    exec (.lit b) s = .next
      (if s.eng.prevValid = true ∧ s.eng.nextCode.toNat ≤ s.eng.aMc.toNat then
        { u with
          eng.nextCode := s.eng.nextCode + 1
          tabs.dec := Memory.write s.tabs.dec s.eng.nextCode.toNat (s.eng.prev, b) }
      else u)

/-- DICT (43_decompress.md R187 to R190; 44_dictionary_tables.md R207, R218): wherever the codes below `next_code` are
defined, `str(k)` goes out whole; with a previous string and room, the entry (prev, first byte) is written at `next_code`;
the code becomes the previous one. Nothing else changes; the decode stack ends empty. -/
def Obligations.DictionaryCode : Prop :=
  ∀ (k : Code) (s : State), DecDefined s.tabs.dec s.eng.nextCode.toNat → 257 ≤ k.toNat →
    k.toNat < s.eng.nextCode.toNat →
    ∃ (first : Byte) (rest : List Byte), StrOf s.tabs.dec k (first :: rest) ∧
      let u := { s with
        eng.obuf := s.eng.obuf ++ (first :: rest).map .byte, eng.prev := k, eng.prevFirst := first,
        eng.prevValid := true, tabs.stack := [] }
      exec (.dict k) s = .next
        (if s.eng.prevValid = true ∧ s.eng.nextCode.toNat ≤ s.eng.aMc.toNat then
          { u with
            eng.nextCode := s.eng.nextCode + 1
            tabs.dec := Memory.write s.tabs.dec s.eng.nextCode.toNat (s.eng.prev, first) }
        else u)

/-- KWKWK (43_decompress.md R187, R191): `str(prev)` and its recorded first byte go out, the entry (prev, first byte) is
written at `next_code`, where its string is the one that went out, and the code becomes the previous one. Nothing else
changes; the decode stack ends empty. In a state that meets the dictionary invariant the recorded byte is the first byte
of `str(prev)` (10_state.md R42; 43_decompress.md R190). -/
def Obligations.KwkwkCode : Prop :=
  ∀ (k : Code) (s : State), DecDefined s.tabs.dec s.eng.nextCode.toNat → s.eng.prevValid = true →
    s.eng.prev.toNat < s.eng.nextCode.toNat → s.eng.prev.toNat ≠ 256 → 257 ≤ k.toNat →
    k.toNat = s.eng.nextCode.toNat → s.eng.nextCode.toNat ≤ s.eng.aMc.toNat →
    ∃ bs : List Byte, StrOf s.tabs.dec s.eng.prev bs ∧ (DecInv s → ∃ rest, bs = s.eng.prevFirst :: rest) ∧
      StrOf (Memory.write s.tabs.dec s.eng.nextCode.toNat (s.eng.prev, s.eng.prevFirst)) k (bs ++ [s.eng.prevFirst]) ∧
      exec (.kwkwk k) s = .next
        { s with
          eng.obuf := s.eng.obuf ++ (bs ++ [s.eng.prevFirst]).map .byte
          eng.prev := k
          eng.nextCode := s.eng.nextCode + 1
          tabs.stack := []
          tabs.dec := Memory.write s.tabs.dec s.eng.nextCode.toNat (s.eng.prev, s.eng.prevFirst) }

/-- BAD (43_decompress.md R192; 60_exceptions.md R254) and EOF (41_code_stream.md R133; 60_exceptions.md R251): the stop
BAD_CODE with the code in ERR_INFO, and the stop EOF_CODE with ERR_INFO 0 (R246): the bytes already pushed stay and End
follows them; nothing of the code is emitted or inserted, and `s.prev` is unchanged. -/
def Obligations.BadAndEofCodesStop : Prop :=
  ∀ s : State,
    (∀ k : Code, exec (.bad k) s = .next
      { s with
        regs.reason := .badCode
        regs.errInfo := k.setWidth 32
        eng.obuf := s.eng.obuf ++ [.endMark]
        eng.phase := .drain }) ∧
    exec .eof s = .next
      { s with
        regs.reason := .eofCode
        regs.errInfo := 0
        eng.obuf := s.eng.obuf ++ [.endMark]
        eng.phase := .drain }

/-- The frame of the code classes: no code touches the parameters, the session, the streams, `ENC`, the latched
configuration or the registers other than REASON and ERR_INFO; the bytes already pushed stay; and every entry of `DEC` but
the one at `next_code` reads as before. -/
def Obligations.CodeFrames : Prop :=
  ∀ (i : Instr) (s t : State), i.format = .code16 → exec i s = .next t →
    t.cfg = s.cfg ∧ t.env = s.env ∧ t.cs = s.cs ∧ t.tabs.enc = s.tabs.enc ∧
    t.eng.aDir = s.eng.aDir ∧ t.eng.aStrat = s.eng.aStrat ∧ t.eng.aMc = s.eng.aMc ∧ t.eng.cur = s.eng.cur ∧
    t.eng.curValid = s.eng.curValid ∧ (∃ q, t.eng.obuf = s.eng.obuf ++ q) ∧
    t.regs = { s.regs with reason := t.regs.reason, errInfo := t.regs.errInfo } ∧
    (∀ j, j ≠ s.eng.nextCode.toNat → Memory.read t.tabs.dec j = Memory.read s.tabs.dec j) ∧
    (t.eng.nextCode = s.eng.nextCode → t.tabs.dec = s.tabs.dec)

/-- The length of a string (44_dictionary_tables.md R219; 43_decompress.md R196): `|str(k)| ≤ k − 255` for a dictionary code,
so within the decode stack; and one received code pushes at most `max(1, a_mc − 255)` bytes. -/
def Obligations.StringLengthBound : Prop :=
  ∀ s : State, s.cfg.legal = true → EngineInv s → s.eng.phase ≠ .idle → s.eng.aDir = .decompress →
    (∀ (k : Code) (bs : List Byte), 257 ≤ k.toNat → k.toNat < s.eng.nextCode.toNat → StrOf s.tabs.dec k bs →
      bs.length ≤ k.toNat - 255 ∧ bs.length ≤ s.cfg.stackDepth) ∧
    (∀ (k : Code) (t : State), exec (classify s.codeCtx k) s = .next t →
      t.eng.obuf.length ≤ s.eng.obuf.length + max 1 (s.eng.aMc.toNat - 255))

/-! ### Compress -/

/-- COMPRESS.BYTE (42_compress.md R171, R172; 40_symbol_stream.md R120): the first byte starts a match; a hit goes on with it;
a miss inserts while `next_code ≤ a_mc`, writes the longest known prefix and starts again at the byte. Nothing else changes. -/
def Obligations.StepCompressesByte : Prop :=
  ∀ (s : State) (c : Byte) (rest : List Beat), s.canConsume → s.eng.aDir = .compress →
    s.env.inq = .byte c :: rest →
    let u := { s with
      env.script := s.env.script.tail, env.inq := rest, regs.bytesIn := s.regs.bytesIn + 1 }
    let w := writeCode s.eng.aStrat s.eng.aMc s.eng.cur s.cs
    let v := { u with
      regs.codeCount := s.regs.codeCount + 1, cs := w.2, eng.obuf := w.1.map .byte, eng.cur := c.setWidth 16 }
    (s.eng.curValid = false → step s = .next { u with eng.cur := c.setWidth 16, eng.curValid := true }) ∧
    (∀ k, s.eng.curValid = true → encLookup s.eng.cur c s = some k → step s = .next { u with eng.cur := k }) ∧
    (s.eng.curValid = true → encLookup s.eng.cur c s = none → s.eng.nextCode.toNat ≤ s.eng.aMc.toNat →
      step s = .next { v with
        eng.nextCode := s.eng.nextCode + 1
        tabs.enc := Memory.write s.tabs.enc (s.eng.cur.toNat * 256 + c.toNat) (s.eng.nextCode.setWidth 16) }) ∧
    (s.eng.curValid = true → encLookup s.eng.cur c s = none → s.eng.aMc.toNat < s.eng.nextCode.toNat →
      step s = .next v)

/-- COMPRESS.END and COMPRESS.ERROR (42_compress.md R173, R174; 41_code_stream.md R146): at End the pending match is written,
at Error it is not; then the EOF code and the flush, End, and the stop IN_END or IN_ERROR. No entry is inserted. -/
def Obligations.StepFinalisesCompress : Prop :=
  ∀ (s : State) (b : Beat) (rest : List Beat), s.canConsume → s.eng.aDir = .compress → s.env.inq = b :: rest →
    (b = .endMark ∨ b = .error) →
    let pending := decide (b = .endMark) && s.eng.curValid
    let m := if pending then writeCode s.eng.aStrat s.eng.aMc s.eng.cur s.cs else ([], s.cs)
    let e := writeCode s.eng.aStrat s.eng.aMc 256 m.2
    let f := flushFor s.eng.aStrat e.2
    step s = .next
      { s with
        env.script := s.env.script.tail
        env.inq := rest
        regs.codeCount := s.regs.codeCount + (if pending then 2 else 1)
        regs.reason := if b = .endMark then .inEnd else .inError
        regs.errInfo := 0
        cs := f.2
        eng.obuf := (m.1 ++ e.1 ++ f.1).map .byte ++ [.endMark]
        eng.phase := .drain }

/-! ### Code stream -/

/-- The Text framing (41_code_stream.md R134; 30_encoding.md R99): the decimal digits of a code, most significant first, with
no leading zero, then 0x0A; zero is "0". -/
def Obligations.TextWriterDigits : Prop :=
  ∀ (mc k : Code) (c : CodeStream),
    writeCode .text mc k c =
      ((if k = 0 then [0x30] else (Nat.digits 10 k.toNat).reverse.map (fun d => BitVec.ofNat 8 (0x30 + d))) ++
        [0x0A], c)

/-- The Text reader (41_code_stream.md R135): a digit extends the line's value, at most 65535; a newline after a digit
completes the code; everything else is a format error. -/
def Obligations.TextReaderGrammar : Prop :=
  ∀ (b : Byte) (c : CodeStream),
    (∀ d : Nat, d ≤ 9 → b.toNat = 0x30 + d → c.tval.toNat * 10 + d ≤ 65535 →
      readByte .text b c = .noCode { c with tval := BitVec.ofNat 17 (c.tval.toNat * 10 + d), tdig := true }) ∧
    (∀ d : Nat, d ≤ 9 → b.toNat = 0x30 + d → 65535 < c.tval.toNat * 10 + d → readByte .text b c = .formatError) ∧
    (b = 0x0A → c.tdig = true → readByte .text b c = .code (c.tval.setWidth 16) { c with tval := 0, tdig := false }) ∧
    (b = 0x0A → c.tdig = false → readByte .text b c = .formatError) ∧
    (b ≠ 0x0A → (b.toNat < 0x30 ∨ 0x39 < b.toNat) → readByte .text b c = .formatError)

/-- The width growth (41_code_stream.md R142; 30_encoding.md R102): after `n` bumps of a fresh ADAPTIVE session the counter is
`min(256 + n, max(mc, 256))`, the width is `max(9, bitlen(counter))`, and the next bump is at two to that width. -/
def Obligations.AdaptiveWidthGrowth : Prop :=
  ∀ (mc : Code) (n : Nat),
    let c := (bump mc)^[n] (sessionInit .adaptive mc)
    c.currentCode.toNat = min (256 + n) (max mc.toNat 256) ∧
    c.width.toNat = max 9 (bitlen (min (256 + n) (max mc.toNat 256))) ∧
    c.nextBump.toNat = 2 ^ c.width.toNat

/-- Lock-step (41_code_stream.md R150): a writer that has written `n` codes and a reader that has read `n` codes, of the same
strategy and `max_code`, have the same width, counter and next bump, whatever the codes. -/
def Obligations.WidthLockStep : Prop :=
  ∀ (st : Strategy) (mc : Code) (ks js : List Code) (bytes : List Byte) (c : CodeStream),
    readCodes st mc bytes (sessionInit st mc) = some (js, c) → js.length = ks.length →
    (writeCodes st mc ks (sessionInit st mc)).2.width = c.width ∧
    (writeCodes st mc ks (sessionInit st mc)).2.currentCode = c.currentCode ∧
    (writeCodes st mc ks (sessionInit st mc)).2.nextBump = c.nextBump

/-- The bit-packed framing (30_encoding.md R101; 41_code_stream.md R138, R140): bit `t` of code number `i` is stream bit
`o_i + t`, and the bits after the last code are zero. -/
def Obligations.PackedBitPositions : Prop :=
  ∀ (st : Strategy) (mc : Code) (ks : List Code), (st = .fixedw ∨ st = .adaptive) →
    (st = .fixedw → 256 ≤ mc.toNat) →
    (∀ (i : Nat) (k : Code) (t : Nat), ks[i]? = some k → t < codeWidth st mc i →
      streamBit (codeStreamOf st mc ks) (codeOffset st mc i + t) = k.getLsbD t) ∧
    (∀ j : Nat, codeOffset st mc ks.length ≤ j → streamBit (codeStreamOf st mc ks) j = false)

/-- Stream lengths (41_code_stream.md R151): with the EOF code as the last of `ks`, FIXED16 takes two bytes a code and the
packed strategies the bits of the codes rounded up to bytes; TEXT takes the digits and a newline a code. -/
def Obligations.StreamLengths : Prop :=
  ∀ (mc : Code) (ks : List Code),
    (codeStreamOf .text mc ks).length =
      (ks.map (fun k => max 1 (Nat.digits 10 k.toNat).length + 1)).sum ∧
    (codeStreamOf .fixed16 mc ks).length = 2 * ks.length ∧
    (256 ≤ mc.toNat → (codeStreamOf .fixedw mc ks).length = (ks.length * bitlen mc.toNat + 7) / 8) ∧
    (codeStreamOf .adaptive mc ks).length = (codeOffset .adaptive mc ks.length + 7) / 8

/-- Every strategy reads back what it wrote (41_code_stream.md R134 to R144; 20_memory.md R71): the codes of a stream, none
missing and none made of the padding, for codes that fit their widths. -/
def Obligations.CodeStreamRoundTrip : Prop :=
  ∀ (st : Strategy) (mc : Code) (ks : List Code), (st = .fixedw → 256 ≤ mc.toNat) →
    (∀ (i : Nat) (k : Code), ks[i]? = some k → k.toNat < 2 ^ codeWidth st mc i) →
    ∃ c, readCodes st mc (codeStreamOf st mc ks) (sessionInit st mc) = some (ks, c)

/-- Every code a compress operation can write next fits the width in force (41_code_stream.md R149): the pending match, the
EOF code, and the EOF code after the pending match. -/
def Obligations.WrittenCodeFitsWidth : Prop :=
  ∀ s : State, EngineInv s → SessionInv s → FitInv s → s.eng.phase = .run → s.eng.aDir = .compress →
    (s.eng.aStrat = .fixedw ∨ s.eng.aStrat = .adaptive) →
    256 < 2 ^ s.cs.width.toNat ∧
    (s.eng.curValid = true → s.eng.cur.toNat < 2 ^ s.cs.width.toNat ∧
      256 < 2 ^ (writeCode s.eng.aStrat s.eng.aMc s.eng.cur s.cs).2.width.toNat)

/-! ### Lookup engine -/

/-- The physical tables answer as the abstract maps do (44_dictionary_tables.md R206). The hash RAM with linear probe, and the
CAM, after any inserts of distinct keys that the capacity allows (R208, R212, R213, R215, R217); and no probe runs forever.
The decode RAM, after any writes that the capacity allows, at every code written, which has an entry in the RAM, whatever
the RAM and the map held before (R216). -/
def Obligations.LookupEngineMatchesMap : Prop :=
  (∀ (cfg : Config) (keys : List (Code × Byte)), cfg.legal = true → keys.Nodup →
    keys.length ≤ cfg.maxCodeCap.toNat - 256 → ∀ (p : Code) (c : Byte),
    PhysEnc.lookup cfg (PhysEnc.afterInserts cfg keys) p c = Memory.read (encAfterInserts keys) (encKey p c) ∧
    (∀ m, PhysEnc.afterInserts cfg keys = .ram m → EncRam.probe cfg m p c ≠ .endless)) ∧
  ∀ (cfg : Config) (ram : DecRam) (dec : Memory (Code × Byte)) (entries : List (Code × Byte)), cfg.legal = true →
    entries.length ≤ cfg.maxCodeCap.toNat - 256 → ∀ k : Nat, 257 ≤ k → k < 257 + entries.length →
    k - 257 < max 1 (cfg.maxCodeCap.toNat - 256) ∧
    DecRam.readCode (DecRam.afterWrites ram entries) k = Memory.read (decAfterWrites dec entries) k

/-- In every operation that meets R53, the machine's reads are those of a physical table (44_dictionary_tables.md R206): in
compress the lookups are those of an encode table built by `next_code − 257` inserts of distinct keys (R209, R217); in
decompress the entries below `next_code` are those of a decode RAM built by as many writes, whatever it held before
(R216). -/
def Obligations.MachineLookupsArePhysical : Prop :=
  ∀ s : State, s.cfg.legal = true → EngineInv s → s.eng.phase ≠ .idle →
    (s.eng.aDir = .compress → ∃ keys : List (Code × Byte), keys.Nodup ∧
      keys.length + 257 = s.eng.nextCode.toNat ∧ keys.length ≤ s.cfg.maxCodeCap.toNat - 256 ∧
      ∀ p c, encLookup p c s = PhysEnc.lookup s.cfg (PhysEnc.afterInserts s.cfg keys) p c) ∧
    (s.eng.aDir = .decompress → ∃ entries : List (Code × Byte),
      entries.length + 257 = s.eng.nextCode.toNat ∧ entries.length ≤ s.cfg.maxCodeCap.toNat - 256 ∧
      ∀ (ram : DecRam) (k : Nat), 257 ≤ k → k < s.eng.nextCode.toNat →
        Memory.read s.tabs.dec k = DecRam.readCode (DecRam.afterWrites ram entries) k)

/-! ### Invariants of every step -/

/-- The tables keep their canonical form in every step. -/
def Obligations.TablesStayCanonical : Prop :=
  ∀ s t : State, TablesCanonical s → step s = .next t → TablesCanonical t

/-- The phase, the output buffer and the report stay in agreement (20_memory.md R67; 60_exceptions.md R246, R248, R250): IDLE
has nothing to deliver, RUN holds no End, DRAIN holds exactly one End, the last beat, and a stop reason. -/
def Obligations.ReportStaysConsistent : Prop :=
  ∀ s t : State, ReportInv s → step s = .next t → ReportInv t

/-- The invariants of an operation (10_state.md R53; 10_state.md R38, R42; 42_compress.md R178; 43_decompress.md R190) are
kept by every step; among them, in decompress, `s.prev_first` is the first byte of `str(s.prev)`. -/
def Obligations.DictionaryInvariantKept : Prop :=
  ∀ s t : State, EngineInv s → step s = .next t → EngineInv t

/-- The session's ranges and widths (41_code_stream.md R148; 10_state.md R45 to R47) are kept by every step, and in an
ADAPTIVE compress the dictionary stays at most one ahead of the width counter (41_code_stream.md R149). -/
def Obligations.SessionInvariantKept : Prop :=
  ∀ s t : State, EngineInv s → step s = .next t →
    (SessionInv s → SessionInv t) ∧ (FitInv s → FitInv t)

/-- The machine right after reset meets every invariant. -/
def Obligations.ResetMeetsInvariants : Prop := Inv State.reset

/-- From every state that meets the invariants a step answers a next state, unless its pending access is one the model
refuses by name: no string walk and no table access ever stops the machine (44_dictionary_tables.md R218;
93_implementation_defined.md S1). An access outside the 64-byte window (20_memory.md R60), and a write with no byte
strobe, are refused (the model's choice, assumption 8). -/
def Obligations.NoStepStops : Prop :=
  ∀ s : State, Inv s →
    ((∀ turn, s.env.script.head? = some turn → turn.admissible = true) → ∃ t, step s = .next t) ∧
    (∀ off rest, s.env.script = .regRead off :: rest → 64 ≤ off → step s = .refused (.outsideWindow off)) ∧
    (∀ off strobes d rest, s.env.script = .regWrite off strobes d :: rest → 64 ≤ off →
      step s = .refused (.outsideWindow off)) ∧
    (∀ off d rest, s.env.script = .regWrite off 0 d :: rest → off < 64 → step s = .refused (.noByteStrobe off))

/-! ### Whole-machine rules -/

/-- The only phase transitions (10_state.md R21): IDLE to RUN by a START; RUN to DRAIN by an engine step; DRAIN to IDLE by the
delivery of End; RUN or DRAIN to IDLE by ABORT; any phase to IDLE by reset. -/
def Obligations.PhaseTransitions : Prop :=
  ∀ s t : State, ReportInv s → step s = .next t → t.eng.phase ≠ s.eng.phase →
    (s.eng.phase = .idle ∧ t.eng.phase = .run ∧ ∃ off strobes rest d st w,
      s.env.script = .regWrite off strobes w :: rest ∧ off / 4 = 2 ∧ decodeCmd w = Instr.start d st) ∨
    (s.eng.phase = .run ∧ t.eng.phase = .drain ∧ s.engineNext = true) ∨
    (s.eng.phase = .drain ∧ t.eng.phase = .idle ∧ s.engineNext = true ∧ s.eng.obuf = [.endMark] ∧
      t.env.delivered = s.env.delivered ++ [.endMark]) ∨
    (s.eng.phase ≠ .idle ∧ t.eng.phase = .idle ∧ ∃ off strobes rest,
      s.env.script = .regWrite off strobes 0x00000002 :: rest ∧ off / 4 = 2) ∨
    (t.eng.phase = .idle ∧ ∃ level rest, s.env.script = .rst level :: rest)

/-- DONE is set in three places only (20_memory.md R73): by the delivery of End, by ABORT while busy, and by a START refused
with CFG_ERROR. -/
def Obligations.DoneSetInThreePlaces : Prop :=
  ∀ s t : State, step s = .next t → s.regs.done = false → t.regs.done = true →
    (s.engineNext = true ∧ s.env.outReady = true ∧ s.eng.obuf.head? = some .endMark ∧ t.eng.phase = .idle) ∨
    (s.eng.phase ≠ .idle ∧ t.eng.obuf = [] ∧ ∃ off strobes rest,
      s.env.script = .regWrite off strobes 0x00000002 :: rest ∧ off / 4 = 2) ∨
    (s.eng.phase = .idle ∧ t.regs.reason = .cfgError ∧ ∃ off strobes rest d st w,
      s.env.script = .regWrite off strobes w :: rest ∧ off / 4 = 2 ∧ decodeCmd w = Instr.start d st)

/-- An IRQ_STATUS bit is cleared only by a 1 written to it or by reset (10_state.md R28; 60_exceptions.md R259). -/
def Obligations.IrqClearedByHostOnly : Prop :=
  ∀ (s t : State) (i : Nat), step s = .next t → s.regs.irqStatus.getLsbD i = true →
    t.regs.irqStatus.getLsbD i = false →
    (∃ off strobes d rest, s.env.script = .regWrite off strobes d :: rest ∧ off / 4 = 4 ∧ d.getLsbD i = true) ∨
    (∃ level rest, s.env.script = .rst level :: rest)

/-- During an operation the latched configuration is constant, whatever the host writes to MAX_CODE (10_state.md R24, R38;
70_reset_and_hazards.md R277), and only ADAPTIVE changes the width and its counter (10_state.md R45). -/
def Obligations.ConfigurationLatched : Prop :=
  ∀ s t : State, step s = .next t → s.eng.phase ≠ .idle → t.eng.phase ≠ .idle →
    t.eng.aDir = s.eng.aDir ∧ t.eng.aStrat = s.eng.aStrat ∧ t.eng.aMc = s.eng.aMc ∧
    (s.eng.aStrat ≠ .adaptive → t.cs.width = s.cs.width ∧ t.cs.currentCode = s.cs.currentCode ∧
      t.cs.nextBump = s.cs.nextBump)

/-- The parameters never change, so ID and CAPS read the same at all times (10_state.md R23, R34). -/
def Obligations.ParametersConstant : Prop :=
  ∀ s t : State, step s = .next t →
    t.cfg = s.cfg ∧ readReg t 0x00 = 0x4C5A5701 ∧ readReg t 0x30 = readReg s 0x30

/-- Write-once (44_dictionary_tables.md R221; 10_state.md R41): a step of an operation either leaves the tables and `next_code`
alone, or adds the one entry of `next_code` to the table of its direction and makes `next_code` one greater; no entry is
deleted or overwritten. -/
def Obligations.EntriesWrittenOnce : Prop :=
  ∀ s t : State, step s = .next t → s.eng.phase ≠ .idle → t.eng.phase ≠ .idle →
    (t.eng.nextCode = s.eng.nextCode ∧ t.tabs.enc = s.tabs.enc ∧ t.tabs.dec = s.tabs.dec) ∨
    (t.eng.nextCode.toNat = s.eng.nextCode.toNat + 1 ∧ s.eng.nextCode.toNat ≤ s.eng.aMc.toNat ∧
      ((s.eng.aDir = .compress ∧ t.tabs.dec = s.tabs.dec ∧ ∃ p c,
          encLookup p c s = none ∧ encLookup p c t = some (s.eng.nextCode.setWidth 16) ∧
          ∀ q, q ≠ encKey p c → Memory.read t.tabs.enc q = Memory.read s.tabs.enc q) ∨
        (s.eng.aDir = .decompress ∧ t.tabs.enc = s.tabs.enc ∧
          (∃ c, Memory.read t.tabs.dec s.eng.nextCode.toNat = some (s.eng.prev, c)) ∧
          ∀ j, j ≠ s.eng.nextCode.toNat → Memory.read t.tabs.dec j = Memory.read s.tabs.dec j)))

/-- The ports (20_memory.md R64 to R68). Out of reset `in_ready` is 1 exactly in RUN with `s.obuf` empty, `out_valid` exactly
while `s.obuf` holds beats, and the beat offered is its head, with `out_kind` 0 and its byte for a byte and 1 for End. A
beat the source offers waits behind those offered before, as `in_kind` says: 0 Byte, 1 End, 2 and 3 Error; the host
withdraws the beats that wait, and drives `out_ready`, and nothing else changes (assumptions 1 and 16). An engine step takes
an input beat only with `in_ready` at 1, and takes exactly the first one; the beats delivered change only by the head of
the output buffer, when the sink accepts it. -/
def Obligations.PortsMoveOneBeat : Prop :=
  (∀ s : State, s.env.rstN = true →
    (s.inReady = true ↔ s.eng.phase = .run ∧ s.eng.obuf = []) ∧
    (s.outValid = true ↔ s.eng.obuf ≠ []) ∧ s.outBeat = s.eng.obuf.head?) ∧
  (∀ b : Byte, (OutBeat.byte b).kind = 0 ∧ (OutBeat.byte b).data = some b) ∧ OutBeat.endMark.kind = 1 ∧
  (∀ (s : State) (kind : BitVec 2) (data : Byte) (rest : List HostTurn), s.cfg.legal = true →
    s.env.script = .offer kind data :: rest →
    step s = .next { s with
      env.script := rest
      env.inq := s.env.inq ++ [if kind = 0 then .byte data else if kind = 1 then .endMark else .error] }) ∧
  (∀ (s : State) (rest : List HostTurn), s.cfg.legal = true → s.env.script = .withdraw :: rest →
    step s = .next { s with env.script := rest, env.inq := [] }) ∧
  (∀ (s : State) (level : Bool) (rest : List HostTurn), s.cfg.legal = true →
    s.env.script = .sinkReady level :: rest →
    step s = .next { s with env.script := rest, env.outReady := level }) ∧
  ∀ s t : State, step s = .next t →
    (s.engineNext = true → t.env.inq = s.env.inq ∨
      (s.inReady = true ∧ t.env.delivered = s.env.delivered ∧ ∃ b, s.env.inq = b :: t.env.inq)) ∧
    (t.env.delivered = s.env.delivered ∨
      (s.engineNext = true ∧ s.outValid = true ∧ s.env.outReady = true ∧ t.env.inq = s.env.inq ∧
        ∃ b, s.eng.obuf = b :: t.eng.obuf ∧ t.env.delivered = s.env.delivered ++ [b]))

/-- A stopped operation whose sink accepts is complete after one step for each beat left (60_exceptions.md R248, R250;
70_reset_and_hazards.md R285): every beat is delivered in order, End last, the reason and its detail hold still, and DONE
and DONE_IRQ are set. -/
def Obligations.DrainCompletes : Prop :=
  ∀ s : State, s.cfg.legal = true → ReportInv s → s.eng.phase = .drain → s.env.rstN = true →
    s.env.outReady = true → s.env.script = [] →
    ∃ t, Host.Core.run Sys2Proof.core s.eng.obuf.length s = .next t ∧
      t.eng.phase = .idle ∧ t.eng.obuf = [] ∧ t.env.delivered = s.env.delivered ++ s.eng.obuf ∧
      t.env.inq = s.env.inq ∧ t.regs.reason = s.regs.reason ∧ t.regs.errInfo = s.regs.errInfo ∧
      t.regs.done = true ∧ t.regs.err = s.regs.reason.isErr ∧ t.regs.irqStatus.getLsbD 0 = true ∧
      t.regs.codeCount = s.regs.codeCount ∧ t.regs.bytesIn = s.regs.bytesIn

/-- No state of one operation affects the next (10_state.md R51; 42_compress.md R179): two ready machines with the same
environment and the same MAX_CODE, whatever else they hold, parameters included, that both accept the same START, go on in
step: the same beats delivered and consumed, the same output pending, and the same phase, reason, error detail, counters,
NEXT_CODE and session. -/
def Obligations.OperationsIndependent : Prop :=
  ∀ (d : Dir) (st : Strategy) (s u : State) (turns : List HostTurn) (n : Nat), s.ready → u.ready →
    s.regs.maxCode = u.regs.maxCode → startLegal s.cfg st s.regs.maxCode = true →
    startLegal u.cfg st u.regs.maxCode = true → s.env = u.env →
    s.env.script = commandWrite (Instr.start d st) :: turns → turns.all HostTurn.streamOnly = true →
    ∃ t v, Host.Core.run Sys2Proof.core (n + 1) s = .next t ∧ Host.Core.run Sys2Proof.core (n + 1) u = .next v ∧
      t.env = v.env ∧ t.eng.phase = v.eng.phase ∧ t.eng.obuf = v.eng.obuf ∧ t.eng.nextCode = v.eng.nextCode ∧
      t.cs = v.cs ∧ t.regs.reason = v.regs.reason ∧ t.regs.errInfo = v.regs.errInfo ∧
      t.regs.codeCount = v.regs.codeCount ∧ t.regs.bytesIn = v.regs.bytesIn ∧ t.regs.bytesOut = v.regs.bytesOut ∧
      t.regs.done = v.regs.done ∧ t.regs.err = v.regs.err

/-- Round trip (42_compress.md R180): a compress of any bytes, in any strategy that accepts MAX_CODE, ends with IN_END; its
output bytes, read by a decompress of the same strategy and MAX_CODE on any ready machine, end with EOF_CODE and give the
bytes back. -/
def Obligations.RoundTrip : Prop :=
  ∀ (st : Strategy) (s u : State) (bytes : List Byte), s.ready → u.ready →
    s.regs.maxCode = u.regs.maxCode → startLegal s.cfg st s.regs.maxCode = true →
    startLegal u.cfg st u.regs.maxCode = true →
    s.env.outReady = true → s.env.delivered = [] → s.env.inq = sourceOf bytes →
    s.env.script = [commandWrite (Instr.start .compress st)] →
    u.env.outReady = true → u.env.delivered = [] → u.env.script = [commandWrite (Instr.start .decompress st)] →
    ∃ (stream : List Byte) (n : Nat) (t : State), Host.Core.run Sys2Proof.core n s = .next t ∧
      t.regs.done = true ∧ t.regs.err = false ∧ t.regs.reason = .inEnd ∧ t.env.delivered = sinkOf stream ∧
      (u.env.inq = stream.map .byte → ∃ (m : Nat) (v : State), Host.Core.run Sys2Proof.core m u = .next v ∧
        v.regs.done = true ∧ v.regs.err = false ∧ v.regs.reason = .eofCode ∧ v.env.delivered = sinkOf bytes)
end

