-- ==== Sys2Proof/Laws/State.lean ====
section
/-! SUPPORT. What each record update does to each part of the state: one lemma per field per update, so that no later
proof unfolds one. Parts that an update leaves alone as a whole have one lemma for the whole part. -/

namespace Sys2Proof.Machine

open Sys2Proof

/-! ### outPush -/

@[simp] theorem outPush_cfg (b : Byte) (s : State) : (outPush b s).cfg = s.cfg := rfl
@[simp] theorem outPush_regs (b : Byte) (s : State) : (outPush b s).regs = s.regs := rfl
@[simp] theorem outPush_phase (b : Byte) (s : State) : (outPush b s).eng.phase = s.eng.phase := rfl
@[simp] theorem outPush_aDir (b : Byte) (s : State) : (outPush b s).eng.aDir = s.eng.aDir := rfl
@[simp] theorem outPush_aStrat (b : Byte) (s : State) : (outPush b s).eng.aStrat = s.eng.aStrat := rfl
@[simp] theorem outPush_aMc (b : Byte) (s : State) : (outPush b s).eng.aMc = s.eng.aMc := rfl
@[simp] theorem outPush_obuf (b : Byte) (s : State) : (outPush b s).eng.obuf = s.eng.obuf ++ [.byte b] := rfl
@[simp] theorem outPush_curValid (b : Byte) (s : State) : (outPush b s).eng.curValid = s.eng.curValid := rfl
@[simp] theorem outPush_cur (b : Byte) (s : State) : (outPush b s).eng.cur = s.eng.cur := rfl
@[simp] theorem outPush_nextCode (b : Byte) (s : State) : (outPush b s).eng.nextCode = s.eng.nextCode := rfl
@[simp] theorem outPush_prevValid (b : Byte) (s : State) : (outPush b s).eng.prevValid = s.eng.prevValid := rfl
@[simp] theorem outPush_prev (b : Byte) (s : State) : (outPush b s).eng.prev = s.eng.prev := rfl
@[simp] theorem outPush_prevFirst (b : Byte) (s : State) : (outPush b s).eng.prevFirst = s.eng.prevFirst := rfl
@[simp] theorem outPush_tabs (b : Byte) (s : State) : (outPush b s).tabs = s.tabs := rfl
@[simp] theorem outPush_cs (b : Byte) (s : State) : (outPush b s).cs = s.cs := rfl
@[simp] theorem outPush_env (b : Byte) (s : State) : (outPush b s).env = s.env := rfl

/-! ### outPushAll -/

@[simp] theorem outPushAll_cfg (bs : List Byte) (s : State) : (outPushAll bs s).cfg = s.cfg := rfl
@[simp] theorem outPushAll_regs (bs : List Byte) (s : State) : (outPushAll bs s).regs = s.regs := rfl
@[simp] theorem outPushAll_phase (bs : List Byte) (s : State) : (outPushAll bs s).eng.phase = s.eng.phase := rfl
@[simp] theorem outPushAll_aDir (bs : List Byte) (s : State) : (outPushAll bs s).eng.aDir = s.eng.aDir := rfl
@[simp] theorem outPushAll_aStrat (bs : List Byte) (s : State) : (outPushAll bs s).eng.aStrat = s.eng.aStrat := rfl
@[simp] theorem outPushAll_aMc (bs : List Byte) (s : State) : (outPushAll bs s).eng.aMc = s.eng.aMc := rfl
@[simp] theorem outPushAll_obuf (bs : List Byte) (s : State) : (outPushAll bs s).eng.obuf = s.eng.obuf ++ bs.map .byte := rfl
@[simp] theorem outPushAll_curValid (bs : List Byte) (s : State) : (outPushAll bs s).eng.curValid = s.eng.curValid := rfl
@[simp] theorem outPushAll_cur (bs : List Byte) (s : State) : (outPushAll bs s).eng.cur = s.eng.cur := rfl
@[simp] theorem outPushAll_nextCode (bs : List Byte) (s : State) : (outPushAll bs s).eng.nextCode = s.eng.nextCode := rfl
@[simp] theorem outPushAll_prevValid (bs : List Byte) (s : State) : (outPushAll bs s).eng.prevValid = s.eng.prevValid := rfl
@[simp] theorem outPushAll_prev (bs : List Byte) (s : State) : (outPushAll bs s).eng.prev = s.eng.prev := rfl
@[simp] theorem outPushAll_prevFirst (bs : List Byte) (s : State) : (outPushAll bs s).eng.prevFirst = s.eng.prevFirst := rfl
@[simp] theorem outPushAll_tabs (bs : List Byte) (s : State) : (outPushAll bs s).tabs = s.tabs := rfl
@[simp] theorem outPushAll_cs (bs : List Byte) (s : State) : (outPushAll bs s).cs = s.cs := rfl
@[simp] theorem outPushAll_env (bs : List Byte) (s : State) : (outPushAll bs s).env = s.env := rfl

/-! ### outEnd -/

@[simp] theorem outEnd_cfg (s : State) : (outEnd s).cfg = s.cfg := rfl
@[simp] theorem outEnd_regs (s : State) : (outEnd s).regs = s.regs := rfl
@[simp] theorem outEnd_phase (s : State) : (outEnd s).eng.phase = s.eng.phase := rfl
@[simp] theorem outEnd_aDir (s : State) : (outEnd s).eng.aDir = s.eng.aDir := rfl
@[simp] theorem outEnd_aStrat (s : State) : (outEnd s).eng.aStrat = s.eng.aStrat := rfl
@[simp] theorem outEnd_aMc (s : State) : (outEnd s).eng.aMc = s.eng.aMc := rfl
@[simp] theorem outEnd_obuf (s : State) : (outEnd s).eng.obuf = s.eng.obuf ++ [.endMark] := rfl
@[simp] theorem outEnd_curValid (s : State) : (outEnd s).eng.curValid = s.eng.curValid := rfl
@[simp] theorem outEnd_cur (s : State) : (outEnd s).eng.cur = s.eng.cur := rfl
@[simp] theorem outEnd_nextCode (s : State) : (outEnd s).eng.nextCode = s.eng.nextCode := rfl
@[simp] theorem outEnd_prevValid (s : State) : (outEnd s).eng.prevValid = s.eng.prevValid := rfl
@[simp] theorem outEnd_prev (s : State) : (outEnd s).eng.prev = s.eng.prev := rfl
@[simp] theorem outEnd_prevFirst (s : State) : (outEnd s).eng.prevFirst = s.eng.prevFirst := rfl
@[simp] theorem outEnd_tabs (s : State) : (outEnd s).tabs = s.tabs := rfl
@[simp] theorem outEnd_cs (s : State) : (outEnd s).cs = s.cs := rfl
@[simp] theorem outEnd_env (s : State) : (outEnd s).env = s.env := rfl

/-! ### countByteIn -/

@[simp] theorem countByteIn_cfg (s : State) : (countByteIn s).cfg = s.cfg := rfl
@[simp] theorem countByteIn_maxCode (s : State) : (countByteIn s).regs.maxCode = s.regs.maxCode := rfl
@[simp] theorem countByteIn_done (s : State) : (countByteIn s).regs.done = s.regs.done := rfl
@[simp] theorem countByteIn_err (s : State) : (countByteIn s).regs.err = s.regs.err := rfl
@[simp] theorem countByteIn_reason (s : State) : (countByteIn s).regs.reason = s.regs.reason := rfl
@[simp] theorem countByteIn_dir (s : State) : (countByteIn s).regs.dir = s.regs.dir := rfl
@[simp] theorem countByteIn_strat (s : State) : (countByteIn s).regs.strat = s.regs.strat := rfl
@[simp] theorem countByteIn_irqStatus (s : State) : (countByteIn s).regs.irqStatus = s.regs.irqStatus := rfl
@[simp] theorem countByteIn_irqEn (s : State) : (countByteIn s).regs.irqEn = s.regs.irqEn := rfl
@[simp] theorem countByteIn_errInfo (s : State) : (countByteIn s).regs.errInfo = s.regs.errInfo := rfl
@[simp] theorem countByteIn_codeCount (s : State) : (countByteIn s).regs.codeCount = s.regs.codeCount := rfl
@[simp] theorem countByteIn_bytesIn (s : State) : (countByteIn s).regs.bytesIn = countUp s.regs.bytesIn := rfl
@[simp] theorem countByteIn_bytesOut (s : State) : (countByteIn s).regs.bytesOut = s.regs.bytesOut := rfl
@[simp] theorem countByteIn_eng (s : State) : (countByteIn s).eng = s.eng := rfl
@[simp] theorem countByteIn_tabs (s : State) : (countByteIn s).tabs = s.tabs := rfl
@[simp] theorem countByteIn_cs (s : State) : (countByteIn s).cs = s.cs := rfl
@[simp] theorem countByteIn_env (s : State) : (countByteIn s).env = s.env := rfl

/-! ### countCode -/

@[simp] theorem countCode_cfg (s : State) : (countCode s).cfg = s.cfg := rfl
@[simp] theorem countCode_maxCode (s : State) : (countCode s).regs.maxCode = s.regs.maxCode := rfl
@[simp] theorem countCode_done (s : State) : (countCode s).regs.done = s.regs.done := rfl
@[simp] theorem countCode_err (s : State) : (countCode s).regs.err = s.regs.err := rfl
@[simp] theorem countCode_reason (s : State) : (countCode s).regs.reason = s.regs.reason := rfl
@[simp] theorem countCode_dir (s : State) : (countCode s).regs.dir = s.regs.dir := rfl
@[simp] theorem countCode_strat (s : State) : (countCode s).regs.strat = s.regs.strat := rfl
@[simp] theorem countCode_irqStatus (s : State) : (countCode s).regs.irqStatus = s.regs.irqStatus := rfl
@[simp] theorem countCode_irqEn (s : State) : (countCode s).regs.irqEn = s.regs.irqEn := rfl
@[simp] theorem countCode_errInfo (s : State) : (countCode s).regs.errInfo = s.regs.errInfo := rfl
@[simp] theorem countCode_codeCount (s : State) : (countCode s).regs.codeCount = countUp s.regs.codeCount := rfl
@[simp] theorem countCode_bytesIn (s : State) : (countCode s).regs.bytesIn = s.regs.bytesIn := rfl
@[simp] theorem countCode_bytesOut (s : State) : (countCode s).regs.bytesOut = s.regs.bytesOut := rfl
@[simp] theorem countCode_eng (s : State) : (countCode s).eng = s.eng := rfl
@[simp] theorem countCode_tabs (s : State) : (countCode s).tabs = s.tabs := rfl
@[simp] theorem countCode_cs (s : State) : (countCode s).cs = s.cs := rfl
@[simp] theorem countCode_env (s : State) : (countCode s).env = s.env := rfl

/-! ### raiseIrq -/

@[simp] theorem raiseIrq_cfg (m : BitVec 3) (s : State) : (raiseIrq m s).cfg = s.cfg := rfl
@[simp] theorem raiseIrq_maxCode (m : BitVec 3) (s : State) : (raiseIrq m s).regs.maxCode = s.regs.maxCode := rfl
@[simp] theorem raiseIrq_done (m : BitVec 3) (s : State) : (raiseIrq m s).regs.done = s.regs.done := rfl
@[simp] theorem raiseIrq_err (m : BitVec 3) (s : State) : (raiseIrq m s).regs.err = s.regs.err := rfl
@[simp] theorem raiseIrq_reason (m : BitVec 3) (s : State) : (raiseIrq m s).regs.reason = s.regs.reason := rfl
@[simp] theorem raiseIrq_dir (m : BitVec 3) (s : State) : (raiseIrq m s).regs.dir = s.regs.dir := rfl
@[simp] theorem raiseIrq_strat (m : BitVec 3) (s : State) : (raiseIrq m s).regs.strat = s.regs.strat := rfl
@[simp] theorem raiseIrq_irqStatus (m : BitVec 3) (s : State) : (raiseIrq m s).regs.irqStatus = s.regs.irqStatus ||| m := rfl
@[simp] theorem raiseIrq_irqEn (m : BitVec 3) (s : State) : (raiseIrq m s).regs.irqEn = s.regs.irqEn := rfl
@[simp] theorem raiseIrq_errInfo (m : BitVec 3) (s : State) : (raiseIrq m s).regs.errInfo = s.regs.errInfo := rfl
@[simp] theorem raiseIrq_codeCount (m : BitVec 3) (s : State) : (raiseIrq m s).regs.codeCount = s.regs.codeCount := rfl
@[simp] theorem raiseIrq_bytesIn (m : BitVec 3) (s : State) : (raiseIrq m s).regs.bytesIn = s.regs.bytesIn := rfl
@[simp] theorem raiseIrq_bytesOut (m : BitVec 3) (s : State) : (raiseIrq m s).regs.bytesOut = s.regs.bytesOut := rfl
@[simp] theorem raiseIrq_eng (m : BitVec 3) (s : State) : (raiseIrq m s).eng = s.eng := rfl
@[simp] theorem raiseIrq_tabs (m : BitVec 3) (s : State) : (raiseIrq m s).tabs = s.tabs := rfl
@[simp] theorem raiseIrq_cs (m : BitVec 3) (s : State) : (raiseIrq m s).cs = s.cs := rfl
@[simp] theorem raiseIrq_env (m : BitVec 3) (s : State) : (raiseIrq m s).env = s.env := rfl

/-! ### rejectCommand -/

@[simp] theorem rejectCommand_cfg (s : State) : (rejectCommand s).cfg = s.cfg := rfl
@[simp] theorem rejectCommand_maxCode (s : State) : (rejectCommand s).regs.maxCode = s.regs.maxCode := rfl
@[simp] theorem rejectCommand_done (s : State) : (rejectCommand s).regs.done = s.regs.done := rfl
@[simp] theorem rejectCommand_err (s : State) : (rejectCommand s).regs.err = s.regs.err := rfl
@[simp] theorem rejectCommand_reason (s : State) : (rejectCommand s).regs.reason = s.regs.reason := rfl
@[simp] theorem rejectCommand_dir (s : State) : (rejectCommand s).regs.dir = s.regs.dir := rfl
@[simp] theorem rejectCommand_strat (s : State) : (rejectCommand s).regs.strat = s.regs.strat := rfl
@[simp] theorem rejectCommand_irqStatus (s : State) : (rejectCommand s).regs.irqStatus = s.regs.irqStatus ||| cmdIrq := rfl
@[simp] theorem rejectCommand_irqEn (s : State) : (rejectCommand s).regs.irqEn = s.regs.irqEn := rfl
@[simp] theorem rejectCommand_errInfo (s : State) : (rejectCommand s).regs.errInfo = s.regs.errInfo := rfl
@[simp] theorem rejectCommand_codeCount (s : State) : (rejectCommand s).regs.codeCount = s.regs.codeCount := rfl
@[simp] theorem rejectCommand_bytesIn (s : State) : (rejectCommand s).regs.bytesIn = s.regs.bytesIn := rfl
@[simp] theorem rejectCommand_bytesOut (s : State) : (rejectCommand s).regs.bytesOut = s.regs.bytesOut := rfl
@[simp] theorem rejectCommand_eng (s : State) : (rejectCommand s).eng = s.eng := rfl
@[simp] theorem rejectCommand_tabs (s : State) : (rejectCommand s).tabs = s.tabs := rfl
@[simp] theorem rejectCommand_cs (s : State) : (rejectCommand s).cs = s.cs := rfl
@[simp] theorem rejectCommand_env (s : State) : (rejectCommand s).env = s.env := rfl

/-! ### raiseStop -/

@[simp] theorem raiseStop_cfg (r : Reason) (info : Word) (s : State) : (raiseStop r info s).cfg = s.cfg := rfl
@[simp] theorem raiseStop_maxCode (r : Reason) (info : Word) (s : State) : (raiseStop r info s).regs.maxCode = s.regs.maxCode := rfl
@[simp] theorem raiseStop_done (r : Reason) (info : Word) (s : State) : (raiseStop r info s).regs.done = s.regs.done := rfl
@[simp] theorem raiseStop_err (r : Reason) (info : Word) (s : State) : (raiseStop r info s).regs.err = s.regs.err := rfl
@[simp] theorem raiseStop_reason (r : Reason) (info : Word) (s : State) : (raiseStop r info s).regs.reason = r := rfl
@[simp] theorem raiseStop_dir (r : Reason) (info : Word) (s : State) : (raiseStop r info s).regs.dir = s.regs.dir := rfl
@[simp] theorem raiseStop_strat (r : Reason) (info : Word) (s : State) : (raiseStop r info s).regs.strat = s.regs.strat := rfl
@[simp] theorem raiseStop_irqStatus (r : Reason) (info : Word) (s : State) : (raiseStop r info s).regs.irqStatus = s.regs.irqStatus := rfl
@[simp] theorem raiseStop_irqEn (r : Reason) (info : Word) (s : State) : (raiseStop r info s).regs.irqEn = s.regs.irqEn := rfl
@[simp] theorem raiseStop_errInfo (r : Reason) (info : Word) (s : State) : (raiseStop r info s).regs.errInfo = info := rfl
@[simp] theorem raiseStop_codeCount (r : Reason) (info : Word) (s : State) : (raiseStop r info s).regs.codeCount = s.regs.codeCount := rfl
@[simp] theorem raiseStop_bytesIn (r : Reason) (info : Word) (s : State) : (raiseStop r info s).regs.bytesIn = s.regs.bytesIn := rfl
@[simp] theorem raiseStop_bytesOut (r : Reason) (info : Word) (s : State) : (raiseStop r info s).regs.bytesOut = s.regs.bytesOut := rfl
@[simp] theorem raiseStop_phase (r : Reason) (info : Word) (s : State) : (raiseStop r info s).eng.phase = .drain := rfl
@[simp] theorem raiseStop_aDir (r : Reason) (info : Word) (s : State) : (raiseStop r info s).eng.aDir = s.eng.aDir := rfl
@[simp] theorem raiseStop_aStrat (r : Reason) (info : Word) (s : State) : (raiseStop r info s).eng.aStrat = s.eng.aStrat := rfl
@[simp] theorem raiseStop_aMc (r : Reason) (info : Word) (s : State) : (raiseStop r info s).eng.aMc = s.eng.aMc := rfl
@[simp] theorem raiseStop_obuf (r : Reason) (info : Word) (s : State) : (raiseStop r info s).eng.obuf = s.eng.obuf ++ [.endMark] := rfl
@[simp] theorem raiseStop_curValid (r : Reason) (info : Word) (s : State) : (raiseStop r info s).eng.curValid = s.eng.curValid := rfl
@[simp] theorem raiseStop_cur (r : Reason) (info : Word) (s : State) : (raiseStop r info s).eng.cur = s.eng.cur := rfl
@[simp] theorem raiseStop_nextCode (r : Reason) (info : Word) (s : State) : (raiseStop r info s).eng.nextCode = s.eng.nextCode := rfl
@[simp] theorem raiseStop_prevValid (r : Reason) (info : Word) (s : State) : (raiseStop r info s).eng.prevValid = s.eng.prevValid := rfl
@[simp] theorem raiseStop_prev (r : Reason) (info : Word) (s : State) : (raiseStop r info s).eng.prev = s.eng.prev := rfl
@[simp] theorem raiseStop_prevFirst (r : Reason) (info : Word) (s : State) : (raiseStop r info s).eng.prevFirst = s.eng.prevFirst := rfl
@[simp] theorem raiseStop_tabs (r : Reason) (info : Word) (s : State) : (raiseStop r info s).tabs = s.tabs := rfl
@[simp] theorem raiseStop_cs (r : Reason) (info : Word) (s : State) : (raiseStop r info s).cs = s.cs := rfl
@[simp] theorem raiseStop_env (r : Reason) (info : Word) (s : State) : (raiseStop r info s).env = s.env := rfl

/-! ### reportDone -/

@[simp] theorem reportDone_cfg (s : State) : (reportDone s).cfg = s.cfg := rfl
@[simp] theorem reportDone_maxCode (s : State) : (reportDone s).regs.maxCode = s.regs.maxCode := rfl
@[simp] theorem reportDone_done (s : State) : (reportDone s).regs.done = true := rfl
@[simp] theorem reportDone_err (s : State) : (reportDone s).regs.err = s.regs.reason.isErr := rfl
@[simp] theorem reportDone_reason (s : State) : (reportDone s).regs.reason = s.regs.reason := rfl
@[simp] theorem reportDone_dir (s : State) : (reportDone s).regs.dir = s.regs.dir := rfl
@[simp] theorem reportDone_strat (s : State) : (reportDone s).regs.strat = s.regs.strat := rfl
@[simp] theorem reportDone_irqStatus (s : State) : (reportDone s).regs.irqStatus = s.regs.irqStatus ||| completionIrq s.regs.reason.isErr := rfl
@[simp] theorem reportDone_irqEn (s : State) : (reportDone s).regs.irqEn = s.regs.irqEn := rfl
@[simp] theorem reportDone_errInfo (s : State) : (reportDone s).regs.errInfo = s.regs.errInfo := rfl
@[simp] theorem reportDone_codeCount (s : State) : (reportDone s).regs.codeCount = s.regs.codeCount := rfl
@[simp] theorem reportDone_bytesIn (s : State) : (reportDone s).regs.bytesIn = s.regs.bytesIn := rfl
@[simp] theorem reportDone_bytesOut (s : State) : (reportDone s).regs.bytesOut = s.regs.bytesOut := rfl
@[simp] theorem reportDone_eng (s : State) : (reportDone s).eng = s.eng := rfl
@[simp] theorem reportDone_tabs (s : State) : (reportDone s).tabs = s.tabs := rfl
@[simp] theorem reportDone_cs (s : State) : (reportDone s).cs = s.cs := rfl
@[simp] theorem reportDone_env (s : State) : (reportDone s).env = s.env := rfl

/-! ### complete -/

@[simp] theorem complete_cfg (s : State) : (complete s).cfg = s.cfg := rfl
@[simp] theorem complete_maxCode (s : State) : (complete s).regs.maxCode = s.regs.maxCode := rfl
@[simp] theorem complete_done (s : State) : (complete s).regs.done = true := rfl
@[simp] theorem complete_err (s : State) : (complete s).regs.err = s.regs.reason.isErr := rfl
@[simp] theorem complete_reason (s : State) : (complete s).regs.reason = s.regs.reason := rfl
@[simp] theorem complete_dir (s : State) : (complete s).regs.dir = s.regs.dir := rfl
@[simp] theorem complete_strat (s : State) : (complete s).regs.strat = s.regs.strat := rfl
@[simp] theorem complete_irqStatus (s : State) : (complete s).regs.irqStatus = s.regs.irqStatus ||| completionIrq s.regs.reason.isErr := rfl
@[simp] theorem complete_irqEn (s : State) : (complete s).regs.irqEn = s.regs.irqEn := rfl
@[simp] theorem complete_errInfo (s : State) : (complete s).regs.errInfo = s.regs.errInfo := rfl
@[simp] theorem complete_codeCount (s : State) : (complete s).regs.codeCount = s.regs.codeCount := rfl
@[simp] theorem complete_bytesIn (s : State) : (complete s).regs.bytesIn = s.regs.bytesIn := rfl
@[simp] theorem complete_bytesOut (s : State) : (complete s).regs.bytesOut = s.regs.bytesOut := rfl
@[simp] theorem complete_phase (s : State) : (complete s).eng.phase = .idle := rfl
@[simp] theorem complete_aDir (s : State) : (complete s).eng.aDir = s.eng.aDir := rfl
@[simp] theorem complete_aStrat (s : State) : (complete s).eng.aStrat = s.eng.aStrat := rfl
@[simp] theorem complete_aMc (s : State) : (complete s).eng.aMc = s.eng.aMc := rfl
@[simp] theorem complete_obuf (s : State) : (complete s).eng.obuf = s.eng.obuf := rfl
@[simp] theorem complete_curValid (s : State) : (complete s).eng.curValid = s.eng.curValid := rfl
@[simp] theorem complete_cur (s : State) : (complete s).eng.cur = s.eng.cur := rfl
@[simp] theorem complete_nextCode (s : State) : (complete s).eng.nextCode = s.eng.nextCode := rfl
@[simp] theorem complete_prevValid (s : State) : (complete s).eng.prevValid = s.eng.prevValid := rfl
@[simp] theorem complete_prev (s : State) : (complete s).eng.prev = s.eng.prev := rfl
@[simp] theorem complete_prevFirst (s : State) : (complete s).eng.prevFirst = s.eng.prevFirst := rfl
@[simp] theorem complete_tabs (s : State) : (complete s).tabs = s.tabs := rfl
@[simp] theorem complete_cs (s : State) : (complete s).cs = s.cs := rfl
@[simp] theorem complete_env (s : State) : (complete s).env = s.env := rfl

/-! ### encInsertNext -/

@[simp] theorem encInsertNext_cfg (p : Code) (c : Byte) (s : State) : (encInsertNext p c s).cfg = s.cfg := rfl
@[simp] theorem encInsertNext_regs (p : Code) (c : Byte) (s : State) : (encInsertNext p c s).regs = s.regs := rfl
@[simp] theorem encInsertNext_phase (p : Code) (c : Byte) (s : State) : (encInsertNext p c s).eng.phase = s.eng.phase := rfl
@[simp] theorem encInsertNext_aDir (p : Code) (c : Byte) (s : State) : (encInsertNext p c s).eng.aDir = s.eng.aDir := rfl
@[simp] theorem encInsertNext_aStrat (p : Code) (c : Byte) (s : State) : (encInsertNext p c s).eng.aStrat = s.eng.aStrat := rfl
@[simp] theorem encInsertNext_aMc (p : Code) (c : Byte) (s : State) : (encInsertNext p c s).eng.aMc = s.eng.aMc := rfl
@[simp] theorem encInsertNext_obuf (p : Code) (c : Byte) (s : State) : (encInsertNext p c s).eng.obuf = s.eng.obuf := rfl
@[simp] theorem encInsertNext_curValid (p : Code) (c : Byte) (s : State) : (encInsertNext p c s).eng.curValid = s.eng.curValid := rfl
@[simp] theorem encInsertNext_cur (p : Code) (c : Byte) (s : State) : (encInsertNext p c s).eng.cur = s.eng.cur := rfl
@[simp] theorem encInsertNext_nextCode (p : Code) (c : Byte) (s : State) : (encInsertNext p c s).eng.nextCode = BitVec.ofNat 17 (s.eng.nextCode.toNat + 1) := rfl
@[simp] theorem encInsertNext_prevValid (p : Code) (c : Byte) (s : State) : (encInsertNext p c s).eng.prevValid = s.eng.prevValid := rfl
@[simp] theorem encInsertNext_prev (p : Code) (c : Byte) (s : State) : (encInsertNext p c s).eng.prev = s.eng.prev := rfl
@[simp] theorem encInsertNext_prevFirst (p : Code) (c : Byte) (s : State) : (encInsertNext p c s).eng.prevFirst = s.eng.prevFirst := rfl
@[simp] theorem encInsertNext_enc (p : Code) (c : Byte) (s : State) : (encInsertNext p c s).tabs.enc = Memory.write s.tabs.enc (encKey p c) (BitVec.ofNat 16 s.eng.nextCode.toNat) := rfl
@[simp] theorem encInsertNext_dec (p : Code) (c : Byte) (s : State) : (encInsertNext p c s).tabs.dec = s.tabs.dec := rfl
@[simp] theorem encInsertNext_stack (p : Code) (c : Byte) (s : State) : (encInsertNext p c s).tabs.stack = s.tabs.stack := rfl
@[simp] theorem encInsertNext_cs (p : Code) (c : Byte) (s : State) : (encInsertNext p c s).cs = s.cs := rfl
@[simp] theorem encInsertNext_env (p : Code) (c : Byte) (s : State) : (encInsertNext p c s).env = s.env := rfl

/-! ### decWriteNext -/

@[simp] theorem decWriteNext_cfg (p : Code) (c : Byte) (s : State) : (decWriteNext p c s).cfg = s.cfg := rfl
@[simp] theorem decWriteNext_regs (p : Code) (c : Byte) (s : State) : (decWriteNext p c s).regs = s.regs := rfl
@[simp] theorem decWriteNext_phase (p : Code) (c : Byte) (s : State) : (decWriteNext p c s).eng.phase = s.eng.phase := rfl
@[simp] theorem decWriteNext_aDir (p : Code) (c : Byte) (s : State) : (decWriteNext p c s).eng.aDir = s.eng.aDir := rfl
@[simp] theorem decWriteNext_aStrat (p : Code) (c : Byte) (s : State) : (decWriteNext p c s).eng.aStrat = s.eng.aStrat := rfl
@[simp] theorem decWriteNext_aMc (p : Code) (c : Byte) (s : State) : (decWriteNext p c s).eng.aMc = s.eng.aMc := rfl
@[simp] theorem decWriteNext_obuf (p : Code) (c : Byte) (s : State) : (decWriteNext p c s).eng.obuf = s.eng.obuf := rfl
@[simp] theorem decWriteNext_curValid (p : Code) (c : Byte) (s : State) : (decWriteNext p c s).eng.curValid = s.eng.curValid := rfl
@[simp] theorem decWriteNext_cur (p : Code) (c : Byte) (s : State) : (decWriteNext p c s).eng.cur = s.eng.cur := rfl
@[simp] theorem decWriteNext_nextCode (p : Code) (c : Byte) (s : State) : (decWriteNext p c s).eng.nextCode = BitVec.ofNat 17 (s.eng.nextCode.toNat + 1) := rfl
@[simp] theorem decWriteNext_prevValid (p : Code) (c : Byte) (s : State) : (decWriteNext p c s).eng.prevValid = s.eng.prevValid := rfl
@[simp] theorem decWriteNext_prev (p : Code) (c : Byte) (s : State) : (decWriteNext p c s).eng.prev = s.eng.prev := rfl
@[simp] theorem decWriteNext_prevFirst (p : Code) (c : Byte) (s : State) : (decWriteNext p c s).eng.prevFirst = s.eng.prevFirst := rfl
@[simp] theorem decWriteNext_enc (p : Code) (c : Byte) (s : State) : (decWriteNext p c s).tabs.enc = s.tabs.enc := rfl
@[simp] theorem decWriteNext_dec (p : Code) (c : Byte) (s : State) : (decWriteNext p c s).tabs.dec = Memory.write s.tabs.dec s.eng.nextCode.toNat (p, c) := rfl
@[simp] theorem decWriteNext_stack (p : Code) (c : Byte) (s : State) : (decWriteNext p c s).tabs.stack = s.tabs.stack := rfl
@[simp] theorem decWriteNext_cs (p : Code) (c : Byte) (s : State) : (decWriteNext p c s).cs = s.cs := rfl
@[simp] theorem decWriteNext_env (p : Code) (c : Byte) (s : State) : (decWriteNext p c s).env = s.env := rfl

/-! ### csWrite -/

@[simp] theorem csWrite_cfg (k : Code) (s : State) : (csWrite k s).cfg = s.cfg := rfl
@[simp] theorem csWrite_maxCode (k : Code) (s : State) : (csWrite k s).regs.maxCode = s.regs.maxCode := rfl
@[simp] theorem csWrite_done (k : Code) (s : State) : (csWrite k s).regs.done = s.regs.done := rfl
@[simp] theorem csWrite_err (k : Code) (s : State) : (csWrite k s).regs.err = s.regs.err := rfl
@[simp] theorem csWrite_reason (k : Code) (s : State) : (csWrite k s).regs.reason = s.regs.reason := rfl
@[simp] theorem csWrite_dir (k : Code) (s : State) : (csWrite k s).regs.dir = s.regs.dir := rfl
@[simp] theorem csWrite_strat (k : Code) (s : State) : (csWrite k s).regs.strat = s.regs.strat := rfl
@[simp] theorem csWrite_irqStatus (k : Code) (s : State) : (csWrite k s).regs.irqStatus = s.regs.irqStatus := rfl
@[simp] theorem csWrite_irqEn (k : Code) (s : State) : (csWrite k s).regs.irqEn = s.regs.irqEn := rfl
@[simp] theorem csWrite_errInfo (k : Code) (s : State) : (csWrite k s).regs.errInfo = s.regs.errInfo := rfl
@[simp] theorem csWrite_codeCount (k : Code) (s : State) : (csWrite k s).regs.codeCount = countUp s.regs.codeCount := rfl
@[simp] theorem csWrite_bytesIn (k : Code) (s : State) : (csWrite k s).regs.bytesIn = s.regs.bytesIn := rfl
@[simp] theorem csWrite_bytesOut (k : Code) (s : State) : (csWrite k s).regs.bytesOut = s.regs.bytesOut := rfl
@[simp] theorem csWrite_phase (k : Code) (s : State) : (csWrite k s).eng.phase = s.eng.phase := rfl
@[simp] theorem csWrite_aDir (k : Code) (s : State) : (csWrite k s).eng.aDir = s.eng.aDir := rfl
@[simp] theorem csWrite_aStrat (k : Code) (s : State) : (csWrite k s).eng.aStrat = s.eng.aStrat := rfl
@[simp] theorem csWrite_aMc (k : Code) (s : State) : (csWrite k s).eng.aMc = s.eng.aMc := rfl
@[simp] theorem csWrite_obuf (k : Code) (s : State) : (csWrite k s).eng.obuf = s.eng.obuf ++ (writeCode s.eng.aStrat s.eng.aMc k s.cs).1.map .byte := rfl
@[simp] theorem csWrite_curValid (k : Code) (s : State) : (csWrite k s).eng.curValid = s.eng.curValid := rfl
@[simp] theorem csWrite_cur (k : Code) (s : State) : (csWrite k s).eng.cur = s.eng.cur := rfl
@[simp] theorem csWrite_nextCode (k : Code) (s : State) : (csWrite k s).eng.nextCode = s.eng.nextCode := rfl
@[simp] theorem csWrite_prevValid (k : Code) (s : State) : (csWrite k s).eng.prevValid = s.eng.prevValid := rfl
@[simp] theorem csWrite_prev (k : Code) (s : State) : (csWrite k s).eng.prev = s.eng.prev := rfl
@[simp] theorem csWrite_prevFirst (k : Code) (s : State) : (csWrite k s).eng.prevFirst = s.eng.prevFirst := rfl
@[simp] theorem csWrite_tabs (k : Code) (s : State) : (csWrite k s).tabs = s.tabs := rfl
@[simp] theorem csWrite_cs (k : Code) (s : State) : (csWrite k s).cs = (writeCode s.eng.aStrat s.eng.aMc k s.cs).2 := rfl
@[simp] theorem csWrite_env (k : Code) (s : State) : (csWrite k s).env = s.env := rfl

/-! ### csFlush -/

@[simp] theorem csFlush_cfg (s : State) : (csFlush s).cfg = s.cfg := rfl
@[simp] theorem csFlush_regs (s : State) : (csFlush s).regs = s.regs := rfl
@[simp] theorem csFlush_phase (s : State) : (csFlush s).eng.phase = s.eng.phase := rfl
@[simp] theorem csFlush_aDir (s : State) : (csFlush s).eng.aDir = s.eng.aDir := rfl
@[simp] theorem csFlush_aStrat (s : State) : (csFlush s).eng.aStrat = s.eng.aStrat := rfl
@[simp] theorem csFlush_aMc (s : State) : (csFlush s).eng.aMc = s.eng.aMc := rfl
@[simp] theorem csFlush_obuf (s : State) : (csFlush s).eng.obuf = s.eng.obuf ++ (flushFor s.eng.aStrat s.cs).1.map .byte := rfl
@[simp] theorem csFlush_curValid (s : State) : (csFlush s).eng.curValid = s.eng.curValid := rfl
@[simp] theorem csFlush_cur (s : State) : (csFlush s).eng.cur = s.eng.cur := rfl
@[simp] theorem csFlush_nextCode (s : State) : (csFlush s).eng.nextCode = s.eng.nextCode := rfl
@[simp] theorem csFlush_prevValid (s : State) : (csFlush s).eng.prevValid = s.eng.prevValid := rfl
@[simp] theorem csFlush_prev (s : State) : (csFlush s).eng.prev = s.eng.prev := rfl
@[simp] theorem csFlush_prevFirst (s : State) : (csFlush s).eng.prevFirst = s.eng.prevFirst := rfl
@[simp] theorem csFlush_tabs (s : State) : (csFlush s).tabs = s.tabs := rfl
@[simp] theorem csFlush_cs (s : State) : (csFlush s).cs = (flushFor s.eng.aStrat s.cs).2 := rfl
@[simp] theorem csFlush_env (s : State) : (csFlush s).env = s.env := rfl

/-! ### stackPopped -/

@[simp] theorem stackPopped_cfg (s : State) : (stackPopped s).cfg = s.cfg := rfl
@[simp] theorem stackPopped_regs (s : State) : (stackPopped s).regs = s.regs := rfl
@[simp] theorem stackPopped_eng (s : State) : (stackPopped s).eng = s.eng := rfl
@[simp] theorem stackPopped_enc (s : State) : (stackPopped s).tabs.enc = s.tabs.enc := rfl
@[simp] theorem stackPopped_dec (s : State) : (stackPopped s).tabs.dec = s.tabs.dec := rfl
@[simp] theorem stackPopped_stack (s : State) : (stackPopped s).tabs.stack = [] := rfl
@[simp] theorem stackPopped_cs (s : State) : (stackPopped s).cs = s.cs := rfl
@[simp] theorem stackPopped_env (s : State) : (stackPopped s).env = s.env := rfl

/-! ### setPrevious -/

@[simp] theorem setPrevious_cfg (k : Code) (b : Byte) (s : State) : (setPrevious k b s).cfg = s.cfg := rfl
@[simp] theorem setPrevious_regs (k : Code) (b : Byte) (s : State) : (setPrevious k b s).regs = s.regs := rfl
@[simp] theorem setPrevious_phase (k : Code) (b : Byte) (s : State) : (setPrevious k b s).eng.phase = s.eng.phase := rfl
@[simp] theorem setPrevious_aDir (k : Code) (b : Byte) (s : State) : (setPrevious k b s).eng.aDir = s.eng.aDir := rfl
@[simp] theorem setPrevious_aStrat (k : Code) (b : Byte) (s : State) : (setPrevious k b s).eng.aStrat = s.eng.aStrat := rfl
@[simp] theorem setPrevious_aMc (k : Code) (b : Byte) (s : State) : (setPrevious k b s).eng.aMc = s.eng.aMc := rfl
@[simp] theorem setPrevious_obuf (k : Code) (b : Byte) (s : State) : (setPrevious k b s).eng.obuf = s.eng.obuf := rfl
@[simp] theorem setPrevious_curValid (k : Code) (b : Byte) (s : State) : (setPrevious k b s).eng.curValid = s.eng.curValid := rfl
@[simp] theorem setPrevious_cur (k : Code) (b : Byte) (s : State) : (setPrevious k b s).eng.cur = s.eng.cur := rfl
@[simp] theorem setPrevious_nextCode (k : Code) (b : Byte) (s : State) : (setPrevious k b s).eng.nextCode = s.eng.nextCode := rfl
@[simp] theorem setPrevious_prevValid (k : Code) (b : Byte) (s : State) : (setPrevious k b s).eng.prevValid = true := rfl
@[simp] theorem setPrevious_prev (k : Code) (b : Byte) (s : State) : (setPrevious k b s).eng.prev = k := rfl
@[simp] theorem setPrevious_prevFirst (k : Code) (b : Byte) (s : State) : (setPrevious k b s).eng.prevFirst = b := rfl
@[simp] theorem setPrevious_tabs (k : Code) (b : Byte) (s : State) : (setPrevious k b s).tabs = s.tabs := rfl
@[simp] theorem setPrevious_cs (k : Code) (b : Byte) (s : State) : (setPrevious k b s).cs = s.cs := rfl
@[simp] theorem setPrevious_env (k : Code) (b : Byte) (s : State) : (setPrevious k b s).env = s.env := rfl

/-! ### csInit -/

@[simp] theorem csInit_cfg (s : State) : (csInit s).cfg = s.cfg := rfl
@[simp] theorem csInit_regs (s : State) : (csInit s).regs = s.regs := rfl
@[simp] theorem csInit_eng (s : State) : (csInit s).eng = s.eng := rfl
@[simp] theorem csInit_tabs (s : State) : (csInit s).tabs = s.tabs := rfl
@[simp] theorem csInit_cs (s : State) : (csInit s).cs = sessionInit s.eng.aStrat s.eng.aMc := rfl
@[simp] theorem csInit_env (s : State) : (csInit s).env = s.env := rfl

/-! ### startOperation -/

@[simp] theorem startOperation_cfg (d : Dir) (st : Strategy) (m : Word) (s : State) : (startOperation d st m s).cfg = s.cfg := rfl
@[simp] theorem startOperation_regs (d : Dir) (st : Strategy) (m : Word) (s : State) : (startOperation d st m s).regs = s.regs := rfl
@[simp] theorem startOperation_phase (d : Dir) (st : Strategy) (m : Word) (s : State) : (startOperation d st m s).eng.phase = .run := rfl
@[simp] theorem startOperation_aDir (d : Dir) (st : Strategy) (m : Word) (s : State) : (startOperation d st m s).eng.aDir = d := rfl
@[simp] theorem startOperation_aStrat (d : Dir) (st : Strategy) (m : Word) (s : State) : (startOperation d st m s).eng.aStrat = st := rfl
@[simp] theorem startOperation_aMc (d : Dir) (st : Strategy) (m : Word) (s : State) : (startOperation d st m s).eng.aMc = BitVec.ofNat 16 m.toNat := rfl
@[simp] theorem startOperation_obuf (d : Dir) (st : Strategy) (m : Word) (s : State) : (startOperation d st m s).eng.obuf = s.eng.obuf := rfl
@[simp] theorem startOperation_curValid (d : Dir) (st : Strategy) (m : Word) (s : State) : (startOperation d st m s).eng.curValid = false := rfl
@[simp] theorem startOperation_cur (d : Dir) (st : Strategy) (m : Word) (s : State) : (startOperation d st m s).eng.cur = s.eng.cur := rfl
@[simp] theorem startOperation_nextCode (d : Dir) (st : Strategy) (m : Word) (s : State) : (startOperation d st m s).eng.nextCode = s.eng.nextCode := rfl
@[simp] theorem startOperation_prevValid (d : Dir) (st : Strategy) (m : Word) (s : State) : (startOperation d st m s).eng.prevValid = false := rfl
@[simp] theorem startOperation_prev (d : Dir) (st : Strategy) (m : Word) (s : State) : (startOperation d st m s).eng.prev = s.eng.prev := rfl
@[simp] theorem startOperation_prevFirst (d : Dir) (st : Strategy) (m : Word) (s : State) : (startOperation d st m s).eng.prevFirst = s.eng.prevFirst := rfl
@[simp] theorem startOperation_enc (d : Dir) (st : Strategy) (m : Word) (s : State) : (startOperation d st m s).tabs.enc = [] := rfl
@[simp] theorem startOperation_dec (d : Dir) (st : Strategy) (m : Word) (s : State) : (startOperation d st m s).tabs.dec = s.tabs.dec := rfl
@[simp] theorem startOperation_stack (d : Dir) (st : Strategy) (m : Word) (s : State) : (startOperation d st m s).tabs.stack = s.tabs.stack := rfl
@[simp] theorem startOperation_cs (d : Dir) (st : Strategy) (m : Word) (s : State) : (startOperation d st m s).cs = sessionInit st (BitVec.ofNat 16 m.toNat) := rfl
@[simp] theorem startOperation_env (d : Dir) (st : Strategy) (m : Word) (s : State) : (startOperation d st m s).env = s.env := rfl

/-! ### codeCompleted -/

@[simp] theorem codeCompleted_cfg (c : CodeStream) (s : State) : (codeCompleted c s).cfg = s.cfg := rfl
@[simp] theorem codeCompleted_maxCode (c : CodeStream) (s : State) : (codeCompleted c s).regs.maxCode = s.regs.maxCode := rfl
@[simp] theorem codeCompleted_done (c : CodeStream) (s : State) : (codeCompleted c s).regs.done = s.regs.done := rfl
@[simp] theorem codeCompleted_err (c : CodeStream) (s : State) : (codeCompleted c s).regs.err = s.regs.err := rfl
@[simp] theorem codeCompleted_reason (c : CodeStream) (s : State) : (codeCompleted c s).regs.reason = s.regs.reason := rfl
@[simp] theorem codeCompleted_dir (c : CodeStream) (s : State) : (codeCompleted c s).regs.dir = s.regs.dir := rfl
@[simp] theorem codeCompleted_strat (c : CodeStream) (s : State) : (codeCompleted c s).regs.strat = s.regs.strat := rfl
@[simp] theorem codeCompleted_irqStatus (c : CodeStream) (s : State) : (codeCompleted c s).regs.irqStatus = s.regs.irqStatus := rfl
@[simp] theorem codeCompleted_irqEn (c : CodeStream) (s : State) : (codeCompleted c s).regs.irqEn = s.regs.irqEn := rfl
@[simp] theorem codeCompleted_errInfo (c : CodeStream) (s : State) : (codeCompleted c s).regs.errInfo = s.regs.errInfo := rfl
@[simp] theorem codeCompleted_codeCount (c : CodeStream) (s : State) : (codeCompleted c s).regs.codeCount = countUp s.regs.codeCount := rfl
@[simp] theorem codeCompleted_bytesIn (c : CodeStream) (s : State) : (codeCompleted c s).regs.bytesIn = s.regs.bytesIn := rfl
@[simp] theorem codeCompleted_bytesOut (c : CodeStream) (s : State) : (codeCompleted c s).regs.bytesOut = s.regs.bytesOut := rfl
@[simp] theorem codeCompleted_eng (c : CodeStream) (s : State) : (codeCompleted c s).eng = s.eng := rfl
@[simp] theorem codeCompleted_tabs (c : CodeStream) (s : State) : (codeCompleted c s).tabs = s.tabs := rfl
@[simp] theorem codeCompleted_cs (c : CodeStream) (s : State) : (codeCompleted c s).cs = bumpFor s.eng.aStrat s.eng.aMc c := rfl
@[simp] theorem codeCompleted_env (c : CodeStream) (s : State) : (codeCompleted c s).env = s.env := rfl

/-! ### resetBlock -/

@[simp] theorem resetBlock_cfg (s : State) : (resetBlock s).cfg = s.cfg := rfl
@[simp] theorem resetBlock_regs (s : State) : (resetBlock s).regs = Regs.reset := rfl
@[simp] theorem resetBlock_phase (s : State) : (resetBlock s).eng.phase = .idle := rfl
@[simp] theorem resetBlock_aDir (s : State) : (resetBlock s).eng.aDir = (Config.freeLatches s).aDir := rfl
@[simp] theorem resetBlock_aStrat (s : State) : (resetBlock s).eng.aStrat = (Config.freeLatches s).aStrat := rfl
@[simp] theorem resetBlock_aMc (s : State) : (resetBlock s).eng.aMc = (Config.freeLatches s).aMc := rfl
@[simp] theorem resetBlock_obuf (s : State) : (resetBlock s).eng.obuf = [] := rfl
@[simp] theorem resetBlock_curValid (s : State) : (resetBlock s).eng.curValid = false := rfl
@[simp] theorem resetBlock_cur (s : State) : (resetBlock s).eng.cur = (Config.freeLatches s).cur := rfl
@[simp] theorem resetBlock_nextCode (s : State) : (resetBlock s).eng.nextCode = 257 := rfl
@[simp] theorem resetBlock_prevValid (s : State) : (resetBlock s).eng.prevValid = false := rfl
@[simp] theorem resetBlock_prev (s : State) : (resetBlock s).eng.prev = (Config.freeLatches s).prev := rfl
@[simp] theorem resetBlock_prevFirst (s : State) : (resetBlock s).eng.prevFirst = (Config.freeLatches s).prevFirst := rfl
@[simp] theorem resetBlock_enc (s : State) : (resetBlock s).tabs.enc = Memory.ofCells (Config.freeTables s).enc := rfl
@[simp] theorem resetBlock_dec (s : State) : (resetBlock s).tabs.dec = Memory.ofCells (Config.freeTables s).dec := rfl
@[simp] theorem resetBlock_stack (s : State) : (resetBlock s).tabs.stack = (Config.freeTables s).stack := rfl
@[simp] theorem resetBlock_cs (s : State) : (resetBlock s).cs = CodeStream.reset := rfl
@[simp] theorem resetBlock_env (s : State) : (resetBlock s).env = s.env := rfl

/-! ### scrambleSession -/

@[simp] theorem scrambleSession_cfg (s : State) : (scrambleSession s).cfg = s.cfg := rfl
@[simp] theorem scrambleSession_regs (s : State) : (scrambleSession s).regs = s.regs := rfl
@[simp] theorem scrambleSession_eng (s : State) : (scrambleSession s).eng = s.eng := rfl
@[simp] theorem scrambleSession_enc (s : State) : (scrambleSession s).tabs.enc = Memory.ofCells (Config.freeTables s).enc := rfl
@[simp] theorem scrambleSession_dec (s : State) : (scrambleSession s).tabs.dec = Memory.ofCells (Config.freeTables s).dec := rfl
@[simp] theorem scrambleSession_stack (s : State) : (scrambleSession s).tabs.stack = s.tabs.stack := rfl
@[simp] theorem scrambleSession_width (s : State) : (scrambleSession s).cs.width = s.cs.width := rfl
@[simp] theorem scrambleSession_currentCode (s : State) : (scrambleSession s).cs.currentCode = (Config.freeSession s).currentCode := rfl
@[simp] theorem scrambleSession_nextBump (s : State) : (scrambleSession s).cs.nextBump = (Config.freeSession s).nextBump := rfl
@[simp] theorem scrambleSession_acc (s : State) : (scrambleSession s).cs.acc = (Config.freeSession s).acc := rfl
@[simp] theorem scrambleSession_nbits (s : State) : (scrambleSession s).cs.nbits = (Config.freeSession s).nbits := rfl
@[simp] theorem scrambleSession_tval (s : State) : (scrambleSession s).cs.tval = (Config.freeSession s).tval := rfl
@[simp] theorem scrambleSession_tdig (s : State) : (scrambleSession s).cs.tdig = (Config.freeSession s).tdig := rfl
@[simp] theorem scrambleSession_env (s : State) : (scrambleSession s).env = s.env := rfl

/-! ### startReport -/

@[simp] theorem startReport_cfg (d : Dir) (st : Strategy) (s : State) : (startReport d st s).cfg = s.cfg := rfl
@[simp] theorem startReport_maxCode (d : Dir) (st : Strategy) (s : State) : (startReport d st s).regs.maxCode = s.regs.maxCode := rfl
@[simp] theorem startReport_done (d : Dir) (st : Strategy) (s : State) : (startReport d st s).regs.done = false := rfl
@[simp] theorem startReport_err (d : Dir) (st : Strategy) (s : State) : (startReport d st s).regs.err = false := rfl
@[simp] theorem startReport_reason (d : Dir) (st : Strategy) (s : State) : (startReport d st s).regs.reason = .none := rfl
@[simp] theorem startReport_dir (d : Dir) (st : Strategy) (s : State) : (startReport d st s).regs.dir = d := rfl
@[simp] theorem startReport_strat (d : Dir) (st : Strategy) (s : State) : (startReport d st s).regs.strat = st := rfl
@[simp] theorem startReport_irqStatus (d : Dir) (st : Strategy) (s : State) : (startReport d st s).regs.irqStatus = s.regs.irqStatus := rfl
@[simp] theorem startReport_irqEn (d : Dir) (st : Strategy) (s : State) : (startReport d st s).regs.irqEn = s.regs.irqEn := rfl
@[simp] theorem startReport_errInfo (d : Dir) (st : Strategy) (s : State) : (startReport d st s).regs.errInfo = 0 := rfl
@[simp] theorem startReport_codeCount (d : Dir) (st : Strategy) (s : State) : (startReport d st s).regs.codeCount = 0 := rfl
@[simp] theorem startReport_bytesIn (d : Dir) (st : Strategy) (s : State) : (startReport d st s).regs.bytesIn = 0 := rfl
@[simp] theorem startReport_bytesOut (d : Dir) (st : Strategy) (s : State) : (startReport d st s).regs.bytesOut = 0 := rfl
@[simp] theorem startReport_phase (d : Dir) (st : Strategy) (s : State) : (startReport d st s).eng.phase = s.eng.phase := rfl
@[simp] theorem startReport_aDir (d : Dir) (st : Strategy) (s : State) : (startReport d st s).eng.aDir = s.eng.aDir := rfl
@[simp] theorem startReport_aStrat (d : Dir) (st : Strategy) (s : State) : (startReport d st s).eng.aStrat = s.eng.aStrat := rfl
@[simp] theorem startReport_aMc (d : Dir) (st : Strategy) (s : State) : (startReport d st s).eng.aMc = s.eng.aMc := rfl
@[simp] theorem startReport_obuf (d : Dir) (st : Strategy) (s : State) : (startReport d st s).eng.obuf = s.eng.obuf := rfl
@[simp] theorem startReport_curValid (d : Dir) (st : Strategy) (s : State) : (startReport d st s).eng.curValid = s.eng.curValid := rfl
@[simp] theorem startReport_cur (d : Dir) (st : Strategy) (s : State) : (startReport d st s).eng.cur = s.eng.cur := rfl
@[simp] theorem startReport_nextCode (d : Dir) (st : Strategy) (s : State) : (startReport d st s).eng.nextCode = 257 := rfl
@[simp] theorem startReport_prevValid (d : Dir) (st : Strategy) (s : State) : (startReport d st s).eng.prevValid = s.eng.prevValid := rfl
@[simp] theorem startReport_prev (d : Dir) (st : Strategy) (s : State) : (startReport d st s).eng.prev = s.eng.prev := rfl
@[simp] theorem startReport_prevFirst (d : Dir) (st : Strategy) (s : State) : (startReport d st s).eng.prevFirst = s.eng.prevFirst := rfl
@[simp] theorem startReport_tabs (d : Dir) (st : Strategy) (s : State) : (startReport d st s).tabs = s.tabs := rfl
@[simp] theorem startReport_cs (d : Dir) (st : Strategy) (s : State) : (startReport d st s).cs = s.cs := rfl
@[simp] theorem startReport_env (d : Dir) (st : Strategy) (s : State) : (startReport d st s).env = s.env := rfl

/-! ### cfgError -/

@[simp] theorem cfgError_cfg (m : Word) (s : State) : (cfgError m s).cfg = s.cfg := rfl
@[simp] theorem cfgError_maxCode (m : Word) (s : State) : (cfgError m s).regs.maxCode = s.regs.maxCode := rfl
@[simp] theorem cfgError_done (m : Word) (s : State) : (cfgError m s).regs.done = true := rfl
@[simp] theorem cfgError_err (m : Word) (s : State) : (cfgError m s).regs.err = true := rfl
@[simp] theorem cfgError_reason (m : Word) (s : State) : (cfgError m s).regs.reason = .cfgError := rfl
@[simp] theorem cfgError_dir (m : Word) (s : State) : (cfgError m s).regs.dir = s.regs.dir := rfl
@[simp] theorem cfgError_strat (m : Word) (s : State) : (cfgError m s).regs.strat = s.regs.strat := rfl
@[simp] theorem cfgError_irqStatus (m : Word) (s : State) : (cfgError m s).regs.irqStatus = s.regs.irqStatus ||| completionIrq true := rfl
@[simp] theorem cfgError_irqEn (m : Word) (s : State) : (cfgError m s).regs.irqEn = s.regs.irqEn := rfl
@[simp] theorem cfgError_errInfo (m : Word) (s : State) : (cfgError m s).regs.errInfo = m := rfl
@[simp] theorem cfgError_codeCount (m : Word) (s : State) : (cfgError m s).regs.codeCount = s.regs.codeCount := rfl
@[simp] theorem cfgError_bytesIn (m : Word) (s : State) : (cfgError m s).regs.bytesIn = s.regs.bytesIn := rfl
@[simp] theorem cfgError_bytesOut (m : Word) (s : State) : (cfgError m s).regs.bytesOut = s.regs.bytesOut := rfl
@[simp] theorem cfgError_eng (m : Word) (s : State) : (cfgError m s).eng = s.eng := rfl
@[simp] theorem cfgError_tabs (m : Word) (s : State) : (cfgError m s).tabs = s.tabs := rfl
@[simp] theorem cfgError_width (m : Word) (s : State) : (cfgError m s).cs.width = 0 := rfl
@[simp] theorem cfgError_currentCode (m : Word) (s : State) : (cfgError m s).cs.currentCode = s.cs.currentCode := rfl
@[simp] theorem cfgError_nextBump (m : Word) (s : State) : (cfgError m s).cs.nextBump = s.cs.nextBump := rfl
@[simp] theorem cfgError_acc (m : Word) (s : State) : (cfgError m s).cs.acc = s.cs.acc := rfl
@[simp] theorem cfgError_nbits (m : Word) (s : State) : (cfgError m s).cs.nbits = s.cs.nbits := rfl
@[simp] theorem cfgError_tval (m : Word) (s : State) : (cfgError m s).cs.tval = s.cs.tval := rfl
@[simp] theorem cfgError_tdig (m : Word) (s : State) : (cfgError m s).cs.tdig = s.cs.tdig := rfl
@[simp] theorem cfgError_env (m : Word) (s : State) : (cfgError m s).env = s.env := rfl

/-! ### clearIdle -/

@[simp] theorem clearIdle_cfg (s : State) : (clearIdle s).cfg = s.cfg := rfl
@[simp] theorem clearIdle_maxCode (s : State) : (clearIdle s).regs.maxCode = s.regs.maxCode := rfl
@[simp] theorem clearIdle_done (s : State) : (clearIdle s).regs.done = false := rfl
@[simp] theorem clearIdle_err (s : State) : (clearIdle s).regs.err = false := rfl
@[simp] theorem clearIdle_reason (s : State) : (clearIdle s).regs.reason = .none := rfl
@[simp] theorem clearIdle_dir (s : State) : (clearIdle s).regs.dir = s.regs.dir := rfl
@[simp] theorem clearIdle_strat (s : State) : (clearIdle s).regs.strat = s.regs.strat := rfl
@[simp] theorem clearIdle_irqStatus (s : State) : (clearIdle s).regs.irqStatus = s.regs.irqStatus := rfl
@[simp] theorem clearIdle_irqEn (s : State) : (clearIdle s).regs.irqEn = s.regs.irqEn := rfl
@[simp] theorem clearIdle_errInfo (s : State) : (clearIdle s).regs.errInfo = 0 := rfl
@[simp] theorem clearIdle_codeCount (s : State) : (clearIdle s).regs.codeCount = s.regs.codeCount := rfl
@[simp] theorem clearIdle_bytesIn (s : State) : (clearIdle s).regs.bytesIn = s.regs.bytesIn := rfl
@[simp] theorem clearIdle_bytesOut (s : State) : (clearIdle s).regs.bytesOut = s.regs.bytesOut := rfl
@[simp] theorem clearIdle_eng (s : State) : (clearIdle s).eng = s.eng := rfl
@[simp] theorem clearIdle_tabs (s : State) : (clearIdle s).tabs = s.tabs := rfl
@[simp] theorem clearIdle_cs (s : State) : (clearIdle s).cs = s.cs := rfl
@[simp] theorem clearIdle_env (s : State) : (clearIdle s).env = s.env := rfl

end Sys2Proof.Machine
end

