-- ==== Sys2Proof/Laws/CodeStream.lean ====
section
/-! SUPPORT. The bit-packer, the readers and the width counter in terms of numbers (41_code_stream.md R138 to R142). -/

namespace Sys2Proof.Machine

open Sys2Proof

/-! ### bitlen -/

theorem bitlen_zero : bitlen 0 = 0 := rfl

/-- A number is below two to the power of its bit length (00_scope.md R14). -/
theorem lt_two_pow_bitlen (m : Nat) : m < 2 ^ bitlen m := by
  unfold bitlen
  split_ifs with h
  · simp [h]
  · exact Nat.lt_log2_self

/-- The bit length is the least such power (R14). -/
theorem bitlen_le_iff (m w : Nat) : bitlen m ≤ w ↔ m < 2 ^ w := by
  unfold bitlen
  split_ifs with h
  · simp [h]
  · rw [← Nat.log2_lt h]
    omega

theorem lt_bitlen_iff (m w : Nat) : w < bitlen m ↔ 2 ^ w ≤ m := by
  rw [← not_le, bitlen_le_iff, not_lt]

/-- The widths FIXEDW can have: 9 to 16 (41_code_stream.md R141). -/
theorem bitlen_code (mc : Code) (h : 256 ≤ mc.toNat) : 9 ≤ bitlen mc.toNat ∧ bitlen mc.toNat ≤ 16 := by
  constructor
  · have := (lt_bitlen_iff mc.toNat 8).mpr (by omega)
    omega
  · exact (bitlen_le_iff mc.toNat 16).mpr mc.isLt

/-! ### Joining bit fields -/

/-- Putting a field above the bits already held adds it (41_code_stream.md R138, R139). -/
theorem toNat_or_shiftLeft (acc x : BitVec 24) (n w : Nat) (ha : acc.toNat < 2 ^ n) (hx : x.toNat < 2 ^ w)
    (hn : n + w ≤ 24) : (acc ||| (x <<< n)).toNat = acc.toNat + x.toNat * 2 ^ n := by
  rw [BitVec.toNat_or, BitVec.toNat_shiftLeft, Nat.shiftLeft_eq]
  have hlt : x.toNat * 2 ^ n < 2 ^ 24 := by
    calc x.toNat * 2 ^ n < 2 ^ w * 2 ^ n := Nat.mul_lt_mul_of_pos_right hx (by positivity)
      _ = 2 ^ (n + w) := by rw [← pow_add, add_comm]
      _ ≤ 2 ^ 24 := Nat.pow_le_pow_right (by norm_num) hn
  rw [Nat.mod_eq_of_lt hlt, Nat.or_comm, Nat.mul_comm, Nat.add_comm]
  exact (Nat.two_pow_add_eq_or_of_lt ha x.toNat).symm

/-! ### The packer's loop -/

theorem leBytes_length (n v : Nat) : (leBytes n v).length = n := by
  induction n generalizing v with
  | zero => rfl
  | succ n ih => simp [leBytes, ih]

/-- The packer's loop sends the full bytes, the low one first, and keeps the rest (R138). -/
theorem packDrain_eq (fuel : Nat) (acc : BitVec 24) (n : Nat) (h : n < 8 * (fuel + 1)) :
    packDrain fuel acc n = (leBytes (n / 8) acc.toNat, acc >>> (8 * (n / 8)), n % 8) := by
  induction fuel generalizing acc n with
  | zero =>
    have h0 : n / 8 = 0 := by omega
    have h1 : n % 8 = n := by omega
    simp [packDrain, h0, h1, leBytes]
  | succ fuel ih =>
    simp only [packDrain]
    split_ifs with h8
    · rw [ih (acc >>> 8) (n - 8) (by omega)]
      have e1 : n / 8 = (n - 8) / 8 + 1 := by omega
      have e2 : n % 8 = (n - 8) % 8 := by omega
      rw [e1, e2]
      simp only [leBytes, BitVec.toNat_ushiftRight, Nat.shiftRight_eq_div_pow, ← BitVec.shiftRight_add]
      rw [show 8 + 8 * ((n - 8) / 8) = 8 * ((n - 8) / 8 + 1) by ring]
    · have h0 : n / 8 = 0 := by omega
      have h1 : n % 8 = n := by omega
      simp [h0, h1, leBytes]

/-- What a session holds while its pending bits are in order. -/
theorem packWrite_eq (k : Code) (c : CodeStream) (ha : c.acc.toNat < 2 ^ c.nbits.toNat)
    (hn : c.nbits.toNat < 8) (hw : c.width.toNat ≤ 16) :
    ∃ v, v = c.acc.toNat + (k.toNat % 2 ^ c.width.toNat) * 2 ^ c.nbits.toNat ∧
      (packWrite k c).1 = leBytes ((c.nbits.toNat + c.width.toNat) / 8) v ∧
      (packWrite k c).2.acc.toNat = v / 2 ^ (8 * ((c.nbits.toNat + c.width.toNat) / 8)) ∧
      (packWrite k c).2.nbits.toNat = (c.nbits.toNat + c.width.toNat) % 8 ∧
      (packWrite k c).2.width = c.width ∧ (packWrite k c).2.currentCode = c.currentCode ∧
      (packWrite k c).2.nextBump = c.nextBump ∧ (packWrite k c).2.tval = c.tval ∧
      (packWrite k c).2.tdig = c.tdig := by
  refine ⟨_, rfl, ?_⟩
  have hx : (BitVec.ofNat 24 (k.toNat % 2 ^ c.width.toNat)).toNat = k.toNat % 2 ^ c.width.toNat := by
    rw [BitVec.toNat_ofNat, Nat.mod_eq_of_lt]
    calc k.toNat % 2 ^ c.width.toNat ≤ k.toNat := Nat.mod_le _ _
      _ < 2 ^ 16 := k.isLt
      _ ≤ 2 ^ 24 := by norm_num
  have hxl : (BitVec.ofNat 24 (k.toNat % 2 ^ c.width.toNat)).toNat < 2 ^ c.width.toNat := by
    rw [hx]; exact Nat.mod_lt _ (by positivity)
  have hv := toNat_or_shiftLeft c.acc (BitVec.ofNat 24 (k.toNat % 2 ^ c.width.toNat)) c.nbits.toNat c.width.toNat
    ha hxl (by omega)
  rw [hx] at hv
  unfold packWrite
  dsimp only
  rw [packDrain_eq 7 _ _ (by have := c.width.isLt; omega)]
  refine ⟨by rw [hv], ?_, ?_, rfl, rfl, rfl, rfl, rfl⟩
  · simp only [BitVec.toNat_ushiftRight, hv, Nat.shiftRight_eq_div_pow]
  · simp only [BitVec.toNat_ofNat]
    omega

/-- A packed writer keeps fewer than eight bits pending, and nothing above them (10_state.md R46). -/
theorem packWrite_pending (k : Code) (c : CodeStream) (ha : c.acc.toNat < 2 ^ c.nbits.toNat)
    (hn : c.nbits.toNat < 8) (hw : c.width.toNat ≤ 16) :
    (packWrite k c).2.nbits.toNat < 8 ∧ (packWrite k c).2.acc.toNat < 2 ^ (packWrite k c).2.nbits.toNat := by
  obtain ⟨v, hv, -, hacc, hnb, -⟩ := packWrite_eq k c ha hn hw
  refine ⟨by omega, ?_⟩
  rw [hacc, hnb]
  have hvlt : v < 2 ^ (c.nbits.toNat + c.width.toNat) := by
    have h1 : k.toNat % 2 ^ c.width.toNat + 1 ≤ 2 ^ c.width.toNat := Nat.mod_lt _ (by positivity)
    calc v < 2 ^ c.nbits.toNat + (k.toNat % 2 ^ c.width.toNat) * 2 ^ c.nbits.toNat := by omega
      _ = (k.toNat % 2 ^ c.width.toNat + 1) * 2 ^ c.nbits.toNat := by ring
      _ ≤ 2 ^ c.width.toNat * 2 ^ c.nbits.toNat := Nat.mul_le_mul_right _ h1
      _ = 2 ^ (c.nbits.toNat + c.width.toNat) := by rw [← pow_add, add_comm]
  rw [Nat.div_lt_iff_lt_mul (by positivity), ← pow_add]
  have : (c.nbits.toNat + c.width.toNat) % 8 + 8 * ((c.nbits.toNat + c.width.toNat) / 8) =
      c.nbits.toNat + c.width.toNat := by omega
  rw [this]
  exact hvlt

/-! ### The packed reader -/

/-- The packed reader on one byte, in numbers (R139). -/
theorem packReadByte_acc (b : Byte) (c : CodeStream) (ha : c.acc.toNat < 2 ^ c.nbits.toNat)
    (hn : c.nbits.toNat ≤ 16) :
    (c.acc ||| (BitVec.ofNat 24 b.toNat <<< c.nbits.toNat)).toNat = c.acc.toNat + b.toNat * 2 ^ c.nbits.toNat := by
  have hb : (BitVec.ofNat 24 b.toNat).toNat = b.toNat := by
    rw [BitVec.toNat_ofNat]; have := b.isLt; omega
  have := toNat_or_shiftLeft c.acc (BitVec.ofNat 24 b.toNat) c.nbits.toNat 8 ha (by rw [hb]; exact b.isLt) (by omega)
  rw [this, hb]

/-! ### The width counter -/

theorem bump_still (mc : Code) (c : CodeStream) (h : mc.toNat ≤ c.currentCode.toNat) : bump mc c = c := by
  unfold bump
  rw [if_neg (by omega)]

@[simp] theorem bump_acc (mc : Code) (c : CodeStream) : (bump mc c).acc = c.acc := by
  unfold bump; dsimp only; split_ifs <;> rfl
@[simp] theorem bump_nbits (mc : Code) (c : CodeStream) : (bump mc c).nbits = c.nbits := by
  unfold bump; dsimp only; split_ifs <;> rfl
@[simp] theorem bump_tval (mc : Code) (c : CodeStream) : (bump mc c).tval = c.tval := by
  unfold bump; dsimp only; split_ifs <;> rfl
@[simp] theorem bump_tdig (mc : Code) (c : CodeStream) : (bump mc c).tdig = c.tdig := by
  unfold bump; dsimp only; split_ifs <;> rfl

theorem bump_currentCode (mc : Code) (c : CodeStream) :
    (bump mc c).currentCode.toNat =
      if c.currentCode.toNat < mc.toNat then c.currentCode.toNat + 1 else c.currentCode.toNat := by
  unfold bump; dsimp only
  have := mc.isLt
  split_ifs with h1 h2
  · simp only [BitVec.toNat_ofNat]; omega
  · simp only [BitVec.toNat_ofNat]; omega
  · rfl

/-- The width follows the counter (R142; 30_encoding.md R102): it stays `max 9 (bitlen current_code)`, and
`next_bump` stays the next power of two. -/
theorem bump_width (mc : Code) (c : CodeStream) (hc : 256 ≤ c.currentCode.toNat)
    (hw : c.width.toNat = max 9 (bitlen c.currentCode.toNat)) (hb : c.nextBump.toNat = 2 ^ c.width.toNat) :
    (bump mc c).width.toNat = max 9 (bitlen (bump mc c).currentCode.toNat) ∧
      (bump mc c).nextBump.toNat = 2 ^ (bump mc c).width.toNat := by
  have hmc := mc.isLt
  have hcw : c.currentCode.toNat < 2 ^ c.width.toNat := by
    rw [hw]
    exact lt_of_lt_of_le (lt_two_pow_bitlen _) (Nat.pow_le_pow_right (by norm_num) (le_max_right _ _))
  have hcc := bump_currentCode mc c
  unfold bump at hcc ⊢
  dsimp only at hcc ⊢
  split_ifs at hcc ⊢ with h1 h2
  · -- the counter reaches `next_bump`
    rw [hb] at h2
    have hw16 : c.width.toNat < 16 := by
      by_contra hge
      have : 2 ^ 16 ≤ 2 ^ c.width.toNat := Nat.pow_le_pow_right (by norm_num) (by omega)
      omega
    have hw9 : 9 ≤ c.width.toNat := by omega
    have hbl : bitlen (c.currentCode.toNat + 1) = c.width.toNat + 1 := by
      rw [h2]
      have l1 := (bitlen_le_iff (2 ^ c.width.toNat) (c.width.toNat + 1)).mpr (by
        rw [pow_succ]; have : 0 < 2 ^ c.width.toNat := by positivity
        omega)
      have l2 := (lt_bitlen_iff (2 ^ c.width.toNat) c.width.toNat).mpr le_rfl
      omega
    simp only [BitVec.toNat_ofNat] at hcc ⊢
    rw [hcc, hbl, hb]
    have e : (c.width.toNat + 1) % 2 ^ 5 = c.width.toNat + 1 := by omega
    rw [e]
    have hpow : 2 * 2 ^ c.width.toNat = 2 ^ (c.width.toNat + 1) := by rw [pow_succ]; ring
    rw [hpow]
    have hlt : 2 ^ (c.width.toNat + 1) < 2 ^ 17 := Nat.pow_lt_pow_right (by norm_num) (by omega)
    exact ⟨by omega, Nat.mod_eq_of_lt hlt⟩
  · rw [hb] at h2
    simp only [BitVec.toNat_ofNat] at hcc ⊢
    rw [hcc]
    refine ⟨?_, hb⟩
    have l1 : bitlen (c.currentCode.toNat + 1) ≤ c.width.toNat := (bitlen_le_iff _ _).mpr (by omega)
    have l2 : bitlen c.currentCode.toNat ≤ bitlen (c.currentCode.toNat + 1) :=
      (bitlen_le_iff _ _).mpr (lt_of_le_of_lt (Nat.le_succ _) (lt_two_pow_bitlen _))
    omega
  · exact ⟨hw, hb⟩

end Sys2Proof.Machine
end

