-- ==== Sys2Proof/Laws/Memory.lean ====
section
/-! SUPPORT. The laws of memories: a read after a write, and the canonical form that every write keeps. -/

namespace Sys2Proof.Machine

open Sys2Proof

variable {α : Type}

@[simp] theorem Memory.read_nil (k : Nat) : Memory.read ([] : Memory α) k = none := rfl

@[simp] theorem Memory.wf_nil : Memory.wf ([] : Memory α) = true := rfl

/-- A read of the address just written gives the value written, in any list. -/
@[simp] theorem Memory.read_write_same (m : Memory α) (k : Nat) (v : α) :
    Memory.read (Memory.write m k v) k = some v := by
  induction m with
  | nil => simp [Memory.write, Memory.read]
  | cons c m ih =>
    obtain ⟨a, x⟩ := c
    simp only [Memory.write]
    split_ifs with h1 h2
    · simp [Memory.read]
    · simp [Memory.read]
    · simp [Memory.read, ih, Ne.symm h2]

/-- A write leaves every other address alone. -/
theorem Memory.read_write_other (m : Memory α) (k j : Nat) (v : α) (h : j ≠ k) :
    Memory.read (Memory.write m k v) j = Memory.read m j := by
  induction m with
  | nil => simp [Memory.write, Memory.read, Ne.symm h]
  | cons c m ih =>
    obtain ⟨a, x⟩ := c
    simp only [Memory.write]
    split_ifs with h1 h2
    · simp [Memory.read, Ne.symm h]
    · subst h2
      simp [Memory.read, Ne.symm h]
    · simp [Memory.read, ih]

/-- A read after a write, at any address. -/
theorem Memory.read_write (m : Memory α) (k j : Nat) (v : α) :
    Memory.read (Memory.write m k v) j = if j = k then some v else Memory.read m j := by
  split_ifs with h
  · rw [h, Memory.read_write_same]
  · exact Memory.read_write_other m k j v h

theorem Memory.risesFrom_write (m : Memory α) (a k : Nat) (v : α) (hk : a < k)
    (h : Memory.risesFrom a m = true) : Memory.risesFrom a (Memory.write m k v) = true := by
  induction m generalizing a with
  | nil => simp [Memory.write, Memory.risesFrom, hk]
  | cons c m ih =>
    obtain ⟨b, x⟩ := c
    simp only [Memory.risesFrom, Bool.and_eq_true, decide_eq_true_eq] at h
    simp only [Memory.write]
    split_ifs with h1 h2
    · simp [Memory.risesFrom, hk, h1, h.2]
    · subst h2
      simp [Memory.risesFrom, h.1, h.2]
    · simp [Memory.risesFrom, h.1, ih b (by omega) h.2]

/-- Every write keeps the canonical form. -/
theorem Memory.wf_write (m : Memory α) (k : Nat) (v : α) (h : Memory.wf m = true) :
    Memory.wf (Memory.write m k v) = true := by
  cases m with
  | nil => rfl
  | cons c m =>
    obtain ⟨a, x⟩ := c
    simp only [Memory.wf] at h
    simp only [Memory.write]
    split_ifs with h1 h2
    · simp [Memory.wf, Memory.risesFrom, h1, h]
    · subst h2
      simpa [Memory.wf] using h
    · simpa [Memory.wf] using Memory.risesFrom_write m a k v (by omega) h

/-- Writing a list of cells into a canonical memory gives a canonical memory. -/
theorem Memory.wf_foldl (cells : List (Nat × α)) (m : Memory α) (h : Memory.wf m = true) :
    Memory.wf (cells.foldl (fun m c => Memory.write m c.1 c.2) m) = true := by
  induction cells generalizing m with
  | nil => exact h
  | cons c cells ih => exact ih _ (Memory.wf_write m c.1 c.2 h)

/-- A memory made by writing cells is canonical, whatever the cells. -/
@[simp] theorem Memory.wf_ofCells (cells : List (Nat × α)) : Memory.wf (Memory.ofCells cells) = true :=
  Memory.wf_foldl cells [] rfl

/-- No address of a memory that rises from `a` is `a` or below it. -/
theorem Memory.read_of_risesFrom (m : Memory α) (a k : Nat) (h : Memory.risesFrom a m = true) (hk : k ≤ a) :
    Memory.read m k = none := by
  induction m generalizing a with
  | nil => rfl
  | cons c m ih =>
    obtain ⟨b, x⟩ := c
    simp only [Memory.risesFrom, Bool.and_eq_true, decide_eq_true_eq] at h
    have hb : b ≠ k := by omega
    simp [Memory.read, hb, ih b h.2 (by omega)]

/-- Canonical memories with equal cells are equal: equal memories are equal data. -/
theorem Memory.ext_of_wf (m n : Memory α) (hm : Memory.wf m = true) (hn : Memory.wf n = true)
    (h : ∀ k, Memory.read m k = Memory.read n k) : m = n := by
  have tail_wf : ∀ (b : Nat) (r : Memory α), Memory.risesFrom b r = true → Memory.wf r = true := by
    intro b r hr
    cases r with
    | nil => rfl
    | cons d r =>
      obtain ⟨e, y⟩ := d
      simp only [Memory.risesFrom, Bool.and_eq_true] at hr
      exact hr.2
  induction m generalizing n with
  | nil =>
    cases n with
    | nil => rfl
    | cons d n => obtain ⟨b, y⟩ := d; simpa [Memory.read] using h b
  | cons c m ih =>
    obtain ⟨a, x⟩ := c
    cases n with
    | nil => simpa [Memory.read] using h a
    | cons d n =>
      obtain ⟨b, y⟩ := d
      simp only [Memory.wf] at hm hn
      have hab : a = b := by
        rcases Nat.lt_trichotomy a b with hlt | heq | hgt
        · have h1 := h a
          have hba : b ≠ a := by omega
          simp [Memory.read, hba, Memory.read_of_risesFrom n b a hn (by omega)] at h1
        · exact heq
        · have h1 := h b
          have hba : a ≠ b := by omega
          simp [Memory.read, hba, Memory.read_of_risesFrom m a b hm (by omega)] at h1
      subst hab
      have hxy : x = y := by simpa [Memory.read] using h a
      subst hxy
      have hmn : m = n := by
        refine ih n (tail_wf a m hm) (tail_wf a n hn) ?_
        intro k
        by_cases hk : a = k
        · subst hk
          rw [Memory.read_of_risesFrom m a a hm (by omega), Memory.read_of_risesFrom n a a hn (by omega)]
        · have := h k
          simpa [Memory.read, hk] using this
      rw [hmn]

end Sys2Proof.Machine
end

