-- ==== Sys2Proof/Laws/Dictionary.lean ====
section
/-! SUPPORT. The dictionary tables: the string walk ends on a defined code (44_dictionary_tables.md R218, R219), keys are
distinct, and what a lookup answers after an insert (R208, R209). -/

namespace Sys2Proof.Machine

open Sys2Proof

/-! ### Strings -/

/-- The walk of a defined code finds its string, of at most `k − 255` bytes (R219). -/
theorem walkString_found (dec : Memory (Code × Byte)) (n : Nat) (h : DecDefined dec n) (fuel : Nat) :
    ∀ (k : Code) (stack : List Byte), k.toNat < n → k.toNat ≠ 256 → k.toNat < fuel →
    ∃ b bs, walkString dec n fuel k stack = .found (b :: (bs ++ stack)) ∧
      (257 ≤ k.toNat → bs.length + 256 ≤ k.toNat) ∧ (k.toNat ≤ 255 → bs = []) := by
  induction fuel with
  | zero => intro k stack _ _ h; omega
  | succ fuel ih =>
    intro k stack hk hk2 hf
    simp only [walkString]
    split_ifs with h1 h2
    · exact ⟨_, [], rfl, by omega, by simp⟩
    · omega
    · obtain ⟨p, c, hr, hp, hp2⟩ := h k.toNat (by omega) hk
      rw [hr]
      obtain ⟨b, bs, hw, hl, hl2⟩ := ih p (c :: stack) (by omega) hp2 (by omega)
      refine ⟨b, bs ++ [c], by simp [hw], ?_, by omega⟩
      intro hk
      by_cases hp3 : 257 ≤ p.toNat
      · have := hl hp3
        simp; omega
      · have := hl2 (by omega)
        simp [this]
        omega

/-- `DecodeString` of a defined code answers its string: never empty, and of at most `k − 255` bytes when `k` is no
literal (R218, R219). -/
theorem decodeString_found (s : State) (h : DecDefined s.tabs.dec s.eng.nextCode.toNat) (k : Code)
    (hk : k.toNat < s.eng.nextCode.toNat) (h256 : k.toNat ≠ 256) :
    ∃ b bs, decodeString k s = .found (b :: bs) ∧ (257 ≤ k.toNat → bs.length + 256 ≤ k.toNat) ∧
      (k.toNat ≤ 255 → bs = []) := by
  obtain ⟨b, bs, hw, hl⟩ := walkString_found _ _ h (k.toNat + 1) k [] hk h256 (by omega)
  exact ⟨b, bs, by simpa [decodeString] using hw, hl⟩

/-- What the walk finds is the code's string, above what the stack held (R207, R218). -/
theorem walkString_strOf (dec : Memory (Code × Byte)) (n fuel : Nat) :
    ∀ (k : Code) (stack out : List Byte), walkString dec n fuel k stack = .found out →
    ∃ bs, out = bs ++ stack ∧ StrOf dec k bs := by
  induction fuel with
  | zero => intro k stack out h; simp [walkString] at h
  | succ fuel ih =>
    intro k stack out h
    simp only [walkString] at h
    split_ifs at h with h1 h2 h3
    · cases h
      exact ⟨[_], rfl, .literal _ _ (by simp; omega)⟩
    · cases hr : Memory.read dec k.toNat with
      | none => simp [hr] at h
      | some e =>
        rw [hr] at h
        obtain ⟨bs, rfl, hs⟩ := ih _ _ _ h
        exact ⟨bs ++ [e.2], by simp, .entry k e.1 e.2 bs (by omega) hr hs⟩

/-- What `DecodeString` finds is `str(k)` (R207, R218). -/
theorem decodeString_strOf {k : Code} {s : State} {bs : List Byte} (h : decodeString k s = .found bs) :
    StrOf s.tabs.dec k bs := by
  obtain ⟨out, rfl, hs⟩ := walkString_strOf _ _ _ _ _ _ h
  simpa using hs

/-- A code has at most one string (R207). -/
theorem StrOf.unique {dec : Memory (Code × Byte)} {k : Code} {xs : List Byte} (hx : StrOf dec k xs) :
    ∀ {ys : List Byte}, StrOf dec k ys → xs = ys := by
  induction hx with
  | literal k b hk =>
    intro ys hy
    cases hy with
    | literal _ b' hk' => rw [BitVec.eq_of_toNat_eq (hk.symm.trans hk')]
    | entry _ p c bs h257 => have := b.isLt; omega
  | entry k p c bs h257 hr hp ih =>
    intro ys hy
    cases hy with
    | literal _ b' hk' => have := b'.isLt; omega
    | entry _ p' c' bs' h257' hr' hp' =>
      rw [hr] at hr'
      obtain ⟨rfl, rfl⟩ : p = p' ∧ c = c' := by simpa using hr'
      rw [ih hp']

/-- A write at `next_code` keeps the string of every code below it (R221). -/
theorem StrOf.write {dec : Memory (Code × Byte)} {n : Nat} (hd : DecDefined dec n) (v : Code × Byte) {k : Code}
    {bs : List Byte} (h : StrOf dec k bs) : k.toNat < n → StrOf (Memory.write dec n v) k bs := by
  induction h with
  | literal k b hk => intro _; exact .literal k b hk
  | entry k p c bs hk hr hp ih =>
    intro hlt
    obtain ⟨p', c', h1, h2, _⟩ := hd _ hk hlt
    rw [hr] at h1
    obtain ⟨rfl, rfl⟩ : p = p' ∧ c = c' := by simpa using h1
    refine .entry k p c bs hk ?_ (ih (by omega))
    rw [Memory.read_write_other _ _ _ _ (by omega)]
    exact hr

/-- The string of the entry just written (R207). -/
theorem StrOf.written {dec : Memory (Code × Byte)} {n : Nat} (hd : DecDefined dec n) {k p : Code} (c : Byte)
    {bs : List Byte} (hk : k.toNat = n) (hn : 257 ≤ n) (hp : p.toNat < n) (h : StrOf dec p bs) :
    StrOf (Memory.write dec n (p, c)) k (bs ++ [c]) :=
  .entry k p c bs (by omega) (by rw [hk]; simp) (h.write hd (p, c) hp)

/-! ### The encode table -/

/-- Distinct keys have distinct addresses (10_state.md R43). -/
theorem encKey_inj {p p' : Code} {c c' : Byte} (h : encKey p c = encKey p' c') : p = p' ∧ c = c' := by
  unfold encKey at h
  have := c.isLt; have := c'.isLt
  constructor <;> apply BitVec.eq_of_toNat_eq <;> omega

/-- What a lookup answers after an insert (R208, R209). -/
theorem encLookup_insert (p p' : Code) (c c' : Byte) (s : State) :
    encLookup p c (encInsertNext p' c' s) =
      if p = p' ∧ c = c' then some (BitVec.ofNat 16 s.eng.nextCode.toNat) else encLookup p c s := by
  unfold encLookup encInsertNext
  rw [Memory.read_write]
  by_cases h : p = p' ∧ c = c'
  · rw [if_pos h, if_pos (by rw [h.1, h.2])]
  · rw [if_neg h, if_neg]
    intro he
    exact h (encKey_inj he)

end Sys2Proof.Machine
end

