-- ==== Sys2Proof/Laws/PerInstr.lean ====
section
/-! SUPPORT. Statements made per instruction: the encoding of every instruction matches its row of spec/opcode_table.json. -/

namespace Sys2Proof.Laws.EncodeRow

open Sys2Proof

/-- The encoded value agrees with the row's mask and match, fits the row's format and is written in as many bytes. -/
def Statement (i : Instr) : Prop :=
  encodeValue i &&& i.rowMask = i.rowMatch ∧ encodeValue i < 2 ^ (8 * i.format.bytes) ∧
    (encode i).length = i.format.bytes

theorem nop : Statement .nop := ⟨by decide, by decide, by decide⟩
theorem startCText : Statement .startCText := ⟨by decide, by decide, by decide⟩
theorem startDText : Statement .startDText := ⟨by decide, by decide, by decide⟩
theorem startCF16 : Statement .startCF16 := ⟨by decide, by decide, by decide⟩
theorem startDF16 : Statement .startDF16 := ⟨by decide, by decide, by decide⟩
theorem startCFw : Statement .startCFw := ⟨by decide, by decide, by decide⟩
theorem startDFw : Statement .startDFw := ⟨by decide, by decide, by decide⟩
theorem startCAd : Statement .startCAd := ⟨by decide, by decide, by decide⟩
theorem startDAd : Statement .startDAd := ⟨by decide, by decide, by decide⟩
theorem abort : Statement .abort := ⟨by decide, by decide, by decide⟩
theorem clear : Statement .clear := ⟨by decide, by decide, by decide⟩

theorem reserved (w : Word) : Statement (.reserved w) := ⟨Nat.and_zero _, w.isLt, rfl⟩

theorem lit (b : Byte) : Statement (.lit b) := by
  have hb : b.toNat < 2 ^ 8 := b.isLt
  refine ⟨?_, lt_trans hb (Nat.pow_lt_pow_right (by omega) (show 8 < 16 by omega)), rfl⟩
  show b.toNat &&& 0xFF00 = 0
  apply Nat.eq_of_testBit_eq
  intro i
  rw [Nat.testBit_and, Nat.zero_testBit]
  by_cases hi : i < 8
  · have h : ∀ j : Fin 8, Nat.testBit 0xFF00 j = false := by decide
    rw [h ⟨i, hi⟩, Bool.and_false]
  · rw [Nat.testBit_lt_two_pow (lt_of_lt_of_le hb (Nat.pow_le_pow_right (by omega) (by omega))), Bool.false_and]

theorem eof : Statement .eof := ⟨by decide, by decide, by decide⟩

theorem dict (k : Code) : Statement (.dict k) := ⟨Nat.and_zero _, k.isLt, rfl⟩
theorem kwkwk (k : Code) : Statement (.kwkwk k) := ⟨Nat.and_zero _, k.isLt, rfl⟩
theorem bad (k : Code) : Statement (.bad k) := ⟨Nat.and_zero _, k.isLt, rfl⟩

end Sys2Proof.Laws.EncodeRow
end

