-- ==== Sys2Proof/Laws/Session.lean ====
section
/-! SUPPORT. What the code stream's operations keep of a session (41_code_stream.md R148): its width, its counter and its
pending bits stay in order under every writer, reader, flush and bump. -/

namespace Sys2Proof.Machine

open Sys2Proof

/-- No width is above 16 (R148). -/
theorem SessionOk.width_le {d st mc c} (h : SessionOk d st mc c) : c.width.toNat ≤ 16 := by
  have := h.width
  have hc := h.current
  have hm := mc.isLt
  cases st <;> simp only [widthOf] at this
  · omega
  · omega
  · rw [this]; exact (bitlen_le_iff _ _).2 hm
  · rw [this]
    have := (bitlen_le_iff c.currentCode.toNat 16).2 (by omega)
    omega
/-- A packed width is at least 9 (R141, R142). -/
theorem SessionOk.width_ge {d st mc c} (h : SessionOk d st mc c) (hst : st = .fixedw ∧ 256 ≤ mc.toNat ∨ st = .adaptive) : 9 ≤ c.width.toNat := by
  have := h.width
  rcases hst with ⟨rfl, h2⟩ | rfl
  · rw [this]; exact (bitlen_code mc h2).1
  · rw [this]; simp [widthOf]

/-- A bump keeps the session in order (R142). -/
theorem SessionOk.bump {d mc c} (h : SessionOk d .adaptive mc c) (hc : d = .decompress → c.nbits.toNat < 8) : SessionOk d .adaptive mc (bump mc c) := by
  obtain ⟨w, n⟩ := bump_width mc c h.current.1 h.width (h.nextBump rfl)
  have hcc := bump_currentCode mc c
  have hc0 := h.current
  refine ⟨w, ?_, by simp, fun _ => n, ?_, by simpa using h.acc, by simpa using h.tval⟩
  · rw [hcc]; split_ifs <;> omega
  · have := h.nbits
    cases d with
    | compress => simpa [nbitsOk] using this
    | decompress =>
      have := hc rfl
      simp only [nbitsOk, bump_nbits]
      rw [w]; omega

/-- A packed write keeps the session in order (R138). -/
theorem SessionOk.packWrite {st mc c} (h : SessionOk .compress st mc c) (k : Code) (hst : st = .fixedw ∨ st = .adaptive) : SessionOk .compress st mc (packWrite k c).2 := by
  have hn : c.nbits.toNat < 8 := by
    have := h.nbits
    rcases hst with rfl | rfl <;> exact this
  obtain ⟨v, -, -, -, -, e1, e2, e3, e4, -⟩ := packWrite_eq k c h.acc hn h.width_le
  obtain ⟨p1, p2⟩ := packWrite_pending k c h.acc hn h.width_le
  refine ⟨by rw [e1,e2]; exact h.width, by rw [e2]; exact h.current, by rw [e2,e3]; exact h.still, by rw [e3,e1]; exact h.nextBump, ?_, p2, by rw [e4]; exact h.tval⟩
  rcases hst with rfl | rfl <;> exact p1

/-- Every writer keeps the session in order (R131). -/
theorem SessionOk.writeCode {st mc c} (h : SessionOk .compress st mc c) (k : Code) : SessionOk .compress st mc (writeCode st mc k c).2 := by
  cases st with
  | text => exact h
  | fixed16 => exact h
  | fixedw => exact h.packWrite k (.inl rfl)
  | adaptive => exact (h.packWrite k (.inr rfl)).bump (by simp)

/-- The flush keeps the session in order (R140, R146). -/
theorem SessionOk.flushFor {st mc c} (h : SessionOk .compress st mc c) : SessionOk .compress st mc (flushFor st c).2 := by
  cases st with
  | text => exact h
  | fixed16 => exact h
  | fixedw =>
    simp only [Machine.flushFor, flushSession]
    split_ifs
    · exact ⟨h.1, h.2, h.3, h.4, by simp [nbitsOk], by simp, h.7⟩
    · exact h
  | adaptive =>
    simp only [Machine.flushFor, flushSession]
    split_ifs
    · exact ⟨h.1, h.2, h.3, h.4, by simp [nbitsOk], by simp, h.7⟩
    · exact h

/-- The session a reader leaves behind is in order, after the bump of a completed code (R132). -/
def ReadOk (st : Strategy) (mc : Code) : ReadResult → Prop
  | .noCode c => SessionOk .decompress st mc c
  | .code _ c => SessionOk .decompress st mc (bumpFor st mc c)
  | .formatError => True

/-- The packed reader (R139). -/
theorem SessionOk.packRead {st mc c} (h : SessionOk .decompress st mc c) (b : Byte) (hst : st = .fixedw ∧ 256 ≤ mc.toNat ∨ st = .adaptive) : ReadOk st mc (packReadByte b c) := by
  have hw := h.width_ge hst
  have hw2 := h.width_le
  have hn : c.nbits.toNat < c.width.toNat := by
    have := h.nbits
    rcases hst with ⟨rfl, -⟩ | rfl <;> exact this
  have hb := b.isLt
  have hacc := packReadByte_acc b c h.acc (by omega)
  have hlt : c.acc.toNat + b.toNat * 2 ^ c.nbits.toNat < 2 ^ (c.nbits.toNat + 8) := by
    have := h.acc
    calc _ < 2 ^ c.nbits.toNat + b.toNat * 2 ^ c.nbits.toNat := by omega
      _ = (b.toNat + 1) * 2 ^ c.nbits.toNat := by ring
      _ ≤ 2 ^ 8 * 2 ^ c.nbits.toNat := Nat.mul_le_mul_right _ (by omega)
      _ = _ := by rw [← pow_add, add_comm]
  simp only [packReadByte]
  split_ifs with hc
  · have hbits : (BitVec.ofNat 5 (c.nbits.toNat + 8 - c.width.toNat)).toNat = c.nbits.toNat + 8 - c.width.toNat := by
      rw [BitVec.toNat_ofNat]; omega
    have hOk : SessionOk .decompress st mc { c with acc := (c.acc ||| (BitVec.ofNat 24 b.toNat <<< c.nbits.toNat)) >>> c.width.toNat, nbits := BitVec.ofNat 5 (c.nbits.toNat + 8 - c.width.toNat) } := by
      refine ⟨h.1, h.2, h.3, h.4, ?_, ?_, h.7⟩
      · rcases hst with ⟨rfl, -⟩ | rfl <;> (simp only [nbitsOk]; rw [hbits]; omega)
      · dsimp only
        rw [hbits, BitVec.toNat_ushiftRight, hacc, Nat.shiftRight_eq_div_pow, Nat.div_lt_iff_lt_mul (by positivity), ← pow_add]
        rw [show c.nbits.toNat + 8 - c.width.toNat + c.width.toNat = c.nbits.toNat + 8 by omega]
        exact hlt
    rcases hst with ⟨rfl, -⟩ | rfl
    · exact hOk
    · refine hOk.bump (fun _ => ?_)
      dsimp only
      rw [hbits]; omega
  · have hbits : (BitVec.ofNat 5 (c.nbits.toNat + 8)).toNat = c.nbits.toNat + 8 := by
      rw [BitVec.toNat_ofNat]; omega
    refine ⟨h.1, h.2, h.3, h.4, ?_, ?_, h.7⟩
    · rcases hst with ⟨rfl, -⟩ | rfl <;> (simp only [nbitsOk]; rw [hbits]; omega)
    · dsimp only
      rw [hbits, hacc]; exact hlt

/-- Every reader (R132). -/
theorem SessionOk.readByte {st mc c} (h : SessionOk .decompress st mc c) (b : Byte) (hst : st = .fixedw → 256 ≤ mc.toNat) : ReadOk st mc (readByte st b c) := by
  cases st with
  | text =>
    simp only [Machine.readByte, textReadByte]
    have hn : c.nbits.toNat = 0 := h.nbits
    split_ifs
    · trivial
    · refine ⟨h.1, h.2, h.3, h.4, h.5, h.6, ?_⟩
      simp only [BitVec.toNat_ofNat]; omega
    · exact ⟨h.1, h.2, h.3, h.4, h.5, h.6, by show 0 ≤ 65535; omega⟩
    · trivial
    · trivial
  | fixed16 =>
    simp only [Machine.readByte, fixed16ReadByte]
    have hb := b.isLt
    split_ifs
    · refine ⟨h.1, h.2, h.3, h.4, .inr rfl, ?_, h.7⟩
      simp only [BitVec.toNat_ofNat]
      show _ < 2 ^ 8
      omega
    · exact ⟨h.1, h.2, h.3, h.4, .inl rfl, by show 0 < 2 ^ 0; omega, h.7⟩
  | fixedw => exact h.packRead b (.inl ⟨rfl, hst rfl⟩)
  | adaptive => exact h.packRead b (.inr rfl)

/-- A fresh session is in order (R130). -/
theorem sessionInit_ok (d : Dir) (st : Strategy) (mc : Code) (hst : st = .fixedw → 256 ≤ mc.toNat) :
    SessionOk d st mc (sessionInit st mc) := by
  have hb : bitlen 256 = 9 := by decide
  have hw : (sessionInit st mc).width.toNat = widthOf st mc.toNat 256 := by
    cases st
    · rfl
    · rfl
    · have := bitlen_code mc (hst rfl)
      simp only [sessionInit, initialWidth, widthOf, BitVec.toNat_ofNat]
      exact Nat.mod_eq_of_lt (by omega)
    · rw [widthOf, hb]; rfl
  have hpos : st = .fixedw ∨ st = .adaptive → 0 < widthOf st mc.toNat 256 := by
    rintro (rfl | rfl)
    · have := bitlen_code mc (hst rfl)
      simp only [widthOf]; omega
    · simp [widthOf]
  refine ⟨hw, ⟨le_refl 256, le_max_right _ _⟩, fun _ => ⟨rfl, rfl⟩, ?_, ?_, Nat.zero_lt_one, Nat.zero_le _⟩
  · rintro rfl
    rw [hw, widthOf, hb]; rfl
  · rw [hw]
    cases st <;> cases d
    · rfl
    · rfl
    · rfl
    · exact .inl rfl
    · exact Nat.zero_lt_succ _
    · exact hpos (.inl rfl)
    · exact Nat.zero_lt_succ _
    · exact hpos (.inr rfl)

end Sys2Proof.Machine
end

