-- ==== Sys2Proof/Laws/Step.lean ====
section
/-! SUPPORT. What a step can do, said once: every next state of a step is one of the moves below. Proofs about every step
cite these and never unfold `step`. -/

namespace Sys2Proof.Machine

open Sys2Proof

/-! ### What a command can do -/

/-- What executing a command word can answer (45_host_commands.md R225). -/
inductive CmdMove (s : State) : State → Prop where
  | same : CmdMove s s
  | reject : CmdMove s (rejectCommand s)
  | started (d : Dir) (st : Strategy) (hi : s.eng.phase = .idle) (hl : startLegal s.cfg st s.regs.maxCode = true) :
      CmdMove s (startOperation d st s.regs.maxCode (startReport d st s))
  | cfgErr (d : Dir) (st : Strategy) (hi : s.eng.phase = .idle) (hl : startLegal s.cfg st s.regs.maxCode = false) :
      CmdMove s (cfgError s.regs.maxCode (startReport d st s))
  | abort (hb : s.eng.phase ≠ .idle) : CmdMove s (abortBusy s)
  | clear (hi : s.eng.phase = .idle) : CmdMove s (clearIdle s)

theorem State.busy_eq_true {s : State} : s.busy = true ↔ s.eng.phase ≠ .idle := by
  simp [State.busy]

theorem State.busy_eq_false {s : State} : s.busy = false ↔ s.eng.phase = .idle := by
  simp [State.busy]

/-- What START does in each of its cases (R228 to R230). -/
theorem start_move (d : Dir) (st : Strategy) (s : State) : CmdMove s (start d st s) := by
  unfold start
  split_ifs with hb
  · exact .reject
  · have hi : s.eng.phase = .idle := State.busy_eq_false.mp (by simpa using hb)
    unfold startIdle
    split_ifs with hl
    · exact .started d st hi hl
    · exact .cfgErr d st hi (by simpa using hl)

/-- Every command word's meaning answers a next state, and it is one of the command moves. -/
theorem exec_command (i : Instr) (hf : i.format = .cmd32) (s : State) :
    ∃ t, exec i s = .next t ∧ CmdMove s t := by
  cases i with
  | nop => exact ⟨s, rfl, .same⟩
  | startCText => exact ⟨_, rfl, start_move _ _ s⟩
  | startDText => exact ⟨_, rfl, start_move _ _ s⟩
  | startCF16 => exact ⟨_, rfl, start_move _ _ s⟩
  | startDF16 => exact ⟨_, rfl, start_move _ _ s⟩
  | startCFw => exact ⟨_, rfl, start_move _ _ s⟩
  | startDFw => exact ⟨_, rfl, start_move _ _ s⟩
  | startCAd => exact ⟨_, rfl, start_move _ _ s⟩
  | startDAd => exact ⟨_, rfl, start_move _ _ s⟩
  | abort =>
    refine ⟨_, rfl, ?_⟩
    split_ifs with hb
    · exact .abort (State.busy_eq_true.mp hb)
    · exact .same
  | clear =>
    refine ⟨_, rfl, ?_⟩
    split_ifs with hb
    · exact .reject
    · exact .clear (State.busy_eq_false.mp (by simpa using hb))
  | reserved w => exact ⟨_, rfl, .reject⟩
  | lit b => simp [Instr.format] at hf
  | eof => simp [Instr.format] at hf
  | dict k => simp [Instr.format] at hf
  | kwkwk k => simp [Instr.format] at hf
  | bad k => simp [Instr.format] at hf

/-- The decoder of command words answers a command (30_encoding.md R94). -/
theorem decodeCmd_format (w : Word) : (decodeCmd w).format = .cmd32 := by
  unfold decodeCmd
  repeat' split
  all_goals rfl

/-! ### What a completed code can do -/

/-- What executing a completed code can answer (43_decompress.md R187; 41_code_stream.md R133). -/
inductive CodeMove (k : Code) (u : State) : State → Prop where
  | eof (hk : k.toNat = 256) : CodeMove k u (raiseStop .eofCode 0 u)
  | bad (hk : 257 ≤ k.toNat) : CodeMove k u (raiseStop .badCode (BitVec.ofNat 32 k.toNat) u)
  | lit (b : Byte) (hk : k.toNat ≤ 255) (hb : b.toNat = k.toNat) : CodeMove k u (acceptCode k b [] u)
  | dict (first : Byte) (rest : List Byte) (hk : 257 ≤ k.toNat) (hn : k.toNat < u.eng.nextCode.toNat)
      (hd : decodeString k u = .found (first :: rest)) :
      CodeMove k u (acceptCode k first rest (stackPopped u))
  | kwkwk (bs : List Byte) (hk : k.toNat = u.eng.nextCode.toNat) (h257 : 257 ≤ k.toNat)
      (hp : u.eng.prevValid = true) (hm : u.eng.nextCode.toNat ≤ u.eng.aMc.toNat)
      (hd : decodeString u.eng.prev u = .found bs) :
      CodeMove k u (setPrevious k u.eng.prevFirst
        (decodeInsert u.eng.prevFirst (outPushAll (bs ++ [u.eng.prevFirst]) (stackPopped u))))

theorem isKwkwk_iff {x : CodeCtx} {k : Code} :
    x.isKwkwk k = true ↔
      k.toNat = x.nextCode.toNat ∧ x.prevValid = true ∧ x.nextCode.toNat ≤ x.maxCode.toNat := by
  simp [CodeCtx.isKwkwk, and_assoc]

/-- Running a completed code answers a next state only by one of the code moves. -/
theorem exec_classify_next (k : Code) (u t : State) (h : exec (classify u.codeCtx k) u = .next t) :
    CodeMove k u t := by
  unfold classify at h
  split_ifs at h with h1 h2 h3 h4
  · have ht : acceptCode (BitVec.ofNat 16 (BitVec.ofNat 8 k.toNat).toNat) (BitVec.ofNat 8 k.toNat) [] u = t := by
      simpa [exec, execLit] using h
    have hb : (BitVec.ofNat 8 k.toNat).toNat = k.toNat := by
      rw [BitVec.toNat_ofNat]; omega
    rw [hb, BitVec.ofNat_toNat, BitVec.setWidth_eq] at ht
    exact ht ▸ .lit _ h1 hb
  · have ht : raiseStop .eofCode 0 u = t := by simpa [exec, execEof] using h
    exact ht ▸ .eof h2
  · simp only [exec, execDict, resolve] at h
    cases hd : decodeString k u with
    | found bs =>
      cases bs with
      | nil => simp [hd] at h
      | cons first rest =>
        have ht : acceptCode k first rest (stackPopped u) = t := by simpa [hd] using h
        exact ht ▸ .dict first rest (by omega) h3 hd
    | atEof => simp [hd] at h
    | undefined => simp [hd] at h
  · rw [isKwkwk_iff] at h4
    simp only [exec, execKwkwk] at h
    cases hd : decodeString u.eng.prev u with
    | found bs =>
      have ht : setPrevious k u.eng.prevFirst
          (decodeInsert u.eng.prevFirst (outPushAll (bs ++ [u.eng.prevFirst]) (stackPopped u))) = t := by
        simpa [hd] using h
      exact ht ▸ .kwkwk bs h4.1 (by omega) h4.2.1 h4.2.2 hd
    | atEof => simp [hd] at h
    | undefined => simp [hd] at h
  · have ht : raiseStop .badCode (BitVec.ofNat 32 k.toNat) u = t := by simpa [exec, execBad] using h
    exact ht ▸ .bad (by omega)

/-! ### What a step can do -/

/-- Every move that a step can make from `s`, whose pending move is already off the list. -/
inductive Move (s : State) : State → Prop where
  /-- Nothing changes: a wait, or a write that is ignored. -/
  | wait : Move s s
  /-- A drain step (20_memory.md R67). -/
  | drain (b : OutBeat) (rest : List OutBeat) (hr : s.env.rstN = true) (ho : s.eng.obuf = b :: rest)
      (hs : s.env.outReady = true) : Move s (drainBeat b rest s)
  /-- A consuming step of a compress operation (42_compress.md R171 to R174). -/
  | compress (b : Beat) (rest : List Beat) (hr : s.env.rstN = true) (ho : s.eng.obuf = [])
      (hp : s.eng.phase = .run) (hi : s.env.inq = b :: rest) (hd : s.eng.aDir = .compress) :
      Move s (consumeCompress b { s with env.inq := rest })
  /-- A consuming step of a decompress operation that completes no code (41_code_stream.md R132). -/
  | fetched (b : Beat) (rest : List Beat) (t : State) (hr : s.env.rstN = true) (ho : s.eng.obuf = [])
      (hp : s.eng.phase = .run) (hi : s.env.inq = b :: rest) (hd : s.eng.aDir = .decompress)
      (hf : fetchBeat b { s with env.inq := rest } = .done t) : Move s t
  /-- A consuming step of a decompress operation that completes the code `k` (43_decompress.md R186). -/
  | code (b : Byte) (rest : List Beat) (k : Code) (c : CodeStream) (t : State) (hr : s.env.rstN = true)
      (ho : s.eng.obuf = []) (hp : s.eng.phase = .run) (hi : s.env.inq = .byte b :: rest)
      (hd : s.eng.aDir = .decompress) (hf : readByte s.eng.aStrat b s.cs = .code k c)
      (hm : CodeMove k (codeCompleted c (countByteIn { s with env.inq := rest })) t) : Move s t
  /-- A command word written to CMD. -/
  | command (t : State) (hr : s.env.rstN = true) (hm : CmdMove s t) : Move s t
  /-- A write to another word of the window. -/
  | regWrite (i : Nat) (d : Word) (hr : s.env.rstN = true) : Move s (writeWord i d s)
  /-- A move that changes only what the environment holds: a beat offered or withdrawn, `out_ready`, a read. -/
  | envOnly (e : Env) (hr : e.rstN = s.env.rstN) (hd : e.delivered = s.env.delivered)
      (hs : e.script = s.env.script) : Move s { s with env := e }
  /-- `rst_n` driven to a level that resets the block. -/
  | reset (level : Bool) : Move s { resetBlock s with env.rstN := level }

theorem fetchBeat_code {b : Beat} {s u : State} {k : Code} (h : fetchBeat b s = .code k u) :
    ∃ x c, b = .byte x ∧ readByte s.eng.aStrat x s.cs = .code k c ∧ u = codeCompleted c (countByteIn s) := by
  cases b with
  | byte x =>
    simp only [fetchBeat, fetchByte, countByteIn_eng, countByteIn_cs] at h
    cases hr : readByte s.eng.aStrat x s.cs with
    | noCode c => simp [hr] at h
    | code k' c =>
      simp only [hr, Fetch.code.injEq] at h
      exact ⟨x, c, rfl, by rw [hr, h.1], h.2.symm⟩
    | formatError => simp [hr] at h
  | endMark => simp [fetchBeat] at h
  | error => simp [fetchBeat] at h

/-- Every next state of an engine step is a move. -/
theorem engineStep_move {s t : State} (h : engineStep s = .next t) : Move s t := by
  unfold engineStep engineMove at h
  by_cases hr : s.env.rstN = true
  · rw [if_pos hr] at h
    cases ho : s.eng.obuf with
    | cons b rest =>
      simp only [ho, runFetch, Host.Outcome.next.injEq] at h
      by_cases hs : s.env.outReady = true
      · rw [if_pos hs] at h
        exact h ▸ .drain b rest hr ho hs
      · rw [if_neg hs] at h
        exact h ▸ .wait
    | nil =>
      simp only [ho] at h
      by_cases hp : s.eng.phase = .run
      · rw [if_pos hp] at h
        cases hi : s.env.inq with
        | nil =>
          simp only [hi, runFetch, Host.Outcome.next.injEq] at h
          exact h ▸ .wait
        | cons b rest =>
          simp only [hi, consumeBeat] at h
          cases hd : s.eng.aDir with
          | compress =>
            simp only [hd, runFetch, Host.Outcome.next.injEq] at h
            exact h ▸ .compress b rest hr ho hp hi hd
          | decompress =>
            simp only [hd] at h
            cases hf : fetchBeat b { s with env.inq := rest } with
            | done u =>
              simp only [hf, runFetch, Host.Outcome.next.injEq] at h
              exact h ▸ .fetched b rest u hr ho hp hi hd hf
            | code k u =>
              simp only [hf, runFetch] at h
              obtain ⟨x, c, rfl, hc, rfl⟩ := fetchBeat_code hf
              exact .code x rest k c t hr ho hp hi hd hc (exec_classify_next k _ t h)
      · rw [if_neg hp] at h
        simp only [runFetch, Host.Outcome.next.injEq] at h
        exact h ▸ .wait
  · rw [if_neg hr] at h
    simp only [runFetch, Host.Outcome.next.injEq] at h
    exact h ▸ .wait

/-- What a register write comes to. -/
theorem regWrite_done {off : Nat} {m : BitVec 4} {d : Word} {s t : State} (h : regWrite off m d s = .done t) :
    Move s t := by
  unfold regWrite at h
  split_ifs at h with h1 h2 h3 h4
  · simp only [HostMove.done.injEq] at h
    exact h ▸ .wait
  · simp only [HostMove.done.injEq] at h
    exact h ▸ .regWrite _ d (by simpa using h3)

/-- A register write that comes to a command is a write to CMD out of reset. -/
theorem regWrite_command {off : Nat} {m : BitVec 4} {d w : Word} {s : State} (h : regWrite off m d s = .command w) :
    s.env.rstN = true ∧ w = d := by
  unfold regWrite at h
  split_ifs at h with h1 h2 h3 h4
  simp only [HostMove.command.injEq] at h
  exact ⟨by simpa using h3, h.symm⟩

/-- Every next state of a host move is a move. -/
theorem hostStep_move {turn : HostTurn} {s t : State} (h : hostStep turn s = .next t) : Move s t := by
  cases turn with
  | engine => exact engineStep_move h
  | regWrite off m d =>
    simp only [hostStep, hostMove] at h
    cases hw : regWrite off m d s with
    | done u =>
      simp only [hw, Host.Outcome.next.injEq] at h
      exact h ▸ regWrite_done hw
    | command w =>
      simp only [hw] at h
      obtain ⟨u, hu, hm⟩ := exec_command (decodeCmd w) (decodeCmd_format w) s
      rw [hu, Host.Outcome.next.injEq] at h
      exact h ▸ .command u (regWrite_command hw).1 hm
    | refused r => simp [hw] at h
  | regRead off =>
    simp only [hostStep, hostMove, regRead] at h
    split_ifs at h with h1
    simp only [Host.Outcome.next.injEq] at h
    exact h ▸ .envOnly { s.env with reads := _ } rfl rfl rfl
  | offer kind data =>
    simp only [hostStep, hostMove, Host.Outcome.next.injEq] at h
    exact h ▸ .envOnly { s.env with inq := _ } rfl rfl rfl
  | withdraw =>
    simp only [hostStep, hostMove, Host.Outcome.next.injEq] at h
    exact h ▸ .envOnly { s.env with inq := _ } rfl rfl rfl
  | sinkReady level =>
    simp only [hostStep, hostMove, Host.Outcome.next.injEq] at h
    exact h ▸ .envOnly { s.env with outReady := _ } rfl rfl rfl
  | rst level =>
    simp only [hostStep, hostMove, driveReset, Host.Outcome.next.injEq] at h
    split_ifs at h with h1
    · exact h ▸ .wait
    · exact h ▸ .reset level

/-- Every next state of a step is a move from the state whose pending move is taken off the list. -/
theorem step_move {s t : State} (h : step s = .next t) : s.cfg.legal = true ∧ Move s.popTurn t := by
  unfold step at h
  split_ifs at h with hl
  refine ⟨hl, ?_⟩
  cases hs : s.env.script with
  | nil =>
    have hpop : s.popTurn = s := by
      obtain ⟨cfg, regs, eng, tabs, cs, env⟩ := s
      obtain ⟨rstN, inq, outReady, delivered, script, reads⟩ := env
      simp only at hs
      subst hs
      rfl
    simp only [hs] at h
    rw [hpop]
    exact engineStep_move h
  | cons turn rest =>
    simp only [hs] at h
    have hpop : s.popTurn = { s with env.script := rest } := by simp [State.popTurn, hs]
    rw [hpop]
    exact hostStep_move h

@[simp] theorem popTurn_cfg (s : State) : s.popTurn.cfg = s.cfg := rfl
@[simp] theorem popTurn_regs (s : State) : s.popTurn.regs = s.regs := rfl
@[simp] theorem popTurn_eng (s : State) : s.popTurn.eng = s.eng := rfl
@[simp] theorem popTurn_tabs (s : State) : s.popTurn.tabs = s.tabs := rfl
@[simp] theorem popTurn_cs (s : State) : s.popTurn.cs = s.cs := rfl

end Sys2Proof.Machine
end

