-- ==== Sys2Proof/Tests/Slice0.lean ====
section
/-! SUPPORT. The model's own tests: ill-formed instructions refused, words written out from the spec's encodings decoded, one
step on small states against the spec's examples, and for every statement with hypotheses a state that meets them. -/

namespace Sys2Proof.Tests

open Sys2Proof Sys2Proof.Machine

/-! ### Helpers -/

/-- A field of the next state, if there is one. -/
def after {α : Type} (o : Host.Outcome State Fault Refusal) (f : State → α) : Option α :=
  match o with
  | .next t => some (f t)
  | .fault _ => none
  | .refused _ => none

/-- Right after an accepted START with MAX_CODE = `mc`, with beats at the input port. -/
def busy (d : Dir) (st : Strategy) (mc : Word) (q : List Beat) : State :=
  { startOperation d st mc (startReport d st State.reset) with
    regs.maxCode := mc, regs.dir := d, regs.strat := st, env := { Env.reset with inq := q } }

/-- A FIXED16 decompress that has received the codes 65, 66 and 257 of 43_decompress.md R197. -/
def decAfter257 : State :=
  let s := busy .decompress .fixed16 32767 []
  { s with
    eng.nextCode := 259, eng.prevValid := true, eng.prev := 257, eng.prevFirst := 0x41,
    tabs.dec := [(257, (65, 0x42)), (258, (66, 0x41))] }

/-- A FIXED16 decompress that has received the codes 65 and 66. -/
def decAfter66 : State :=
  let s := busy .decompress .fixed16 32767 []
  { s with
    eng.nextCode := 258, eng.prevValid := true, eng.prev := 66, eng.prevFirst := 0x42,
    tabs.dec := [(257, (65, 0x42))] }

/-- A stopped compress with `[0x41, End]` to deliver (45_host_commands.md R232's example). -/
def draining : State :=
  let s := busy .compress .fixed16 32767 []
  { s with eng.phase := .drain, regs.reason := .inEnd, eng.obuf := [.byte 0x41, .endMark] }

/-- `s` with one pending move. -/
def turn (t : HostTurn) (s : State) : State := { s with env.script := [t] }

/-! ### Ill-formed instructions (30_encoding.md R94, R96, R97) -/

theorem test_wf_reserved_defined_word : (Instr.reserved 0x00000001).wellFormed = false := by decide
theorem test_wf_dict_of_eof : (Instr.dict 256).wellFormed = false := by decide
theorem test_wf_kwkwk_of_literal : (Instr.kwkwk 5).wellFormed = false := by decide
theorem test_wf_bad_of_eof : (Instr.bad 256).wellFormed = false := by decide
theorem test_admitted_dict_at_next_code : (Instr.dict 258).admitted CodeCtx.sample = false := by decide
theorem test_admitted_kwkwk_without_previous :
    (Instr.kwkwk 257).admitted { nextCode := 257, maxCode := 32767, prevValid := false } = false := by decide

/-! ### Decoding (the words of 30_encoding.md R94 byte by byte, the classes of R97) -/

theorem test_decode_nop : decode .cmd32 CodeCtx.sample [0x00, 0x00, 0x00, 0x00] = .instr .nop := by decide
theorem test_decode_startCText : decode .cmd32 CodeCtx.sample [0x01, 0, 0, 0] = .instr .startCText := by decide
theorem test_decode_startDText : decode .cmd32 CodeCtx.sample [0x11, 0, 0, 0] = .instr .startDText := by decide
theorem test_decode_startCF16 : decode .cmd32 CodeCtx.sample [0x21, 0, 0, 0] = .instr .startCF16 := by decide
theorem test_decode_startDF16 : decode .cmd32 CodeCtx.sample [0x31, 0, 0, 0] = .instr .startDF16 := by decide
theorem test_decode_startCFw : decode .cmd32 CodeCtx.sample [0x41, 0, 0, 0] = .instr .startCFw := by decide
theorem test_decode_startDFw : decode .cmd32 CodeCtx.sample [0x51, 0, 0, 0] = .instr .startDFw := by decide
theorem test_decode_startCAd : decode .cmd32 CodeCtx.sample [0x61, 0, 0, 0] = .instr .startCAd := by decide
theorem test_decode_startDAd : decode .cmd32 CodeCtx.sample [0x71, 0, 0, 0] = .instr .startDAd := by decide
theorem test_decode_abort : decode .cmd32 CodeCtx.sample [0x02, 0, 0, 0] = .instr .abort := by decide
theorem test_decode_clear : decode .cmd32 CodeCtx.sample [0x03, 0, 0, 0] = .instr .clear := by decide
theorem test_decode_reserved_mbz :
    decode .cmd32 CodeCtx.sample [0x81, 0, 0, 0] = .instr (.reserved 0x00000081) := by decide
theorem test_decode_reserved_high_byte :
    decode .cmd32 CodeCtx.sample [0x01, 0, 0, 0x80] = .instr (.reserved 0x80000001) := by decide
theorem test_decode_lit : decode .code16 CodeCtx.sample [0xFF, 0x00] = .instr (.lit 0xFF) := by decide
theorem test_decode_eof : decode .code16 CodeCtx.sample [0x00, 0x01] = .instr .eof := by decide
theorem test_decode_dict : decode .code16 CodeCtx.sample [0x01, 0x01] = .instr (.dict 257) := by decide
theorem test_decode_kwkwk : decode .code16 CodeCtx.sample [0x02, 0x01] = .instr (.kwkwk 258) := by decide
theorem test_decode_bad : decode .code16 CodeCtx.sample [0x03, 0x01] = .instr (.bad 259) := by decide
theorem test_decode_kwkwk_full_is_bad :
    decode .code16 { nextCode := 258, maxCode := 257, prevValid := true } [0x02, 0x01] = .instr (.bad 258) := by decide
theorem test_decode_short_word : decode .cmd32 CodeCtx.sample [0x01] = .reject (.commandLength 1) := by decide

/-! ### Commands, one step each (45_host_commands.md; STATUS as 10_state.md R26) -/

theorem test_nop_leaves_status : after (exec .nop draining) State.statusWord = some 0x221 := by decide
theorem test_startCText_status : after (exec .startCText State.reset) State.statusWord = some 0x001 := by decide
theorem test_startDText_status : after (exec .startDText State.reset) State.statusWord = some 0x101 := by decide
theorem test_startCF16_status : after (exec .startCF16 State.reset) State.statusWord = some 0x201 := by decide
theorem test_startDF16_status : after (exec .startDF16 State.reset) State.statusWord = some 0x301 := by decide
/-- R229's example: MAX_CODE = 32767. -/
theorem test_startCFw_status : after (exec .startCFw State.reset) State.statusWord = some 0x401 := by decide
theorem test_startCFw_width :
    after (exec .startCFw State.reset) (fun t => (t.eng.aMc, t.cs.width, t.eng.nextCode)) = some (32767, 15, 257) := by
  decide
theorem test_startDFw_status : after (exec .startDFw State.reset) State.statusWord = some 0x501 := by decide
theorem test_startCAd_status : after (exec .startCAd State.reset) State.statusWord = some 0x601 := by decide
theorem test_startDAd_width : after (exec .startDAd State.reset) (fun t => t.cs.width) = some 9 := by decide
/-- R230's example: MAX_CODE = 0x10000 and the word 0x21. -/
theorem test_startCF16_cfg_error :
    after (exec .startCF16 { State.reset with regs.maxCode := 0x10000 })
      (fun t => (t.statusWord, t.regs.errInfo, t.regs.irqStatus, t.eng.nextCode)) =
      some (0x276, 0x10000, 3, 257) := by decide
/-- R229: FIXEDW refuses 255. -/
theorem test_startDFw_refuses_255 :
    after (exec .startDFw { State.reset with regs.maxCode := 255 }) (fun t => (t.eng.phase, t.regs.reason)) =
      some (.idle, .cfgError) := by decide
/-- R232's example: ABORT in DRAIN keeps IN_END and discards `[0x41, End]`. -/
theorem test_abort_in_drain :
    after (exec .abort draining) (fun t => (t.statusWord, t.eng.obuf, t.regs.irqStatus)) = some (0x222, [], 1) := by
  decide
theorem test_abort_idle : after (exec .abort State.reset) (fun t => t) = some State.reset := by decide
/-- R233's example: after a BAD_CODE completion CLEAR leaves `DIR<<8 | STRAT<<9`. -/
theorem test_clear_after_bad_code :
    after (exec .clear { State.reset with
      regs.done := true, regs.err := true, regs.reason := .badCode, regs.dir := .decompress,
      regs.strat := .fixed16, regs.errInfo := 0x102 }) (fun t => (t.statusWord, t.regs.errInfo)) =
      some (0x300, 0) := by decide
theorem test_clear_busy : after (exec .clear draining) (fun t => (t.statusWord, t.regs.irqStatus)) =
    some (0x221, 4) := by decide
/-- R235's example: 0x81 sets CMD_IRQ and starts nothing. -/
theorem test_reserved_sets_cmd_irq :
    after (exec (.reserved 0x81) State.reset) (fun t => (t.regs.irqStatus, t.eng.phase)) = some (4, .idle) := by decide

/-! ### Code classes, one step each (43_decompress.md R187, R197; 60_exceptions.md R254) -/

/-- R187's example: after 65, the code 66. -/
theorem test_lit_inserts :
    after (exec (.lit 0x42) { busy .decompress .fixed16 32767 [] with
        eng.prevValid := true, eng.prev := 65, eng.prevFirst := 0x41 })
      (fun t => (t.eng.obuf, Memory.read t.tabs.dec 257, t.eng.nextCode, t.eng.prev)) =
      some ([.byte 0x42], some (65, 0x42), 258, 66) := by decide
/-- R197's third row. -/
theorem test_dict_emits_and_inserts :
    after (exec (.dict 257) decAfter66)
      (fun t => (t.eng.obuf, Memory.read t.tabs.dec 258, t.eng.nextCode, t.eng.prev)) =
      some ([.byte 0x41, .byte 0x42], some (66, 0x41), 259, 257) := by decide
/-- R197's fourth row. -/
theorem test_kwkwk_emits_and_inserts :
    after (exec (.kwkwk 259) decAfter257)
      (fun t => (t.eng.obuf, Memory.read t.tabs.dec 259, t.eng.nextCode, t.eng.prev)) =
      some ([.byte 0x41, .byte 0x42, .byte 0x41], some (257, 0x41), 260, 259) := by decide
/-- R197's last row. -/
theorem test_eof_stops :
    after (exec .eof decAfter257) (fun t => (t.eng.phase, t.regs.reason, t.eng.obuf)) =
      some (.drain, .eofCode, [.endMark]) := by decide
/-- R254's example: code 258 with `next_code = 257`. -/
theorem test_bad_stops :
    after (exec (.bad 258) (busy .decompress .fixed16 32767 []))
      (fun t => (t.eng.phase, t.regs.reason, t.regs.errInfo, t.eng.obuf)) =
      some (.drain, .badCode, 0x102, [.endMark]) := by decide
/-- R207: the string of 259 is undefined at `next_code = 258`, whatever an earlier operation left in `DEC` (R216). -/
theorem test_dict_of_old_entry_faults :
    (match exec (.dict 259) { decAfter66 with tabs.dec := [(257, (65, 0x42)), (259, (65, 0x41))] } with
      | .fault (.undefinedString k) => decide (k = 259)
      | _ => false) = true := by decide
theorem test_dict_of_undefined_entry_faults :
    (match exec (.dict 300) (busy .decompress .fixed16 32767 []) with
      | .fault (.undefinedString k) => decide (k = 300)
      | _ => false) = true := by decide

/-! ### Engine steps -/

/-- 42_compress.md R171's example: `cur = 65`, byte 0x42, a miss. -/
theorem test_compress_miss :
    after (step { busy .compress .fixed16 32767 [.byte 0x42] with eng.curValid := true, eng.cur := 65 })
      (fun t => (t.eng.obuf, t.tabs.enc, t.eng.cur, t.eng.nextCode)) =
      some ([.byte 0x41, .byte 0x00], [(65 * 256 + 0x42, 257)], 66, 258) := by decide
/-- 42_compress.md R175: the empty input at FIXEDW 15 bits gives `00 01`. -/
theorem test_compress_end_empty :
    after (step (busy .compress .fixedw 32767 [.endMark])) (fun t => (t.eng.obuf, t.regs.reason)) =
      some ([.byte 0x00, .byte 0x01, .endMark], .inEnd) := by decide
/-- 60_exceptions.md R255's example ends at 0x61. -/
theorem test_text_format :
    after (step (busy .decompress .text 32767 [.byte 0x61])) (fun t => (t.regs.reason, t.regs.errInfo)) =
      some (.textFormat, 0x61) := by decide
/-- 41_code_stream.md R142's example. -/
theorem test_bump_to_512 :
    (let c := bump 32767 { sessionInit .adaptive 32767 with currentCode := 511 }
     (c.currentCode, c.nextBump, c.width)) = (512, 1024, 10) := by decide
/-- 41_code_stream.md R138's example: width 9, code 65. -/
theorem test_pack_write : (let r := packWrite 65 (sessionInit .adaptive 300)
    (r.1, r.2.acc, r.2.nbits)) = ([0x41], 0, 1) := by decide
/-- 41_code_stream.md R144's example: the ADAPTIVE bytes `41 00 02` are the codes 65 and 256. -/
theorem test_read_adaptive :
    (readCodes .adaptive 32767 [0x41, 0x00, 0x02] (sessionInit .adaptive 32767)).map (fun q => q.1) =
      some [65, 256] := by decide
/-- 41_code_stream.md R134: 65535 in Text. -/
theorem test_text_write : textBytes 65535 = [0x36, 0x35, 0x35, 0x33, 0x35, 0x0A] := by decide
/-- 44_dictionary_tables.md R211: the reference hash is `(c << 8) XOR p`. -/
theorem test_hash_reference : encHash Config.reference 0x0141 0x42 = 0x4341 := by decide
/-- 10_state.md R28, R36: a 1 clears its bit, and the line follows the enabled bits. -/
theorem test_w1c :
    after (step (turn (.regWrite 0x10 0xF 0x1) { State.reset with regs.irqStatus := 3, regs.irqEn := 2 }))
      (fun t => (t.regs.irqStatus, t.irq)) = some (2, true) := by decide
/-- 20_memory.md R67, 60_exceptions.md R250: the delivery of End completes. -/
theorem test_drain_end :
    after (step { draining with eng.obuf := [.endMark] }) (fun t => (t.statusWord, t.regs.irqStatus, t.env.delivered)) =
      some (0x222, 1, [.endMark]) := by decide

/-! ### The invariants hold of running operations -/

theorem wit_defined_dec66 : DecDefined decAfter66.tabs.dec decAfter66.eng.nextCode.toNat := by
  intro k h1 h2
  have h2 : k < 258 := h2
  obtain rfl : k = 257 := by omega
  exact ⟨65, 0x42, by decide, by decide, by decide⟩

theorem wit_defined_dec257 : DecDefined decAfter257.tabs.dec decAfter257.eng.nextCode.toNat := by
  intro k h1 h2
  have h2 : k < 259 := h2
  obtain rfl | rfl : k = 257 ∨ k = 258 := by omega
  · exact ⟨65, 0x42, by decide, by decide, by decide⟩
  · exact ⟨66, 0x41, by decide, by decide, by decide⟩

theorem wit_decInv_dec257 : DecInv decAfter257 where
  entry := wit_defined_dec257
  prev := fun _ => by decide
  prevFirst := fun _ => ⟨[0x42], .entry 257 65 0x42 [0x41] (by decide) (by decide) (.literal 65 0x41 (by decide))⟩
  first := fun h => nomatch h

theorem wit_busy_engine (d : Dir) (st : Strategy) (q : List Beat) : EngineInv (busy d st 32767 q) := by
  refine ⟨fun _ => le_refl 32767, fun _ _ => (by decide : 256 ≤ 32767), fun _ => (by decide : 257 ≤ 257 ∧ 257 ≤ 32768),
    fun _ _ => ⟨?_, ?_, ?_, ?_⟩,
    fun _ _ => ⟨?_, ?_, ?_, ?_⟩⟩
  · intro p c k hk; simp [encLookup, busy, startOperation, csInit] at hk
  · intro p c p' c' k hk; simp [encLookup, busy, startOperation, csInit] at hk
  · intro k h1 h2; have h2 : k.toNat < 257 := h2; omega
  · intro h; exact absurd h (by simp [busy, startOperation, csInit])
  · intro k h1 h2; have h2 : k < 257 := h2; omega
  · intro h; exact absurd h (by simp [busy, startOperation, csInit])
  · intro h; exact absurd h (by simp [busy, startOperation, csInit])
  · intro _; rfl

theorem wit_busy_session (d : Dir) (st : Strategy) (q : List Beat) : SessionInv (busy d st 32767 q) :=
  fun _ => sessionInit_ok d st 32767 (fun _ => by decide)

theorem wit_busy_fit (d : Dir) (st : Strategy) (q : List Beat) : FitInv (busy d st 32767 q) := by
  intro _ _ _
  show (257 : Nat) ≤ 256 + 1
  omega

theorem wit_busy_report (d : Dir) (st : Strategy) (q : List Beat) : ReportInv (busy d st 32767 q) :=
  { idle := fun h => nomatch h
    run := fun _ => ⟨rfl, rfl⟩
    drain := fun h => nomatch h
    busy := fun _ => ⟨rfl, rfl, rfl, rfl⟩
    finished := fun h => nomatch h
    fresh := fun h => nomatch h }

theorem wit_busy_inv (d : Dir) (st : Strategy) (q : List Beat) : Inv (busy d st 32767 q) :=
  ⟨(by decide : Config.reference.legal = true), wit_busy_report d st q, ⟨rfl, rfl⟩, wit_busy_engine d st q, wit_busy_session d st q,
    wit_busy_fit d st q⟩

theorem wit_draining_report : ReportInv draining :=
  { idle := fun h => nomatch h
    run := fun h => nomatch h
    drain := fun _ => ⟨rfl, rfl⟩
    busy := fun _ => ⟨rfl, rfl, rfl, rfl⟩
    finished := fun h => nomatch h
    fresh := fun h => nomatch h }

/-! ### Witnesses: for every statement with hypotheses, a case that meets them -/

theorem wit_CommandWordsDecode : (0x00000081 : Word) ∉ definedWords := by decide
theorem wit_CodeClassesDecode :
    (255 : Code).toNat = (255 : Byte).toNat ∧ (256 : Code).toNat = 256 ∧
    (257 ≤ (257 : Code).toNat ∧ (257 : Code).toNat < CodeCtx.sample.nextCode.toNat) ∧
    (257 ≤ (258 : Code).toNat ∧ (258 : Code).toNat = CodeCtx.sample.nextCode.toNat ∧
      CodeCtx.sample.prevValid = true ∧ CodeCtx.sample.nextCode.toNat ≤ CodeCtx.sample.maxCode.toNat) ∧
    (257 ≤ (259 : Code).toNat ∧ CodeCtx.sample.nextCode.toNat ≤ (259 : Code).toNat ∧
      (259 : Code).toNat ≠ CodeCtx.sample.nextCode.toNat) := by decide
theorem wit_DecodeOfEncode :
    (Instr.dict 257).wellFormed = true ∧ (Instr.dict 257).admitted CodeCtx.sample = true ∧
    (Instr.kwkwk 258).wellFormed = true ∧ (Instr.kwkwk 258).admitted CodeCtx.sample = true ∧
    (Instr.bad 65535).wellFormed = true ∧ (Instr.bad 65535).admitted CodeCtx.sample = true ∧
    (Instr.reserved 0xFFFFFFFF).wellFormed = true := by decide
theorem wit_EncodeOfDecode :
    decode .cmd32 CodeCtx.sample [0xFF, 0xFF, 0xFF, 0xFF] = .instr (.reserved 0xFFFFFFFF) ∧
    decode .code16 CodeCtx.sample [0xFF, 0xFF] = .instr (.bad 65535) := by decide

theorem wit_StepRunsWrittenCommand :
    (let s := turn (.regWrite 0x0B 1 0x00000003) draining
     s.cfg.legal = true ∧ s.env.rstN = true ∧ s.env.script = [.regWrite 0x0B 1 0x00000003] ∧ 0x0B ≤ 0x0B ∧
       (1 : BitVec 4) ≠ 0 ∧ decode .cmd32 CodeCtx.sample (leBytes 4 (0x00000003 : Word).toNat) = .instr .clear) := by
  decide
theorem wit_PlacedWordRuns :
    State.reset.cfg.legal = true ∧ decodeTableWord 32 0x61 = some .startCAd ∧
      decodeTableWord 16 0x0101 = some (.dict 257) ∧ decodeTableWord 16 0x0102 = some (.kwkwk 258) := by decide

theorem wit_canConsume (d : Dir) (st : Strategy) (q : List Beat) : (busy d st 32767 q).canConsume :=
  ⟨(by decide : Config.reference.legal = true), rfl, rfl, rfl, rfl⟩
theorem wit_StepReadsBeat_byte :
    readByte .fixed16 0x41 (sessionInit .fixed16 32767) =
      .noCode { sessionInit .fixed16 32767 with acc := 0x41, nbits := 8 } ∧
    readByte .text 0x0A (sessionInit .text 32767) = .formatError ∧
    (∃ c, readByte .fixed16 0x01 { sessionInit .fixed16 32767 with acc := 0, nbits := 8 } = .code 256 c) ∧
    (∃ c, readByte .fixed16 0x00 { sessionInit .fixed16 32767 with acc := 0x41, nbits := 8 } = .code 65 c) :=
  ⟨by decide, by decide, ⟨_, rfl⟩, ⟨_, rfl⟩⟩
theorem wit_StepReadsBeat (b : Beat) :
    (busy .decompress .text 32767 [b]).canConsume ∧ (busy .decompress .text 32767 [b]).eng.aDir = .decompress ∧
      (busy .decompress .text 32767 [b]).env.inq = [b] :=
  ⟨wit_canConsume .decompress .text [b], rfl, rfl⟩
theorem wit_StepDrainsBeat :
    draining.cfg.legal = true ∧ draining.engineNext = true ∧ draining.env.rstN = true ∧ draining.env.outReady = true ∧
      draining.eng.obuf = [.byte 0x41, .endMark] := by decide
theorem wit_StepDrainsBeat_end :
    (let s := { draining with eng.obuf := [.endMark] }
     s.cfg.legal = true ∧ s.engineNext = true ∧ s.env.rstN = true ∧ s.env.outReady = true ∧
       s.eng.obuf = [.endMark]) := by decide
theorem wit_StepWaits :
    (State.reset.cfg.legal = true ∧ State.reset.engineNext = true ∧ State.reset.eng.phase ≠ .run ∧
      State.reset.eng.obuf = []) ∧
    (let s := { draining with env.outReady := false }
     s.cfg.legal = true ∧ s.engineNext = true ∧ s.eng.obuf ≠ [] ∧ s.env.outReady = false) ∧
    (let s := busy .compress .adaptive 32767 []
     s.cfg.legal = true ∧ s.engineNext = true ∧ s.eng.obuf = [] ∧ s.env.inq = []) := by decide

theorem wit_RegisterReadValues : State.reset.env.rstN = true ∧ 3 < 4 := by decide
theorem wit_RegisterReadHasNoSideEffect :
    (turn (.regRead 0x3F) State.reset).cfg.legal = true ∧
      (turn (.regRead 0x3F) State.reset).env.script = [.regRead 0x3F] ∧ 0x3F < 64 := by decide
theorem wit_RegisterWrites :
    (turn (.regWrite 0x07 0x8 0xFFFFFFFF) State.reset).cfg.legal = true ∧
      (turn (.regWrite 0x07 0x8 0xFFFFFFFF) State.reset).env.rstN = true ∧ (0x8 : BitVec 4) ≠ 0 ∧
      0x07 / 4 = 1 ∧ 0x13 / 4 = 4 ∧ 0x14 / 4 = 5 ∧ (0x3F / 4 < 16 ∧ 0x3F / 4 ≠ 1 ∧ 0x3F / 4 ≠ 2 ∧ 0x3F / 4 ≠ 4 ∧
      0x3F / 4 ≠ 5) := by decide
theorem wit_IrqLine : State.reset.env.rstN = true := rfl
theorem wit_ResetAbandonsOperation :
    (turn (.rst false) draining).cfg.legal = true ∧ (turn (.rst false) draining).env.script = [.rst false] := by decide
theorem wit_ResetAbandonsOperation_release :
    (let s := turn (.rst true) { draining with env.rstN := false }
     s.cfg.legal = true ∧ s.env.script = [.rst true] ∧ s.env.rstN = false) ∧
    (let s := turn (.rst true) draining
     s.cfg.legal = true ∧ s.env.script = [.rst true] ∧ s.env.rstN = true) := by decide
theorem wit_InResetNothingMoves :
    (let s := turn (.regWrite 0x04 0xF 1) { draining with env.rstN := false }
     s.cfg.legal = true ∧ s.env.rstN = false ∧ s.env.script = [.regWrite 0x04 0xF 1] ∧ 0x04 < 64 ∧
       (0xF : BitVec 4) ≠ 0) ∧ State.engineNext { draining with env.rstN := false } = true := by decide

theorem wit_StartBeginsOperation :
    State.reset.eng.phase = .idle ∧ State.reset.regs.maxCode.toNat ≤ State.reset.cfg.maxCodeCap.toNat ∧
      256 ≤ State.reset.regs.maxCode.toNat := by decide
theorem wit_StartConfigError :
    (let s := { State.reset with regs.maxCode := 32768 }
     s.eng.phase = .idle ∧ s.cfg.maxCodeCap.toNat < s.regs.maxCode.toNat) ∧
    (let s := { State.reset with regs.maxCode := 255 }
     s.eng.phase = .idle ∧ s.regs.maxCode.toNat < 256) := by decide
theorem wit_StartWhileBusyRejected : draining.eng.phase ≠ .idle := by decide
theorem wit_AbortEndsOperation : State.reset.eng.phase = .idle ∧ draining.eng.phase ≠ .idle ∧
    (busy .compress .text 0 []).eng.phase = .run := by decide
theorem wit_ClearResetsReport : State.reset.eng.phase = .idle ∧ draining.eng.phase ≠ .idle := by decide
theorem wit_CommandFrames : Instr.clear.format = .cmd32 ∧ exec .clear State.reset = .next (clearIdle State.reset) ∧
    Instr.clear ≠ .abort ∧ ∀ d st, Instr.clear ≠ Instr.start d st :=
  ⟨rfl, rfl, by decide, fun d st => by cases d <;> cases st <;> decide⟩
theorem wit_DictionaryCode :
    DecDefined decAfter66.tabs.dec decAfter66.eng.nextCode.toNat ∧ 257 ≤ (257 : Code).toNat ∧
      (257 : Code).toNat < decAfter66.eng.nextCode.toNat :=
  ⟨wit_defined_dec66, by decide, by decide⟩
theorem wit_KwkwkCode :
    DecInv decAfter257 ∧ DecDefined decAfter257.tabs.dec decAfter257.eng.nextCode.toNat ∧ decAfter257.eng.prevValid = true ∧
      decAfter257.eng.prev.toNat < decAfter257.eng.nextCode.toNat ∧ decAfter257.eng.prev.toNat ≠ 256 ∧ 257 ≤ (259 : Code).toNat ∧
      (259 : Code).toNat = decAfter257.eng.nextCode.toNat ∧
      decAfter257.eng.nextCode.toNat ≤ decAfter257.eng.aMc.toNat :=
  ⟨wit_decInv_dec257, wit_defined_dec257, by decide, by decide, by decide, by decide, by decide, by decide⟩
theorem wit_CodeFrames : (Instr.lit 0).format = .code16 ∧ ∃ t, exec (.lit 0) decAfter66 = .next t :=
  ⟨rfl, _, rfl⟩
theorem wit_StringLengthBound :
    (busy .decompress .text 32767 []).cfg.legal = true ∧ EngineInv (busy .decompress .text 32767 []) ∧
      (busy .decompress .text 32767 []).eng.phase ≠ .idle ∧ (busy .decompress .text 32767 []).eng.aDir = .decompress ∧
      ∃ t, exec (classify (busy .decompress .text 32767 []).codeCtx 65) (busy .decompress .text 32767 []) = .next t :=
  ⟨by decide, wit_busy_engine _ _ _, by decide, rfl, _, rfl⟩
theorem wit_StringLengthBound_code :
    257 ≤ (257 : Code).toNat ∧ (257 : Code).toNat < decAfter66.eng.nextCode.toNat ∧
      StrOf decAfter66.tabs.dec 257 [0x41, 0x42] :=
  ⟨by decide, by decide, .entry 257 65 0x42 [0x41] (by decide) (by decide) (.literal 65 0x41 (by decide))⟩

theorem wit_StepCompressesByte :
    (busy .compress .fixed16 32767 [.byte 0x42]).canConsume ∧
      (busy .compress .fixed16 32767 [.byte 0x42]).eng.aDir = .compress ∧
      (busy .compress .fixed16 32767 [.byte 0x42]).env.inq = [.byte 0x42] ∧
      (busy .compress .fixed16 32767 [.byte 0x42]).eng.curValid = false :=
  ⟨wit_canConsume _ _ _, rfl, rfl, rfl⟩
theorem wit_StepCompressesByte_match :
    (let s := { busy .compress .fixed16 32767 [.byte 0x42] with
        eng.curValid := true, eng.cur := 65, eng.nextCode := 258, tabs.enc := [(encKey 65 0x42, 257)] }
     s.eng.curValid = true ∧ encLookup s.eng.cur 0x42 s = some 257 ∧ encLookup s.eng.cur 0x43 s = none ∧
       s.eng.nextCode.toNat ≤ s.eng.aMc.toNat) ∧
    (let s := { busy .compress .fixed16 256 [.byte 0x42] with eng.curValid := true, eng.cur := 65 }
     encLookup s.eng.cur 0x42 s = none ∧ s.eng.aMc.toNat < s.eng.nextCode.toNat) := by decide
theorem wit_StepFinalisesCompress (b : Beat) :
    (busy .compress .adaptive 32767 [b]).canConsume ∧ (busy .compress .adaptive 32767 [b]).eng.aDir = .compress ∧
      (busy .compress .adaptive 32767 [b]).env.inq = [b] :=
  ⟨wit_canConsume _ _ _, rfl, rfl⟩

theorem wit_TextReaderGrammar :
    ((0x39 : Byte).toNat = 0x30 + 9 ∧ (0 : BitVec 17).toNat * 10 + 9 ≤ 65535) ∧
    ((0x36 : Byte).toNat = 0x30 + 6 ∧ 65535 < (6553 : BitVec 17).toNat * 10 + 6) ∧
    ((0x3A : Byte) ≠ 0x0A ∧ 0x39 < (0x3A : Byte).toNat) ∧ ((0x2F : Byte) ≠ 0x0A ∧ (0x2F : Byte).toNat < 0x30) := by
  decide
theorem wit_WidthLockStep :
    ∃ js c, readCodes .fixed16 32767 [0x41, 0x00] (sessionInit .fixed16 32767) = some (js, c) ∧ js.length = [(0 : Code)].length :=
  ⟨_, _, rfl, rfl⟩
theorem wit_PackedBitPositions :
    256 ≤ (256 : Code).toNat ∧ [(65 : Code), 256][1]? = some 256 ∧ 8 < codeWidth .adaptive 256 1 ∧
      8 < codeWidth .fixedw 256 1 := by decide
theorem wit_StreamLengths : 256 ≤ (256 : Code).toNat := by decide
theorem wit_CodeStreamRoundTrip :
    256 ≤ (256 : Code).toNat ∧ ∀ st : Strategy, ∀ (i : Nat) (k : Code), [(256 : Code)][i]? = some k →
      k.toNat < 2 ^ codeWidth st 256 i := by
  refine ⟨by decide, ?_⟩
  intro st i k h
  cases i with
  | zero =>
    obtain rfl : (256 : Code) = k := by simpa using h
    cases st <;> decide
  | succ i => simp at h
theorem wit_WrittenCodeFitsWidth :
    EngineInv (busy .compress .fixedw 32767 []) ∧ SessionInv (busy .compress .fixedw 32767 []) ∧
      FitInv (busy .compress .fixedw 32767 []) ∧ (busy .compress .fixedw 32767 []).eng.phase = .run ∧
      (busy .compress .fixedw 32767 []).eng.aDir = .compress ∧ (busy .compress .fixedw 32767 []).eng.aStrat = .fixedw :=
  ⟨wit_busy_engine _ _ _, wit_busy_session _ _ _, wit_busy_fit _ _ _, rfl, rfl, rfl⟩

theorem wit_LookupEngineMatchesMap :
    Config.reference.legal = true ∧ [((65 : Code), (0x42 : Byte)), (66, 0x41)].Nodup ∧
      [((65 : Code), (0x42 : Byte)), (66, 0x41)].length ≤ Config.reference.maxCodeCap.toNat - 256 := by decide
theorem wit_LookupEngineMatchesMap_decode :
    Config.reference.legal = true ∧ [((66 : Code), (0x41 : Byte)), (65, 0x42)].length ≤ Config.reference.maxCodeCap.toNat - 256 ∧
      257 ≤ 258 ∧ 258 < 257 + [((66 : Code), (0x41 : Byte)), (65, 0x42)].length := by decide
theorem wit_MachineLookupsArePhysical_decode :
    (busy .decompress .text 32767 []).cfg.legal = true ∧ EngineInv (busy .decompress .text 32767 []) ∧
      (busy .decompress .text 32767 []).eng.phase ≠ .idle ∧ (busy .decompress .text 32767 []).eng.aDir = .decompress :=
  ⟨by decide, wit_busy_engine _ _ _, by decide, rfl⟩
theorem wit_MachineLookupsArePhysical :
    (busy .compress .text 32767 []).cfg.legal = true ∧ EngineInv (busy .compress .text 32767 []) ∧
      (busy .compress .text 32767 []).eng.phase ≠ .idle ∧ (busy .compress .text 32767 []).eng.aDir = .compress :=
  ⟨by decide, wit_busy_engine _ _ _, by decide, rfl⟩

/-- The state of the invariants' witnesses takes a step. -/
theorem wit_busy_steps : ∃ t, step (busy .compress .fixed16 32767 [.byte 0x41]) = .next t ∧ t.eng.phase = .run :=
  ⟨_, rfl, rfl⟩
theorem wit_TablesStayCanonical : TablesCanonical (busy .compress .fixed16 32767 [.byte 0x41]) := ⟨rfl, rfl⟩
theorem wit_ReportStaysConsistent : ReportInv (busy .compress .fixed16 32767 [.byte 0x41]) := wit_busy_report _ _ _
theorem wit_DictionaryInvariantKept : EngineInv (busy .compress .fixed16 32767 [.byte 0x41]) := wit_busy_engine _ _ _
theorem wit_SessionInvariantKept :
    EngineInv (busy .compress .fixed16 32767 [.byte 0x41]) ∧ SessionInv (busy .compress .fixed16 32767 [.byte 0x41]) ∧
      FitInv (busy .compress .fixed16 32767 [.byte 0x41]) :=
  ⟨wit_busy_engine _ _ _, wit_busy_session _ _ _, wit_busy_fit _ _ _⟩
theorem wit_NoStepStops : Inv (busy .decompress .adaptive 32767 [.byte 0x41]) ∧
    (∀ turn, (busy .decompress .adaptive 32767 [.byte 0x41]).env.script.head? = some turn → turn.admissible = true) :=
  ⟨wit_busy_inv _ _ _, fun _ h => by cases h⟩
theorem wit_NoStepStops_refused :
    Inv (busy .compress .text 32767 []) ∧ (turn (.regRead 64) State.reset).env.script = [.regRead 64] ∧
      64 ≤ 64 ∧ 63 < 64 :=
  ⟨wit_busy_inv _ _ _, rfl, le_refl _, by decide⟩

theorem wit_PhaseTransitions : ReportInv draining ∧
    ∃ t, step (turn (.regWrite 0x08 0xF 0x00000002) draining) = .next t ∧
      t.eng.phase ≠ (turn (.regWrite 0x08 0xF 0x00000002) draining).eng.phase :=
  ⟨wit_draining_report, _, rfl, by decide⟩
theorem wit_DoneSetInThreePlaces :
    ∃ t, step { draining with eng.obuf := [.endMark] } = .next t ∧ draining.regs.done = false ∧ t.regs.done = true :=
  ⟨_, rfl, rfl, rfl⟩
theorem wit_IrqClearedByHostOnly :
    ∃ t, step (turn (.regWrite 0x10 0xF 4) { State.reset with regs.irqStatus := 4 }) = .next t ∧
      (4 : BitVec 3).getLsbD 2 = true ∧ t.regs.irqStatus.getLsbD 2 = false :=
  ⟨_, rfl, by decide, by decide⟩
theorem wit_ConfigurationLatched :
    ∃ t, step (turn (.regWrite 0x04 0xF 5) draining) = .next t ∧ draining.eng.phase ≠ .idle ∧ t.eng.phase ≠ .idle ∧
      t.regs.maxCode = 5 :=
  ⟨_, rfl, by decide, by decide, rfl⟩
theorem wit_ParametersConstant : ∃ t, step State.reset = .next t := ⟨_, rfl⟩
theorem wit_EntriesWrittenOnce :
    ∃ t, step { busy .compress .fixed16 32767 [.byte 0x42] with eng.curValid := true, eng.cur := 65 } = .next t ∧
      t.eng.phase ≠ .idle ∧ t.eng.nextCode = 258 :=
  ⟨_, rfl, by decide, by decide⟩
theorem wit_PortsMoveOneBeat : ∃ t, step draining = .next t ∧ draining.engineNext = true ∧
    t.env.delivered = [.byte 0x41] :=
  ⟨_, rfl, rfl, rfl⟩
theorem wit_PortsMoveOneBeat_host :
    (busy .compress .text 32767 []).env.rstN = true ∧
    (let s := turn (.offer 3 0x41) draining
     s.cfg.legal = true ∧ s.env.script = [.offer 3 0x41]) ∧
    (let s := turn .withdraw draining
     s.cfg.legal = true ∧ s.env.script = [.withdraw]) ∧
    (let s := turn (.sinkReady false) draining
     s.cfg.legal = true ∧ s.env.script = [.sinkReady false]) := by decide
theorem wit_DrainCompletes :
    draining.cfg.legal = true ∧ ReportInv draining ∧ draining.eng.phase = .drain ∧ draining.env.rstN = true ∧
      draining.env.outReady = true ∧ draining.env.script = [] :=
  ⟨by decide, wit_draining_report, rfl, rfl, rfl, rfl⟩
theorem wit_OperationsIndependent :
    (let s := turn (commandWrite (Instr.start .decompress .text)) State.reset
     let u := { s with
       cfg := { maxCodeCap := 65535, hashBits := 17, lookupImpl := .cam, stackDepth := 65280 },
       eng.prev := 300, tabs.dec := [(257, (65, 65))] }
     s.ready ∧ u.ready ∧ s.regs.maxCode = u.regs.maxCode ∧ startLegal s.cfg .text s.regs.maxCode = true ∧
       startLegal u.cfg .text u.regs.maxCode = true ∧ s.env = u.env ∧
       s.env.script = [commandWrite (Instr.start .decompress .text)]) :=
  ⟨⟨by decide, rfl, rfl, rfl⟩, ⟨by decide, rfl, rfl, rfl⟩, rfl, by decide, by decide, rfl, rfl⟩
theorem wit_RoundTrip :
    (let s := { State.reset with
       env := { Env.reset with
         inq := sourceOf [0x41], script := [commandWrite (Instr.start .compress .adaptive)] } }
     s.ready ∧ startLegal s.cfg .adaptive s.regs.maxCode = true ∧ s.env.outReady = true ∧ s.env.delivered = [] ∧
       s.env.inq = sourceOf [0x41]) :=
  ⟨⟨by decide, rfl, rfl, rfl⟩, by decide, rfl, rfl, rfl⟩

end Sys2Proof.Tests
end

section
/-! SUPPORT. What a step does, with the pending move that causes it: the engine's moves, and the turns of the host. -/

namespace Sys2Proof.Machine

open Sys2Proof

/-! ### The engine's moves -/

/-- What consuming the beat `b` comes to, from a state whose queue it has left (20_memory.md R68). -/
inductive Consumed (b : Beat) (s : State) : State → Prop where
  | compress (hd : s.eng.aDir = .compress) : Consumed b s (consumeCompress b s)
  | fetched (t : State) (hd : s.eng.aDir = .decompress) (hf : fetchBeat b s = .done t) : Consumed b s t
  | code (x : Byte) (k : Code) (c : CodeStream) (t : State) (hd : s.eng.aDir = .decompress)
      (hf : readByte s.eng.aStrat x s.cs = .code k c)
      (hm : CodeMove k (codeCompleted c (countByteIn s)) t) : Consumed b s t

/-- What an engine step comes to (20_memory.md R67, R68; 60_exceptions.md R268). -/
inductive EngineMove (s : State) : State → Prop where
  | wait : EngineMove s s
  | drain (b : OutBeat) (rest : List OutBeat) (hr : s.env.rstN = true) (ho : s.eng.obuf = b :: rest)
      (hs : s.env.outReady = true) : EngineMove s (drainBeat b rest s)
  | consume (b : Beat) (rest : List Beat) (t : State) (hr : s.env.rstN = true) (ho : s.eng.obuf = [])
      (hp : s.eng.phase = .run) (hi : s.env.inq = b :: rest) (hc : Consumed b { s with env.inq := rest } t) :
      EngineMove s t

/-- The engine waits, drains or consumes. -/
theorem engineMove_cases (s : State) :
    engineMove s = .done s ∨
    (∃ b rest, s.env.rstN = true ∧ s.eng.obuf = b :: rest ∧ s.env.outReady = true ∧
      engineMove s = .done (drainBeat b rest s)) ∨
    (∃ b rest, s.env.rstN = true ∧ s.eng.obuf = [] ∧ s.eng.phase = .run ∧ s.env.inq = b :: rest ∧
      engineMove s = consumeBeat b rest s) := by
  unfold engineMove
  split
  next hr =>
    split
    next b rest ho =>
      split
      next hs => exact .inr (.inl ⟨b, rest, hr, ho, hs, rfl⟩)
      next => exact .inl rfl
    next ho =>
      split
      next hp =>
        split
        next b rest hi => exact .inr (.inr ⟨b, rest, hr, ho, hp, hi, rfl⟩)
        next => exact .inl rfl
      next => exact .inl rfl
  next => exact .inl rfl

/-- What a consuming step answers. -/
theorem consumeBeat_consumed {b : Beat} {rest : List Beat} {s t : State}
    (h : runFetch (consumeBeat b rest s) = .next t) : Consumed b { s with env.inq := rest } t := by
  unfold consumeBeat at h
  cases hd : s.eng.aDir with
  | compress =>
    simp only [hd, runFetch, Host.Outcome.next.injEq] at h
    exact h ▸ .compress hd
  | decompress =>
    simp only [hd] at h
    cases hf : fetchBeat b { s with env.inq := rest } with
    | done u =>
      simp only [hf, runFetch, Host.Outcome.next.injEq] at h
      exact h ▸ .fetched u hd hf
    | code k u =>
      simp only [hf, runFetch] at h
      obtain ⟨x, c, rfl, hc, rfl⟩ := fetchBeat_code hf
      exact .code x k c t hd hc (exec_classify_next k _ t h)

theorem engineStep_engineMove {s t : State} (h : engineStep s = .next t) : EngineMove s t := by
  unfold engineStep at h
  rcases engineMove_cases s with hw | ⟨b, rest, hr, ho, hs, hw⟩ | ⟨b, rest, hr, ho, hp, hi, hw⟩ <;> rw [hw] at h
  · obtain rfl : s = t := by simpa [runFetch] using h
    exact .wait
  · obtain rfl : drainBeat b rest s = t := by simpa [runFetch] using h
    exact .drain b rest hr ho hs
  · exact .consume b rest t hr ho hp hi (consumeBeat_consumed h)

/-! ### The turns of the host -/

/-- Every next state of a step, with the pending move that answers it. -/
inductive StepTurn (s : State) : State → Prop where
  | engine (t : State) (hn : s.engineNext = true) (h : EngineMove s.popTurn t) : StepTurn s t
  /-- A word written to CMD (10_state.md R25). -/
  | command (off : Nat) (m : BitVec 4) (w : Word) (rest : List HostTurn) (t : State)
      (hs : s.env.script = .regWrite off m w :: rest) (hr : s.env.rstN = true) (ho : off / 4 = 2)
      (h : exec (decodeCmd w) s.popTurn = .next t) : StepTurn s t
  /-- A word written elsewhere in the window. -/
  | store (off : Nat) (m : BitVec 4) (d : Word) (rest : List HostTurn)
      (hs : s.env.script = .regWrite off m d :: rest) (hr : s.env.rstN = true) (ho : off / 4 ≠ 2) :
      StepTurn s (writeWord (off / 4) d s.popTurn)
  | reset (level : Bool) (rest : List HostTurn) (hs : s.env.script = .rst level :: rest) :
      StepTurn s (driveReset level s.popTurn)
  /-- Every other move of the host, and an ignored write, touch the environment's part alone. -/
  | envOnly (e : Env) : StepTurn s { s with env := e }

theorem wordIndex_of_inWindow {off : Nat} (h : inWindow off = true) : wordIndex off = off / 4 := by
  simp only [inWindow, decide_eq_true_eq] at h
  unfold wordIndex
  omega

/-- A register write that is no command stores its word, or is ignored. -/
theorem regWrite_done_cases {off : Nat} {m : BitVec 4} {d : Word} {s t : State}
    (h : regWrite off m d s = .done t) :
    t = s ∨ (s.env.rstN = true ∧ off / 4 ≠ 2 ∧ t = writeWord (off / 4) d s) := by
  unfold regWrite at h
  split_ifs at h with hw _ hr hc
  · exact .inl (HostMove.done.inj h).symm
  · rw [wordIndex_of_inWindow (by simpa using hw)] at h hc
    exact .inr ⟨by simpa using hr, hc, (HostMove.done.inj h).symm⟩

/-- Only a write to CMD is a command (10_state.md R25). -/
theorem regWrite_command_word {off : Nat} {m : BitVec 4} {d w : Word} {s : State}
    (h : regWrite off m d s = .command w) : off / 4 = 2 := by
  unfold regWrite at h
  split_ifs at h with hw _ _ hc
  rw [wordIndex_of_inWindow (by simpa using hw)] at hc
  exact hc

/-- What a step does on a pending register write. -/
theorem regWrite_turn {s t : State} {off : Nat} {m : BitVec 4} {d : Word} {rest : List HostTurn}
    (hs : s.env.script = .regWrite off m d :: rest) (h : hostStep (.regWrite off m d) s.popTurn = .next t) :
    StepTurn s t := by
  simp only [hostStep, hostMove] at h
  cases hw : regWrite off m d s.popTurn with
  | done u =>
    simp only [hw, Host.Outcome.next.injEq] at h
    subst h
    rcases regWrite_done_cases hw with rfl | ⟨hr, ho, rfl⟩
    · exact .envOnly s.popTurn.env
    · exact .store off m d rest hs hr ho
  | command w =>
    obtain ⟨hr, rfl⟩ := regWrite_command hw
    simp only [hw] at h
    exact .command off m w rest t hs hr (regWrite_command_word hw) h
  | refused r => simp [hw] at h

theorem step_of_nil {s : State} (hl : s.cfg.legal = true) (hs : s.env.script = []) :
    step s = engineStep s.popTurn := by
  have hpop : s.popTurn = s := by
    unfold State.popTurn
    rw [hs, List.tail_nil, ← hs]
  rw [hpop, step, if_pos hl, hs]

theorem step_of_cons {s : State} {turn : HostTurn} {rest : List HostTurn} (hl : s.cfg.legal = true)
    (hs : s.env.script = turn :: rest) : step s = hostStep turn s.popTurn := by
  rw [step, if_pos hl, hs, State.popTurn, hs]
  rfl

/-- Every next state of a step is one of its pending move's. -/
theorem step_turn {s t : State} (h : step s = .next t) : StepTurn s t := by
  have hl := (step_move h).1
  cases hs : s.env.script with
  | nil =>
    rw [step_of_nil hl hs] at h
    exact .engine t (by simp [State.engineNext, hs]) (engineStep_engineMove h)
  | cons turn rest =>
    rw [step_of_cons hl hs] at h
    cases turn with
    | engine => exact .engine t (by simp [State.engineNext, hs]) (engineStep_engineMove h)
    | regWrite off m d => exact regWrite_turn hs h
    | regRead off =>
      simp only [hostStep, hostMove, regRead] at h
      split_ifs at h
      exact (Host.Outcome.next.inj h) ▸ .envOnly _
    | offer kind data => exact (Host.Outcome.next.inj h) ▸ .envOnly _
    | withdraw => exact (Host.Outcome.next.inj h) ▸ .envOnly _
    | sinkReady level => exact (Host.Outcome.next.inj h) ▸ .envOnly _
    | rst level => exact (Host.Outcome.next.inj h) ▸ .reset level rest hs

end Sys2Proof.Machine
end

section
/-! SUPPORT. What a consuming step leaves alone, and the cases of the two operations that move the dictionary
(42_compress.md R171; 43_decompress.md R189). -/

namespace Sys2Proof.Machine

open Sys2Proof

/-! ### The frame of a consuming step -/

/-- The part of a state that no consuming step touches: the report of the running operation, the counters, the
working registers, the tables and the session are left out. -/
def State.latched (s : State) : State :=
  { s with
    regs := { s.regs with reason := .none, errInfo := 0, codeCount := 0, bytesIn := 0, bytesOut := 0 }
    eng := { Engine.reset with aDir := s.eng.aDir, aStrat := s.eng.aStrat, aMc := s.eng.aMc }
    tabs := Tables.reset
    cs := CodeStream.reset }

/-- What a consuming step leaves alone; the phase stays, or a stop takes it to DRAIN (60_exceptions.md R246). -/
structure OpFrame (s t : State) : Prop where
  phase : t.eng.phase = s.eng.phase ∨ t.eng.phase = .drain
  latched : t.latched = s.latched

section OpFrame

variable {s t u : State}

theorem OpFrame.aDir (h : OpFrame s t) : t.eng.aDir = s.eng.aDir := congrArg (·.eng.aDir) h.latched
theorem OpFrame.aStrat (h : OpFrame s t) : t.eng.aStrat = s.eng.aStrat := congrArg (·.eng.aStrat) h.latched
theorem OpFrame.aMc (h : OpFrame s t) : t.eng.aMc = s.eng.aMc := congrArg (·.eng.aMc) h.latched
theorem OpFrame.cfg (h : OpFrame s t) : t.cfg = s.cfg := congrArg (·.cfg) h.latched
theorem OpFrame.env (h : OpFrame s t) : t.env = s.env := congrArg (·.env) h.latched
theorem OpFrame.irqStatus (h : OpFrame s t) : t.regs.irqStatus = s.regs.irqStatus :=
  congrArg (·.regs.irqStatus) h.latched

theorem OpFrame.refl (s : State) : OpFrame s s := ⟨.inl rfl, rfl⟩

theorem OpFrame.trans (h : OpFrame s t) (g : OpFrame t u) : OpFrame s u :=
  ⟨g.phase.elim (fun e => e ▸ h.phase) .inr, g.latched.trans h.latched⟩

end OpFrame

/-- A stop at the end of a consuming step takes the phase to DRAIN (60_exceptions.md R246). -/
theorem OpFrame.stop {s t : State} (h : OpFrame s t) (r : Reason) (info : Word) :
    OpFrame s (raiseStop r info t) :=
  h.trans ⟨.inr rfl, rfl⟩

/-! ### Compress -/

/-- The arms of COMPRESS.BYTE (42_compress.md R171, R172). -/
inductive ByteMove (c : Byte) (s : State) : State → Prop where
  | first (hv : s.eng.curValid = false) :
      ByteMove c s { s with eng.cur := BitVec.ofNat 16 c.toNat, eng.curValid := true }
  | hit (k : Code) (hk : encLookup s.eng.cur c s = some k) : ByteMove c s { s with eng.cur := k }
  | insert (hv : s.eng.curValid = true) (hk : encLookup s.eng.cur c s = none)
      (hr : s.eng.nextCode.toNat ≤ s.eng.aMc.toNat) :
      ByteMove c s
        { csWrite s.eng.cur (encInsertNext s.eng.cur c s) with eng.cur := BitVec.ofNat 16 c.toNat }
  | full (hr : s.eng.aMc.toNat < s.eng.nextCode.toNat) :
      ByteMove c s { csWrite s.eng.cur s with eng.cur := BitVec.ofNat 16 c.toNat }

theorem State.hasRoom_iff {s : State} : s.hasRoom = true ↔ s.eng.nextCode.toNat ≤ s.eng.aMc.toNat := by
  simp [State.hasRoom]

theorem compressByte_move (c : Byte) (s : State) : ByteMove c s (compressByte c s) := by
  unfold compressByte
  split_ifs with hv
  · cases hk : encLookup s.eng.cur c s with
    | some k => exact .hit k hk
    | none =>
      by_cases hr : s.hasRoom = true
      · simp only [compressMiss, if_pos hr]
        exact .insert hv hk (State.hasRoom_iff.mp hr)
      · simp only [compressMiss, if_neg hr]
        exact .full (by rw [State.hasRoom_iff] at hr; omega)
  · exact .first (by simpa using hv)

theorem ByteMove.frame {c : Byte} {s t : State} (h : ByteMove c s t) : OpFrame s t := by
  cases h <;> exact ⟨.inl rfl, rfl⟩

theorem csFinalize_frame (s : State) : OpFrame s (csFinalize s) := ⟨.inl rfl, rfl⟩

theorem csWrite_frame (k : Code) (s : State) : OpFrame s (csWrite k s) := ⟨.inl rfl, rfl⟩

theorem countByteIn_frame (s : State) : OpFrame s (countByteIn s) := ⟨.inl rfl, rfl⟩

theorem consumeCompress_frame (b : Beat) (s : State) : OpFrame s (consumeCompress b s) := by
  cases b with
  | byte c => exact (countByteIn_frame s).trans (compressByte_move c _).frame
  | endMark =>
    have hw : OpFrame s (if s.eng.curValid then csWrite s.eng.cur s else s) := by
      split_ifs
      · exact csWrite_frame _ s
      · exact .refl s
    exact (hw.trans (csFinalize_frame _)).stop _ _
  | error => exact (csFinalize_frame s).stop _ _

/-! ### Decompress -/

/-- The insert of DECODE, made or not (43_decompress.md R189). -/
theorem decodeInsert_cases (first : Byte) (s : State) :
    (s.eng.prevValid = true ∧ s.eng.nextCode.toNat ≤ s.eng.aMc.toNat ∧
      decodeInsert first s = decWriteNext s.eng.prev first s) ∨ decodeInsert first s = s := by
  unfold decodeInsert
  split_ifs with h
  · rw [Bool.and_eq_true, State.hasRoom_iff] at h
    exact .inl ⟨h.1, h.2, rfl⟩
  · exact .inr rfl

theorem decodeInsert_frame (first : Byte) (s : State) : OpFrame s (decodeInsert first s) := by
  rcases decodeInsert_cases first s with ⟨-, -, e⟩ | e <;> rw [e]
  · exact ⟨.inl rfl, rfl⟩
  · exact .refl s

/-- Writing output and popping the stack before the insert, and the update after it, touch no latch. -/
theorem acceptCode_frame (k : Code) (first : Byte) (rest : List Byte) (s : State) :
    OpFrame s (acceptCode k first rest s) :=
  (show OpFrame s (symWrite first rest s) from ⟨.inl rfl, rfl⟩).trans
    ((decodeInsert_frame first _).trans ⟨.inl rfl, rfl⟩)

theorem CodeMove.frame {k : Code} {u t : State} (h : CodeMove k u t) : OpFrame u t := by
  cases h with
  | eof => exact (OpFrame.refl u).stop _ _
  | bad => exact (OpFrame.refl u).stop _ _
  | lit b => exact acceptCode_frame k b [] u
  | dict first rest =>
    exact (show OpFrame u (stackPopped u) from ⟨.inl rfl, rfl⟩).trans
      (acceptCode_frame k first rest _)
  | kwkwk bs =>
    exact (show OpFrame u (outPushAll (bs ++ [u.eng.prevFirst]) (stackPopped u)) from
      ⟨.inl rfl, rfl⟩).trans
        ((decodeInsert_frame u.eng.prevFirst _).trans ⟨.inl rfl, rfl⟩)

/-- A beat that completes no code: more of a code is held, or a stop is raised (41_code_stream.md R132, R147). -/
inductive FetchMove (b : Beat) (s : State) : State → Prop where
  | more (x : Byte) (c : CodeStream) (hb : b = .byte x) (hc : readByte s.eng.aStrat x s.cs = .noCode c) :
      FetchMove b s { countByteIn s with cs := c }
  | format (x : Byte) (hb : b = .byte x) :
      FetchMove b s (raiseStop .textFormat (BitVec.ofNat 32 x.toNat) (countByteIn s))
  | stop (r : Reason) : FetchMove b s (raiseStop r 0 s)

theorem fetchBeat_done {b : Beat} {s t : State} (h : fetchBeat b s = .done t) : FetchMove b s t := by
  cases b with
  | byte x =>
    simp only [fetchBeat, fetchByte, countByteIn_eng, countByteIn_cs] at h
    cases hr : readByte s.eng.aStrat x s.cs with
    | noCode c => exact Fetch.done.inj (by simpa only [hr] using h) ▸ .more x c rfl hr
    | code k c => simp [hr] at h
    | formatError => exact Fetch.done.inj (by simpa only [hr] using h) ▸ .format x rfl
  | endMark => exact Fetch.done.inj h ▸ .stop .inEnd
  | error => exact Fetch.done.inj h ▸ .stop .inError

theorem FetchMove.frame {b : Beat} {s t : State} (h : FetchMove b s t) : OpFrame s t := by
  cases h with
  | more x c => exact ⟨.inl rfl, rfl⟩
  | format x => exact (countByteIn_frame s).stop _ _
  | stop r => exact (OpFrame.refl s).stop _ _

theorem codeCompleted_frame (c : CodeStream) (s : State) : OpFrame s (codeCompleted c (countByteIn s)) :=
  ⟨.inl rfl, rfl⟩

theorem Consumed.frame {b : Beat} {s t : State} (h : Consumed b s t) : OpFrame s t := by
  cases h with
  | compress => exact consumeCompress_frame b s
  | fetched t hd hf => exact (fetchBeat_done hf).frame
  | code x k c t hd hf hm => exact (codeCompleted_frame c s).trans hm.frame

end Sys2Proof.Machine
end

section
/-! PROOFS. The invariants of an operation are kept by every step (10_state.md R53). -/

namespace Sys2Proof.Machine

open Sys2Proof

/-! ### What the invariant looks at -/

/-- The part of a state that the invariants of the dictionary look at: configuration, `next_code`, the pending match,
the previous string and the two maps. -/
def State.dictionary (s : State) : State :=
  { s with
    regs := Regs.reset
    eng := { s.eng with phase := .idle, obuf := [] }
    tabs := { s.tabs with stack := [] }
    cs := CodeStream.reset
    env := Env.reset }

theorem EncInv.of_dictionary {s t : State} (h : EncInv s) (e : t.dictionary = s.dictionary) : EncInv t := by
  have hs : EncInv s.dictionary := ⟨h.entry, h.injective, h.onto, h.cur⟩
  rw [← e] at hs
  exact ⟨hs.entry, hs.injective, hs.onto, hs.cur⟩

theorem DecInv.of_dictionary {s t : State} (h : DecInv s) (e : t.dictionary = s.dictionary) : DecInv t := by
  have hs : DecInv s.dictionary := ⟨h.entry, h.prev, h.prevFirst, h.first⟩
  rw [← e] at hs
  exact ⟨hs.entry, hs.prev, hs.prevFirst, hs.first⟩

theorem EngineInv.of_dictionary {s t : State} (h : EngineInv s) (e : t.dictionary = s.dictionary)
    (hp : t.eng.phase ≠ .idle → s.eng.phase ≠ .idle) : EngineInv t := by
  have hcfg : t.cfg = s.cfg := congrArg (·.cfg) e
  have hdir : t.eng.aDir = s.eng.aDir := congrArg (·.eng.aDir) e
  have hstrat : t.eng.aStrat = s.eng.aStrat := congrArg (·.eng.aStrat) e
  have hmc : t.eng.aMc = s.eng.aMc := congrArg (·.eng.aMc) e
  have hnext : t.eng.nextCode = s.eng.nextCode := congrArg (·.eng.nextCode) e
  constructor
  · rw [hmc, hcfg]; exact fun ht => h.bound (hp ht)
  · rw [hstrat, hmc]; exact fun ht => h.fixedw (hp ht)
  · rw [hnext, hmc]; exact fun ht => h.next (hp ht)
  · rw [hdir]; exact fun ht hd => (h.compress (hp ht) hd).of_dictionary e
  · rw [hdir]; exact fun ht hd => (h.decompress (hp ht) hd).of_dictionary e

/-- Nothing is asked of an idle block. -/
theorem EngineInv.of_idle {t : State} (h : t.eng.phase = .idle) : EngineInv t :=
  ⟨fun ht => absurd h ht, fun ht => absurd h ht, fun ht => absurd h ht, fun ht => absurd h ht,
    fun ht => absurd h ht⟩

/-- A consuming step keeps the configuration, so it owes only the range of `next_code` and the dictionary of its own
direction. -/
theorem EngineInv.of_frame {s t : State} (h : EngineInv s) (hp : s.eng.phase ≠ .idle) (f : OpFrame s t)
    (hn : 257 ≤ t.eng.nextCode.toNat ∧ t.eng.nextCode.toNat ≤ max s.eng.aMc.toNat 256 + 1)
    (hc : s.eng.aDir = .compress → EncInv t) (hd : s.eng.aDir = .decompress → DecInv t) : EngineInv t := by
  constructor
  · rw [f.aMc, f.cfg]; exact fun _ => h.bound hp
  · rw [f.aStrat, f.aMc]; exact fun _ => h.fixedw hp
  · rw [f.aMc]; exact fun _ => hn
  · rw [f.aDir]; exact fun _ => hc
  · rw [f.aDir]; exact fun _ => hd

/-! ### Compress -/

/-- The pending match may become any defined code. -/
theorem EncInv.withCur {s t : State} (h : EncInv s) (he : t.tabs.enc = s.tabs.enc)
    (hn : t.eng.nextCode = s.eng.nextCode)
    (hc : t.eng.cur.toNat < s.eng.nextCode.toNat ∧ t.eng.cur.toNat ≠ 256) : EncInv t := by
  have hl : ∀ p c, encLookup p c t = encLookup p c s := fun p c => by rw [encLookup, he, encLookup]
  constructor
  · simpa only [hl, hn] using h.entry
  · simpa only [hl] using h.injective
  · simpa only [hl, hn] using h.onto
  · rw [hn]; exact fun _ => hc

/-- A new key with a defined code before its byte, stored at `next_code`, keeps the dictionary in order
(42_compress.md R171; 44_dictionary_tables.md R209). -/
theorem EncInv.insert {s : State} (h : EncInv s) {p : Code} {c : Byte} (hn : 257 ≤ s.eng.nextCode.toNat)
    (hr : s.eng.nextCode.toNat ≤ s.eng.aMc.toNat) (hp : p.toNat < s.eng.nextCode.toNat) (hp2 : p.toNat ≠ 256)
    (hk : encLookup p c s = none) : EncInv (encInsertNext p c s) := by
  have hmc := s.eng.aMc.isLt
  have hnew : (BitVec.ofNat 16 s.eng.nextCode.toNat).toNat = s.eng.nextCode.toNat := by
    rw [BitVec.toNat_ofNat]; omega
  have hnext : (encInsertNext p c s).eng.nextCode.toNat = s.eng.nextCode.toNat + 1 := by
    rw [encInsertNext_nextCode, BitVec.toNat_ofNat]; omega
  constructor
  · intro p' c' k hl
    rw [encLookup_insert] at hl
    rw [hnext]
    split_ifs at hl with he
    · obtain rfl := Option.some.inj hl
      rw [hnew, he.1]
      exact ⟨hn, by omega, hp, hp2⟩
    · obtain ⟨h1, h2, h3, h4⟩ := h.entry p' c' k hl
      exact ⟨h1, by omega, h3, h4⟩
  · intro p₁ c₁ p₂ c₂ k h1 h2
    have old : ∀ q e, encLookup q e s = some k → k.toNat < s.eng.nextCode.toNat :=
      fun q e hq => (h.entry q e k hq).2.1
    rw [encLookup_insert] at h1 h2
    split_ifs at h1 h2 with e1 e2 e2
    · exact ⟨e1.1.trans e2.1.symm, e1.2.trans e2.2.symm⟩
    · have := old _ _ h2
      rw [← Option.some.inj h1, hnew] at this
      omega
    · have := old _ _ h1
      rw [← Option.some.inj h2, hnew] at this
      omega
    · exact h.injective _ _ _ _ k h1 h2
  · intro k hk1 hk2
    rw [hnext] at hk2
    by_cases hlt : k.toNat < s.eng.nextCode.toNat
    · obtain ⟨q, e, hq⟩ := h.onto k hk1 hlt
      refine ⟨q, e, ?_⟩
      rw [encLookup_insert, if_neg, hq]
      rintro ⟨rfl, rfl⟩
      rw [hk] at hq
      cases hq
    · refine ⟨p, c, ?_⟩
      rw [encLookup_insert, if_pos ⟨rfl, rfl⟩]
      exact congrArg some (BitVec.eq_of_toNat_eq (by omega))
  · intro hv
    have := h.cur hv
    rw [hnext]
    exact ⟨Nat.lt_succ_of_lt this.1, this.2⟩

/-- COMPRESS.BYTE keeps the invariants (42_compress.md R171, R172). -/
theorem EngineInv.byteMove {c : Byte} {s t : State} (h : EngineInv s) (hp : s.eng.phase ≠ .idle)
    (hd : s.eng.aDir = .compress) (m : ByteMove c s t) : EngineInv t := by
  have he := h.compress hp hd
  obtain ⟨hn1, hn2⟩ := h.next hp
  have hmc := s.eng.aMc.isLt
  have hc := c.isLt
  have hlit : (BitVec.ofNat 16 c.toNat).toNat = c.toNat := by rw [BitVec.toNat_ofNat]; omega
  have f := m.frame
  cases m with
  | first =>
    refine h.of_frame hp f ⟨hn1, hn2⟩ (fun _ => he.withCur rfl rfl ?_) (by simp [hd])
    dsimp only
    omega
  | hit k hk =>
    obtain ⟨hk1, hk2, -⟩ := he.entry _ _ _ hk
    refine h.of_frame hp f ⟨hn1, hn2⟩ (fun _ => he.withCur rfl rfl ?_) (by simp [hd])
    dsimp only
    omega
  | insert hv hk hr =>
    obtain ⟨hcur1, hcur2⟩ := he.cur hv
    have hnext : (encInsertNext s.eng.cur c s).eng.nextCode.toNat = s.eng.nextCode.toNat + 1 := by
      rw [encInsertNext_nextCode, BitVec.toNat_ofNat]; omega
    refine h.of_frame hp f ?_ (fun _ => (he.insert hn1 hr hcur1 hcur2 hk).withCur rfl rfl ?_) (by simp [hd])
    · simp only [csWrite_nextCode, hnext]
      omega
    · dsimp only
      omega
  | full hr =>
    refine h.of_frame hp f ⟨hn1, hn2⟩ (fun _ => he.withCur rfl rfl ?_) (by simp [hd])
    dsimp only
    omega

/-- A consuming step of a compress operation keeps the invariants; End and Error write no table (42_compress.md R173,
R174). -/
theorem EngineInv.consumeCompress {b : Beat} {s : State} (h : EngineInv s) (hp : s.eng.phase ≠ .idle)
    (hd : s.eng.aDir = .compress) : EngineInv (consumeCompress b s) := by
  cases b with
  | byte c =>
    exact (h.of_dictionary (t := countByteIn s) rfl id).byteMove
      hp hd (compressByte_move c _)
  | endMark =>
    refine h.of_dictionary ?_ (fun _ => hp)
    unfold Machine.consumeCompress compressEnd
    split_ifs <;> exact rfl
  | error => exact h.of_dictionary rfl (fun _ => hp)

/-! ### Decompress -/

/-- The insert moves `next_code` by at most one, within the bound (43_decompress.md R189). -/
theorem decodeInsert_nextCode (first : Byte) (u : State) :
    u.eng.nextCode.toNat ≤ (decodeInsert first u).eng.nextCode.toNat ∧
      (u.eng.nextCode.toNat ≤ max u.eng.aMc.toNat 256 + 1 →
        (decodeInsert first u).eng.nextCode.toNat ≤ max u.eng.aMc.toNat 256 + 1) := by
  rcases decodeInsert_cases first u with ⟨-, hr, e⟩ | e <;> rw [e]
  · have hmc := u.eng.aMc.isLt
    rw [decWriteNext_nextCode, BitVec.toNat_ofNat]
    omega
  · exact ⟨le_rfl, id⟩

/-- After the insert every code below `next_code` still has its entry (10_state.md R53). -/
theorem DecInv.decodeInsert_defined {u : State} (h : DecInv u) (hn : 257 ≤ u.eng.nextCode.toNat) (first : Byte) :
    DecDefined (decodeInsert first u).tabs.dec (decodeInsert first u).eng.nextCode.toNat := by
  rcases decodeInsert_cases first u with ⟨hv, hr, e⟩ | e <;> rw [e]
  · have hmc := u.eng.aMc.isLt
    have hp := h.prev hv
    rw [decWriteNext_nextCode, decWriteNext_dec, BitVec.toNat_ofNat, Nat.mod_eq_of_lt (by omega)]
    intro k hk1 hk2
    rw [Memory.read_write]
    split_ifs with hk
    · exact ⟨_, _, rfl, hk ▸ hp.1, hp.2⟩
    · exact h.entry k hk1 (by omega)
  · exact h.entry

/-- The insert keeps the string of every defined code (44_dictionary_tables.md R221). -/
theorem DecInv.decodeInsert_strOf {u : State} (h : DecInv u) (first : Byte) {k : Code} {bs : List Byte}
    (hs : StrOf u.tabs.dec k bs) (hk : k.toNat < u.eng.nextCode.toNat) :
    StrOf (decodeInsert first u).tabs.dec k bs := by
  rcases decodeInsert_cases first u with ⟨-, -, e⟩ | e <;> rw [e]
  · exact hs.write h.entry _ hk
  · exact hs

/-- Insert and update keep the decompress dictionary in order, when the new previous code is defined after the insert
and starts with the byte recorded (43_decompress.md R189, R190). -/
theorem DecInv.setPrevious {u : State} (h : DecInv u) (hn : 257 ≤ u.eng.nextCode.toNat) {k : Code} {first : Byte}
    {rest : List Byte} (hk : k.toNat < (decodeInsert first u).eng.nextCode.toNat) (hk2 : k.toNat ≠ 256)
    (hs : StrOf (decodeInsert first u).tabs.dec k (first :: rest)) :
    DecInv (setPrevious k first (decodeInsert first u)) :=
  ⟨h.decodeInsert_defined hn first, fun _ => ⟨hk, hk2⟩, fun _ => ⟨rest, hs⟩, fun hf => nomatch hf⟩

/-- DECODE of a code that is defined already (43_decompress.md R187). -/
theorem DecInv.acceptCode {u : State} (h : DecInv u) (hn : 257 ≤ u.eng.nextCode.toNat) {k : Code} {first : Byte}
    {rest : List Byte} (hk : k.toNat < u.eng.nextCode.toNat) (hk2 : k.toNat ≠ 256)
    (hs : StrOf u.tabs.dec k (first :: rest)) : DecInv (acceptCode k first rest u) := by
  have hw : DecInv (symWrite first rest u) :=
    h.of_dictionary rfl
  exact hw.setPrevious hn (lt_of_lt_of_le hk (decodeInsert_nextCode first (symWrite first rest u)).1) hk2
    (hw.decodeInsert_strOf first hs hk)

/-- A completed code keeps the decompress dictionary in order. A KWKWK code is the entry that its own insert makes:
the string of `prev`, then its first byte (43_decompress.md R191). -/
theorem DecInv.codeMove {k : Code} {u t : State} (h : DecInv u) (hn : 257 ≤ u.eng.nextCode.toNat)
    (m : CodeMove k u t) : DecInv t := by
  cases m with
  | eof => exact h.of_dictionary rfl
  | bad => exact h.of_dictionary rfl
  | lit b hk hb => exact h.acceptCode hn (by omega) (by omega) (.literal k b hb.symm)
  | dict first rest hk hlt hd =>
    have hs : DecInv (stackPopped u) :=
      h.of_dictionary rfl
    exact hs.acceptCode hn hlt (by omega) (decodeString_strOf hd)
  | kwkwk bs hk h257 hv hm hd =>
    have hmc := u.eng.aMc.isLt
    obtain ⟨rest, hprev⟩ := h.prevFirst hv
    have hw : DecInv (outPushAll (bs ++ [u.eng.prevFirst]) (stackPopped u)) :=
      h.of_dictionary rfl
    have hins : decodeInsert u.eng.prevFirst (outPushAll (bs ++ [u.eng.prevFirst]) (stackPopped u)) =
        decWriteNext u.eng.prev u.eng.prevFirst (outPushAll (bs ++ [u.eng.prevFirst]) (stackPopped u)) :=
      if_pos (by simp [hv, State.hasRoom_iff, hm])
    refine hw.setPrevious hn (rest := rest ++ [u.eng.prevFirst]) ?_ (by omega) ?_ <;> rw [hins]
    · rw [decWriteNext_nextCode, BitVec.toNat_ofNat]
      simp only [outPushAll_nextCode, stackPopped_eng]
      omega
    · exact hprev.written h.entry u.eng.prevFirst hk hn (h.prev hv).1

/-- A completed code moves `next_code` by at most one, within the bound. -/
theorem CodeMove.nextCode {k : Code} {u t : State} (m : CodeMove k u t) :
    u.eng.nextCode.toNat ≤ t.eng.nextCode.toNat ∧
      (u.eng.nextCode.toNat ≤ max u.eng.aMc.toNat 256 + 1 →
        t.eng.nextCode.toNat ≤ max u.eng.aMc.toNat 256 + 1) := by
  cases m with
  | eof => exact ⟨le_rfl, id⟩
  | bad => exact ⟨le_rfl, id⟩
  | lit b => exact decodeInsert_nextCode b (symWrite b [] u)
  | dict first rest => exact decodeInsert_nextCode first (symWrite first rest (stackPopped u))
  | kwkwk bs =>
    exact decodeInsert_nextCode u.eng.prevFirst (outPushAll (bs ++ [u.eng.prevFirst]) (stackPopped u))

theorem EngineInv.codeMove {k : Code} {u t : State} (h : EngineInv u) (hp : u.eng.phase ≠ .idle)
    (hd : u.eng.aDir = .decompress) (m : CodeMove k u t) : EngineInv t := by
  obtain ⟨hn1, hn2⟩ := h.next hp
  have hn := m.nextCode
  exact h.of_frame hp m.frame ⟨hn1.trans hn.1, hn.2 hn2⟩ (by simp [hd])
    (fun _ => (h.decompress hp hd).codeMove hn1 m)

/-- A beat that completes no code touches no table. -/
theorem FetchMove.dictionary {b : Beat} {s t : State} (m : FetchMove b s t) : t.dictionary = s.dictionary := by
  cases m <;> exact rfl

/-! ### Commands, and every step -/

/-- START's legality check leaves a `max_code` of 16 bits within the cap (45_host_commands.md R229). -/
theorem startLegal_bounds {cfg : Config} {st : Strategy} {m : Word} (h : startLegal cfg st m = true) :
    (BitVec.ofNat 16 m.toNat).toNat = m.toNat ∧ m.toNat ≤ cfg.maxCodeCap.toNat ∧
      (st = .fixedw → 256 ≤ m.toNat) := by
  simp only [startLegal, Bool.and_eq_true, Bool.or_eq_true, decide_eq_true_eq] at h
  have hcap := cfg.maxCodeCap.isLt
  refine ⟨by rw [BitVec.toNat_ofNat]; omega, h.1, ?_⟩
  rintro rfl
  simpa using h.2

/-- A fresh operation meets its invariants: `next_code` is 257, nothing is listed in `ENC`, and nothing precedes
(45_host_commands.md R229). -/
theorem startOperation_engineInv (d : Dir) (st : Strategy) (s : State)
    (hl : startLegal s.cfg st s.regs.maxCode = true) :
    EngineInv (startOperation d st s.regs.maxCode (startReport d st s)) := by
  obtain ⟨hm, hcap, hfw⟩ := startLegal_bounds hl
  constructor
  · intro _
    exact (le_of_eq hm).trans hcap
  · intro _ hst
    exact (hfw hst).trans (le_of_eq hm.symm)
  · intro _
    exact ⟨le_rfl, Nat.succ_le_succ (le_max_right _ _)⟩
  · intro _ _
    exact ⟨fun p c k hk => (nomatch hk), fun p c p' c' k hk => (nomatch hk),
      fun k h1 h2 => absurd (lt_of_le_of_lt h1 h2) (lt_irrefl 257), fun hv => (nomatch hv)⟩
  · intro _ _
    exact ⟨fun k h1 h2 => absurd (lt_of_le_of_lt h1 h2) (lt_irrefl 257), fun hv => (nomatch hv),
      fun hv => (nomatch hv), fun _ => rfl⟩

theorem abortBusy_phase (s : State) : (abortBusy s).eng.phase = .idle := by
  rw [abortBusy, scrambleSession_eng, reportDone_eng]

theorem EngineInv.cmdMove {s t : State} (h : EngineInv s) (m : CmdMove s t) : EngineInv t := by
  cases m with
  | same => exact h
  | reject => exact h.of_dictionary rfl id
  | started d st hi hl => exact startOperation_engineInv d st s hl
  | cfgErr d st hi hl => exact .of_idle hi
  | abort hb => exact .of_idle (abortBusy_phase s)
  | clear hi => exact .of_idle hi

theorem writeWord_dictionary (i : Nat) (d : Word) (s : State) : (writeWord i d s).dictionary = s.dictionary := by
  unfold writeWord
  split <;> exact rfl

theorem writeWord_eng (i : Nat) (d : Word) (s : State) : (writeWord i d s).eng = s.eng := by
  unfold writeWord
  split <;> rfl

theorem writeWord_busy {i : Nat} {d : Word} {s : State} (h : (writeWord i d s).eng.phase ≠ .idle) :
    s.eng.phase ≠ .idle := by
  rwa [writeWord_eng] at h

/-- A drain step keeps the dictionary, and starts no operation (20_memory.md R67; 60_exceptions.md R250). -/
theorem drainBeat_dictionary (b : OutBeat) (rest : List OutBeat) (s : State) :
    (drainBeat b rest s).dictionary = s.dictionary := by
  cases b <;> exact rfl

theorem drainBeat_busy {b : OutBeat} {rest : List OutBeat} {s : State}
    (h : (drainBeat b rest s).eng.phase ≠ .idle) : s.eng.phase ≠ .idle := by
  cases b with
  | byte x => exact h
  | endMark => exact absurd rfl h

theorem EngineInv.move {s t : State} (h : EngineInv s) (m : Move s t) : EngineInv t := by
  cases m with
  | wait => exact h
  | drain b rest => exact h.of_dictionary (drainBeat_dictionary b rest s) drainBeat_busy
  | compress b rest hr ho hp hi hd =>
    exact (h.of_dictionary (t := { s with env.inq := rest })
      rfl id).consumeCompress (by simp [hp]) hd
  | fetched b rest t hr ho hp hi hd hf =>
    exact h.of_dictionary (fetchBeat_done hf).dictionary (by simp [hp])
  | code b rest k c t hr ho hp hi hd hf hm =>
    refine (h.of_dictionary (t := codeCompleted c (countByteIn { s with env.inq := rest }))
      rfl id).codeMove (by simp [hp]) hd hm
  | command t hr hm => exact h.cmdMove hm
  | regWrite i d => exact h.of_dictionary (writeWord_dictionary i d s) writeWord_busy
  | envOnly e => exact h.of_dictionary rfl id
  | reset level => exact .of_idle rfl

theorem EngineInv.popTurn {s : State} (h : EngineInv s) : EngineInv s.popTurn :=
  h.of_dictionary rfl id

/-- Settles O47: every move keeps the invariant, the dictionary of the running direction by one lemma per arm. -/
theorem dictionaryInvariantKept : Obligations.DictionaryInvariantKept := by
  unfold Obligations.DictionaryInvariantKept
  intro s t h hstep
  exact h.popTurn.move (step_move hstep).2

end Sys2Proof.Machine
end

section
/-! PROOFS. The session's ranges and the width bookkeeping are kept by every step (41_code_stream.md R148, R149). -/

namespace Sys2Proof.Machine

open Sys2Proof

/-! ### What the invariants look at -/

theorem SessionInv.of_dictionary {s t : State} (h : SessionInv s) (e : t.dictionary = s.dictionary)
    (hcs : t.cs = s.cs) (hp : t.eng.phase ≠ .idle → s.eng.phase ≠ .idle) : SessionInv t := by
  intro ht
  have hdir : t.eng.aDir = s.eng.aDir := congrArg (·.eng.aDir) e
  have hstrat : t.eng.aStrat = s.eng.aStrat := congrArg (·.eng.aStrat) e
  have hmc : t.eng.aMc = s.eng.aMc := congrArg (·.eng.aMc) e
  rw [hdir, hstrat, hmc, hcs]
  exact h (hp ht)

theorem SessionInv.of_idle {t : State} (h : t.eng.phase = .idle) : SessionInv t := fun ht => absurd h ht

/-- A consuming step keeps the configuration, so it owes only the session itself. -/
theorem SessionInv.of_frame {s t : State} (f : OpFrame s t)
    (h : SessionOk s.eng.aDir s.eng.aStrat s.eng.aMc t.cs) : SessionInv t := by
  intro _
  rw [f.aDir, f.aStrat, f.aMc]
  exact h

theorem FitInv.of_dictionary {s t : State} (h : FitInv s) (e : t.dictionary = s.dictionary) (hcs : t.cs = s.cs)
    (hp : t.eng.phase ≠ .idle → s.eng.phase ≠ .idle) : FitInv t := by
  have hdir : t.eng.aDir = s.eng.aDir := congrArg (·.eng.aDir) e
  have hstrat : t.eng.aStrat = s.eng.aStrat := congrArg (·.eng.aStrat) e
  have hnext : t.eng.nextCode = s.eng.nextCode := congrArg (·.eng.nextCode) e
  unfold FitInv
  rw [hdir, hstrat, hnext, hcs]
  exact fun ht => h (hp ht)

theorem FitInv.of_idle {t : State} (h : t.eng.phase = .idle) : FitInv t := fun ht => absurd h ht

/-- The bookkeeping speaks of compress alone. -/
theorem FitInv.of_decompress {t : State} (h : t.eng.aDir = .decompress) : FitInv t :=
  fun _ hc => by simp [h] at hc

/-! ### The session in a consuming step -/

theorem ByteMove.session {c : Byte} {s t : State} (m : ByteMove c s t)
    (h : SessionOk .compress s.eng.aStrat s.eng.aMc s.cs) : SessionOk .compress s.eng.aStrat s.eng.aMc t.cs := by
  cases m with
  | first => exact h
  | hit => exact h
  | insert => exact h.writeCode s.eng.cur
  | full => exact h.writeCode s.eng.cur

theorem csFinalize_session {s : State} (h : SessionOk .compress s.eng.aStrat s.eng.aMc s.cs) :
    SessionOk .compress s.eng.aStrat s.eng.aMc (csFinalize s).cs :=
  (h.writeCode eofCode).flushFor

theorem consumeCompress_session (b : Beat) {s : State} (h : SessionOk .compress s.eng.aStrat s.eng.aMc s.cs) :
    SessionOk .compress s.eng.aStrat s.eng.aMc (consumeCompress b s).cs := by
  cases b with
  | byte c => exact (compressByte_move c (countByteIn s)).session h
  | endMark =>
    unfold consumeCompress compressEnd
    split_ifs
    · exact csFinalize_session (s := csWrite s.eng.cur s) (h.writeCode s.eng.cur)
    · exact csFinalize_session h
  | error => exact csFinalize_session h

theorem FetchMove.session {b : Beat} {s t : State} (m : FetchMove b s t)
    (h : SessionOk .decompress s.eng.aStrat s.eng.aMc s.cs) (hfw : s.eng.aStrat = .fixedw → 256 ≤ s.eng.aMc.toNat) :
    SessionOk .decompress s.eng.aStrat s.eng.aMc t.cs := by
  cases m with
  | more x c hb hc =>
    have hr := h.readByte x hfw
    rw [hc] at hr
    exact hr
  | format => exact h
  | stop => exact h

theorem decodeInsert_cs (first : Byte) (s : State) : (decodeInsert first s).cs = s.cs := by
  rcases decodeInsert_cases first s with ⟨-, -, e⟩ | e <;> rw [e]
  rfl

/-- A completed code leaves the session alone: it was bumped before the code is classified (41_code_stream.md R144). -/
theorem CodeMove.cs {k : Code} {u t : State} (m : CodeMove k u t) : t.cs = u.cs := by
  cases m with
  | eof => rfl
  | bad => rfl
  | lit b => exact decodeInsert_cs b _
  | dict first rest => exact decodeInsert_cs first _
  | kwkwk bs => exact decodeInsert_cs u.eng.prevFirst _

theorem SessionInv.cmdMove {s t : State} (h : SessionInv s) (m : CmdMove s t) : SessionInv t := by
  cases m with
  | same => exact h
  | reject => exact h.of_dictionary rfl rfl id
  | started d st hi hl =>
    obtain ⟨hm, -, hfw⟩ := startLegal_bounds hl
    exact fun _ => sessionInit_ok d st _ fun hst => (hfw hst).trans (le_of_eq hm.symm)
  | cfgErr d st hi => exact .of_idle hi
  | abort => exact .of_idle (abortBusy_phase s)
  | clear hi => exact .of_idle hi

theorem writeWord_cs (i : Nat) (d : Word) (s : State) : (writeWord i d s).cs = s.cs := by
  unfold writeWord
  split <;> rfl

theorem drainBeat_cs (b : OutBeat) (rest : List OutBeat) (s : State) : (drainBeat b rest s).cs = s.cs := by
  cases b <;> rfl

theorem SessionInv.move {s t : State} (h : SessionInv s) (he : EngineInv s) (m : Move s t) : SessionInv t := by
  cases m with
  | wait => exact h
  | drain b rest => exact h.of_dictionary (drainBeat_dictionary b rest s) (drainBeat_cs b rest s) drainBeat_busy
  | compress b rest hr ho hp hi hd =>
    have hs := h (by simp [hp])
    rw [hd] at hs
    refine .of_frame (consumeCompress_frame b { s with env.inq := rest }) ?_
    rw [show ({ s with env.inq := rest } : State).eng.aDir = .compress from hd]
    exact consumeCompress_session b hs
  | fetched b rest t hr ho hp hi hd hf =>
    have hbusy : s.eng.phase ≠ .idle := by simp [hp]
    have hs := h hbusy
    rw [hd] at hs
    refine .of_frame (fetchBeat_done hf).frame ?_
    rw [show ({ s with env.inq := rest } : State).eng.aDir = .decompress from hd]
    exact (fetchBeat_done hf).session hs (he.fixedw hbusy)
  | code b rest k c t hr ho hp hi hd hf hm =>
    have hbusy : s.eng.phase ≠ .idle := by simp [hp]
    have hs := (hd ▸ h hbusy).readByte b (he.fixedw hbusy)
    rw [hf] at hs
    refine .of_frame ((codeCompleted_frame c { s with env.inq := rest }).trans hm.frame) ?_
    rw [show ({ s with env.inq := rest } : State).eng.aDir = .decompress from hd, hm.cs]
    exact hs
  | command t hr hm => exact h.cmdMove hm
  | regWrite i d => exact h.of_dictionary (writeWord_dictionary i d s) (writeWord_cs i d s) writeWord_busy
  | envOnly e => exact h.of_dictionary rfl rfl id
  | reset level => exact .of_idle rfl

/-! ### The width bookkeeping -/

/-- An ADAPTIVE write moves the counter by one, up to `max_code` (41_code_stream.md R131, R142). -/
theorem writeCode_currentCode {st : Strategy} (hst : st = .adaptive) (mc k : Code) (c : CodeStream) :
    (writeCode st mc k c).2.currentCode.toNat =
      if c.currentCode.toNat < mc.toNat then c.currentCode.toNat + 1 else c.currentCode.toNat := by
  subst hst
  exact bump_currentCode mc (packWrite k c).2

theorem flushFor_currentCode (st : Strategy) (c : CodeStream) :
    (flushFor st c).2.currentCode = c.currentCode := by
  have hflush : (flushSession c).2.currentCode = c.currentCode := by
    unfold flushSession
    split_ifs <;> rfl
  cases st with
  | text => rfl
  | fixed16 => rfl
  | fixedw => exact hflush
  | adaptive => exact hflush

/-- Writing a code keeps the dictionary at most one ahead of the counter. -/
theorem csWrite_fit (k : Code) {s : State} (hst : s.eng.aStrat = .adaptive)
    (h : s.eng.nextCode.toNat ≤ s.cs.currentCode.toNat + 1) :
    (csWrite k s).eng.nextCode.toNat ≤ (csWrite k s).cs.currentCode.toNat + 1 := by
  rw [csWrite_cs, csWrite_nextCode, writeCode_currentCode hst]
  split_ifs <;> omega

theorem csFinalize_fit {s : State} (hst : s.eng.aStrat = .adaptive)
    (h : s.eng.nextCode.toNat ≤ s.cs.currentCode.toNat + 1) :
    (csFinalize s).eng.nextCode.toNat ≤ (csFinalize s).cs.currentCode.toNat + 1 := by
  rw [csFinalize, csFlush_nextCode, csFlush_cs, flushFor_currentCode]
  exact csWrite_fit eofCode hst h

/-- An insert is followed by a write in the same step, so `next_code` and the counter rise together until the counter
has reached `max_code`, and no insert takes `next_code` above `max_code + 1` (41_code_stream.md R149). -/
theorem ByteMove.fit {c : Byte} {s t : State} (m : ByteMove c s t) (hst : s.eng.aStrat = .adaptive)
    (h : s.eng.nextCode.toNat ≤ s.cs.currentCode.toNat + 1) :
    t.eng.nextCode.toNat ≤ t.cs.currentCode.toNat + 1 := by
  cases m with
  | first => exact h
  | hit => exact h
  | insert hv hk hr =>
    have hcur := writeCode_currentCode hst s.eng.aMc s.eng.cur s.cs
    have hnext : (encInsertNext s.eng.cur c s).eng.nextCode.toNat ≤ s.eng.nextCode.toNat + 1 := by
      rw [encInsertNext_nextCode, BitVec.toNat_ofNat]
      exact Nat.mod_le _ _
    simp only [csWrite_nextCode, csWrite_cs, encInsertNext_aStrat, encInsertNext_aMc, encInsertNext_cs, hcur]
    split_ifs <;> omega
  | full => exact csWrite_fit s.eng.cur hst h

theorem consumeCompress_fit (b : Beat) {s : State} (hst : s.eng.aStrat = .adaptive)
    (h : s.eng.nextCode.toNat ≤ s.cs.currentCode.toNat + 1) :
    (consumeCompress b s).eng.nextCode.toNat ≤ (consumeCompress b s).cs.currentCode.toNat + 1 := by
  cases b with
  | byte c => exact (compressByte_move c (countByteIn s)).fit hst h
  | endMark =>
    unfold consumeCompress compressEnd
    split_ifs
    · exact csFinalize_fit (s := csWrite s.eng.cur s) hst (csWrite_fit s.eng.cur hst h)
    · exact csFinalize_fit hst h
  | error => exact csFinalize_fit hst h

theorem FitInv.cmdMove {s t : State} (h : FitInv s) (m : CmdMove s t) : FitInv t := by
  cases m with
  | same => exact h
  | reject => exact h.of_dictionary rfl rfl id
  | started d st hi hl => exact fun _ _ _ => le_refl 257
  | cfgErr d st hi => exact .of_idle hi
  | abort => exact .of_idle (abortBusy_phase s)
  | clear hi => exact .of_idle hi

theorem FitInv.move {s t : State} (h : FitInv s) (m : Move s t) : FitInv t := by
  cases m with
  | wait => exact h
  | drain b rest => exact h.of_dictionary (drainBeat_dictionary b rest s) (drainBeat_cs b rest s) drainBeat_busy
  | compress b rest hr ho hp hi hd =>
    intro _ _ hst
    rw [(consumeCompress_frame b { s with env.inq := rest }).aStrat] at hst
    exact consumeCompress_fit b hst (h (by simp [hp]) hd hst)
  | fetched b rest t hr ho hp hi hd hf => exact .of_decompress ((fetchBeat_done hf).frame.aDir.trans hd)
  | code b rest k c t hr ho hp hi hd hf hm => exact .of_decompress (hm.frame.aDir.trans hd)
  | command t hr hm => exact h.cmdMove hm
  | regWrite i d => exact h.of_dictionary (writeWord_dictionary i d s) (writeWord_cs i d s) writeWord_busy
  | envOnly e => exact h.of_dictionary rfl rfl id
  | reset level => exact .of_idle rfl

/-- Settles O48: every writer and reader keeps the session's ranges (Laws/Session), and an insert never outruns the
write of its own step. -/
theorem sessionInvariantKept : Obligations.SessionInvariantKept := by
  unfold Obligations.SessionInvariantKept
  intro s t h hstep
  have m := (step_move hstep).2
  exact ⟨fun hs => SessionInv.move (hs.of_dictionary (t := s.popTurn) rfl rfl id) h.popTurn m,
    fun hf => FitInv.move (hf.of_dictionary (t := s.popTurn) rfl rfl id) m⟩

end Sys2Proof.Machine
end

section
/-! SUPPORT. What every move keeps of the parameters and of the list of pending moves; an engine step of an operation
that meets its invariants answers a next state; a written command runs. -/

namespace Sys2Proof.Machine

open Sys2Proof

/-! ### Parameters and pending moves -/

theorem abortBusy_cfg (s : State) : (abortBusy s).cfg = s.cfg := by
  unfold abortBusy
  split_ifs <;> rfl

theorem abortBusy_env (s : State) : (abortBusy s).env = s.env := by
  unfold abortBusy
  split_ifs <;> rfl

/-- No move changes the parameters or the list of pending moves, which `step` has shortened before. -/
theorem Move.cfg_script {s t : State} (m : Move s t) : t.cfg = s.cfg ∧ t.env.script = s.env.script := by
  cases m with
  | wait => exact ⟨rfl, rfl⟩
  | drain b => cases b <;> exact ⟨rfl, rfl⟩
  | compress b rest =>
    have f := consumeCompress_frame b { s with env.inq := rest }
    exact ⟨f.cfg, by rw [f.env]⟩
  | fetched b rest t hr ho hp hi hd hf =>
    have f := (fetchBeat_done hf).frame
    exact ⟨f.cfg, by rw [f.env]⟩
  | code b rest k c t hr ho hp hi hd hf hm => exact ⟨hm.frame.cfg, by rw [hm.frame.env]; rfl⟩
  | command t hr hm =>
    cases hm with
    | abort => exact ⟨abortBusy_cfg s, congrArg Env.script (abortBusy_env s)⟩
    | same | reject | started | cfgErr | clear => exact ⟨rfl, rfl⟩
  | regWrite i d =>
    unfold writeWord
    split <;> exact ⟨rfl, rfl⟩
  | envOnly e hr hd hs => exact ⟨rfl, hs⟩
  | reset level => exact ⟨rfl, rfl⟩

theorem step_cfg {s t : State} (h : step s = .next t) : t.cfg = s.cfg :=
  (step_move h).2.cfg_script.1

theorem step_script {s t : State} (h : step s = .next t) : t.env.script = s.env.script.tail :=
  (step_move h).2.cfg_script.2

/-! ### A written command runs -/

/-- Out of reset a write in the window, with some strobe active, is a command or a store (20_memory.md R61, R62). -/
theorem hostStep_regWrite {s : State} {off : Nat} {m : BitVec 4} (d : Word) (hr : s.env.rstN = true) (hm : m ≠ 0)
    (hw : off / 4 < 16) :
    hostStep (.regWrite off m d) s =
      if off / 4 = 2 then exec (decodeCmd d) s else .next (writeWord (off / 4) d s) := by
  have hin : inWindow off = true := by simp only [inWindow, decide_eq_true_eq]; omega
  have hreg : regWrite off m d s = if off / 4 = 2 then .command d else .done (writeWord (off / 4) d s) := by
    rw [regWrite, if_neg (by simp [hin]), if_neg hm, if_neg (by simp [hr]), wordIndex_of_inWindow hin, cmdIndex]
  simp only [hostStep, hostMove, hreg]
  split_ifs <;> rfl

/-- A write to CMD, whatever its strobes and its low offset bits, runs the decoded word (10_state.md R25;
20_memory.md R61, R62). -/
theorem step_command {s : State} {off : Nat} {m : BitVec 4} {w : Word} {rest : List HostTurn}
    (hl : s.cfg.legal = true) (hr : s.env.rstN = true) (hs : s.env.script = .regWrite off m w :: rest)
    (hm : m ≠ 0) (ho : off / 4 = 2) : step s = exec (decodeCmd w) s.popTurn := by
  rw [step_of_cons hl hs, hostStep_regWrite w (s := s.popTurn) hr hm (by omega), if_pos ho]

/-- A write to any other word stores, or is ignored (10_state.md R22). -/
theorem step_store {s : State} {off : Nat} {m : BitVec 4} {d : Word} {rest : List HostTurn}
    (hl : s.cfg.legal = true) (hr : s.env.rstN = true) (hs : s.env.script = .regWrite off m d :: rest)
    (hm : m ≠ 0) (hw : off / 4 < 16) (ho : off / 4 ≠ 2) : step s = .next (writeWord (off / 4) d s.popTurn) := by
  rw [step_of_cons hl hs, hostStep_regWrite d (s := s.popTurn) hr hm hw, if_neg ho]

/-! ### An engine step answers a next state -/

/-- No completed code stops the machine: the string of a DICT code, and of the previous code, is defined
(44_dictionary_tables.md R207, R218). -/
theorem exec_classify_answers {u : State} (h : DecInv u) (k : Code) :
    ∃ t, exec (classify u.codeCtx k) u = .next t := by
  unfold classify
  split_ifs with h1 h2 h3 h4
  · exact ⟨_, rfl⟩
  · exact ⟨_, rfl⟩
  · obtain ⟨b, bs, hd, -⟩ := decodeString_found u h.entry k h3 h2
    exact ⟨acceptCode k b bs (stackPopped u), by simp [exec, execDict, resolve, hd]⟩
  · obtain ⟨-, hv, -⟩ := isKwkwk_iff.mp h4
    obtain ⟨b, bs, hd, -⟩ := decodeString_found u h.entry u.eng.prev (h.prev hv).1 (h.prev hv).2
    exact ⟨_, by simp only [exec, execKwkwk, hd]; rfl⟩
  · exact ⟨_, rfl⟩

theorem engineStep_answers {s : State} (h : EngineInv s) : ∃ t, engineStep s = .next t := by
  unfold engineStep
  rcases engineMove_cases s with hw | ⟨b, rest, -, -, -, hw⟩ | ⟨b, rest, -, -, hp, -, hw⟩ <;> rw [hw]
  · exact ⟨s, rfl⟩
  · exact ⟨_, rfl⟩
  · unfold consumeBeat
    cases hd : s.eng.aDir with
    | compress => exact ⟨_, rfl⟩
    | decompress =>
      cases hf : fetchBeat b { s with env.inq := rest } with
      | done t => exact ⟨t, by simp [hf, runFetch]⟩
      | code k u =>
        obtain ⟨x, c, rfl, -, rfl⟩ := fetchBeat_code hf
        have hi : DecInv (codeCompleted c (countByteIn { s with env.inq := rest })) :=
          (h.decompress (by simp [hp]) hd).of_dictionary rfl
        obtain ⟨t, ht⟩ := exec_classify_answers hi k
        exact ⟨t, by simp only [hf, runFetch, ht]⟩

/-- A stream's move, or the engine's, answers a next state. -/
theorem step_answers {s : State} (hl : s.cfg.legal = true) (h : EngineInv s)
    (hs : s.env.script.all HostTurn.streamOnly = true) : ∃ t, step s = .next t := by
  cases hsc : s.env.script with
  | nil => rw [step_of_nil hl hsc]; exact engineStep_answers h.popTurn
  | cons turn rest =>
    rw [step_of_cons hl hsc]
    rw [hsc, List.all_cons, Bool.and_eq_true] at hs
    cases turn with
    | engine => exact engineStep_answers h.popTurn
    | offer kind data => exact ⟨_, rfl⟩
    | sinkReady level => exact ⟨_, rfl⟩
    | regWrite off m d => simp [HostTurn.streamOnly] at hs
    | regRead off => simp [HostTurn.streamOnly] at hs
    | withdraw => simp [HostTurn.streamOnly] at hs
    | rst level => simp [HostTurn.streamOnly] at hs

end Sys2Proof.Machine
end

section
/-! PROOFS. No state of one operation affects the next (10_state.md R51): a simulation between two machines that differ
only in what the running operation never reads. -/

namespace Sys2Proof.Machine

open Sys2Proof

/-! ### Machines alike -/

/-- What an operation shows or depends on; what it may hold from before is set to fixed values: the parameters, the
registers it does not write, the latches that wait for their first value, `DEC` and the decode stack. -/
def State.visible (s : State) : State :=
  { s with
    cfg := Config.reference
    regs := { s.regs with maxCode := 0, dir := .compress, strat := .text, irqStatus := 0, irqEn := 0 }
    eng := { s.eng with cur := 0, prev := 0, prevFirst := 0 }
    tabs := { s.tabs with dec := [], stack := [] } }

/-- Two machines that a running operation cannot tell apart: a latch is compared where it is valid, and `DEC` at the
codes of this operation. -/
structure Alike (s u : State) : Prop where
  visible : u.visible = s.visible
  cur : s.eng.curValid = true → u.eng.cur = s.eng.cur
  prev : s.eng.prevValid = true → u.eng.prev = s.eng.prev ∧ u.eng.prevFirst = s.eng.prevFirst
  dec : s.eng.aDir = .decompress → ∀ k, 257 ≤ k → k < s.eng.nextCode.toNat →
    Memory.read u.tabs.dec k = Memory.read s.tabs.dec k

section Alike

variable {s u : State}

theorem Alike.env (h : Alike s u) : u.env = s.env := congrArg (·.env) h.visible
theorem Alike.cs (h : Alike s u) : u.cs = s.cs := congrArg (·.cs) h.visible
theorem Alike.enc (h : Alike s u) : u.tabs.enc = s.tabs.enc := congrArg (·.tabs.enc) h.visible
theorem Alike.phase (h : Alike s u) : u.eng.phase = s.eng.phase := congrArg (·.eng.phase) h.visible
theorem Alike.aDir (h : Alike s u) : u.eng.aDir = s.eng.aDir := congrArg (·.eng.aDir) h.visible
theorem Alike.aStrat (h : Alike s u) : u.eng.aStrat = s.eng.aStrat := congrArg (·.eng.aStrat) h.visible
theorem Alike.aMc (h : Alike s u) : u.eng.aMc = s.eng.aMc := congrArg (·.eng.aMc) h.visible
theorem Alike.obuf (h : Alike s u) : u.eng.obuf = s.eng.obuf := congrArg (·.eng.obuf) h.visible
theorem Alike.curValid (h : Alike s u) : u.eng.curValid = s.eng.curValid := congrArg (·.eng.curValid) h.visible
theorem Alike.nextCode (h : Alike s u) : u.eng.nextCode = s.eng.nextCode := congrArg (·.eng.nextCode) h.visible
theorem Alike.prevValid (h : Alike s u) : u.eng.prevValid = s.eng.prevValid := congrArg (·.eng.prevValid) h.visible

theorem Alike.hasRoom (h : Alike s u) : u.hasRoom = s.hasRoom := by
  rw [State.hasRoom, State.hasRoom, h.nextCode, h.aMc]

theorem Alike.codeCtx (h : Alike s u) : u.codeCtx = s.codeCtx := by
  rw [State.codeCtx, State.codeCtx, h.nextCode, h.aMc, h.prevValid]

/-- An operation whose visible result depends on visible state alone. -/
theorem Alike.visible_map (h : Alike s u) (f : State → State) (hf : ∀ x, (f x).visible = (f x.visible).visible) :
    (f u).visible = (f s).visible := by
  rw [hf u, hf s, h.visible]

/-- Such an operation keeps two machines alike when it leaves the dictionary alone. -/
theorem Alike.map (h : Alike s u) (f : State → State) (hf : ∀ x, (f x).visible = (f x.visible).visible)
    (hd : ∀ x, (f x).dictionary = x.dictionary) : Alike (f s) (f u) := by
  have hdec : ∀ x, (f x).tabs.dec = x.tabs.dec := fun x => congrArg (·.tabs.dec) (hd x)
  have hcur : ∀ x, (f x).eng.cur = x.eng.cur := fun x => congrArg (·.eng.cur) (hd x)
  have hprev : ∀ x, (f x).eng.prev = x.eng.prev := fun x => congrArg (·.eng.prev) (hd x)
  have hfirst : ∀ x, (f x).eng.prevFirst = x.eng.prevFirst := fun x => congrArg (·.eng.prevFirst) (hd x)
  have hdir : (f s).eng.aDir = s.eng.aDir := congrArg (·.eng.aDir) (hd s)
  have hnext : (f s).eng.nextCode = s.eng.nextCode := congrArg (·.eng.nextCode) (hd s)
  have hcv : (f s).eng.curValid = s.eng.curValid := congrArg (·.eng.curValid) (hd s)
  have hpv : (f s).eng.prevValid = s.eng.prevValid := congrArg (·.eng.prevValid) (hd s)
  refine ⟨h.visible_map f hf, ?_, ?_, ?_⟩
  · rw [hcv, hcur, hcur]; exact h.cur
  · rw [hpv, hprev, hprev, hfirst, hfirst]; exact h.prev
  · rw [hdir, hnext, hdec, hdec]; exact h.dec

/-! ### Compress -/

theorem Alike.setCur (h : Alike s u) (k : Code) : Alike { s with eng.cur := k } { u with eng.cur := k } :=
  ⟨h.visible_map (fun x => { x with eng.cur := k }) (fun _ => rfl), fun _ => rfl, h.prev, h.dec⟩

theorem Alike.firstCur (h : Alike s u) (k : Code) :
    Alike { s with eng.cur := k, eng.curValid := true } { u with eng.cur := k, eng.curValid := true } :=
  ⟨h.visible_map (fun x => { x with eng.cur := k, eng.curValid := true }) (fun _ => rfl), fun _ => rfl, h.prev,
    h.dec⟩

theorem Alike.encInsertNext (h : Alike s u) (hd : s.eng.aDir = .compress) (p : Code) (c : Byte) :
    Alike (encInsertNext p c s) (encInsertNext p c u) :=
  ⟨h.visible_map (Machine.encInsertNext p c) (fun _ => rfl), h.cur, h.prev, fun hc => by simp [hd] at hc⟩

theorem Alike.csWrite (h : Alike s u) (k : Code) : Alike (csWrite k s) (csWrite k u) :=
  h.map (Machine.csWrite k) (fun _ => rfl) (fun _ => rfl)

theorem Alike.compressByte (h : Alike s u) (hd : s.eng.aDir = .compress) (c : Byte) :
    Alike (compressByte c s) (compressByte c u) := by
  unfold Machine.compressByte
  rw [h.curValid]
  split_ifs with hv
  · rw [encLookup, encLookup, h.enc, h.cur hv]
    cases Memory.read s.tabs.enc (encKey s.eng.cur c) with
    | some k => exact h.setCur k
    | none =>
      unfold compressMiss
      rw [h.hasRoom, h.cur hv]
      dsimp only
      split_ifs
      · exact ((h.encInsertNext hd s.eng.cur c).csWrite s.eng.cur).setCur _
      · exact (h.csWrite s.eng.cur).setCur _
  · exact h.firstCur _

theorem Alike.consumeCompress (h : Alike s u) (hd : s.eng.aDir = .compress) (b : Beat) :
    Alike (consumeCompress b s) (consumeCompress b u) := by
  cases b with
  | byte c => exact (h.map countByteIn (fun _ => rfl) (fun _ => rfl)).compressByte hd c
  | endMark =>
    have hw : Alike (if s.eng.curValid then Machine.csWrite s.eng.cur s else s)
        (if u.eng.curValid then Machine.csWrite u.eng.cur u else u) := by
      rw [h.curValid]
      split_ifs with hv
      · rw [h.cur hv]; exact h.csWrite s.eng.cur
      · exact h
    exact hw.map (fun x => raiseStop .inEnd 0 (csFinalize x)) (fun _ => rfl) (fun _ => rfl)
  | error => exact h.map compressError (fun _ => rfl) (fun _ => rfl)

/-! ### Decompress -/

/-- The walk reads `DEC` only at the codes of this operation (44_dictionary_tables.md R218). -/
theorem walkString_congr {dec dec' : Memory (Code × Byte)} {n : Nat}
    (h : ∀ k, 257 ≤ k → k < n → Memory.read dec' k = Memory.read dec k) (fuel : Nat) :
    ∀ (k : Code) (stack : List Byte), walkString dec' n fuel k stack = walkString dec n fuel k stack := by
  induction fuel with
  | zero => intro k stack; rfl
  | succ fuel ih =>
    intro k stack
    simp only [walkString]
    split_ifs with h1 h2 h3
    · rfl
    · rfl
    · rfl
    · rw [h k.toNat (by omega) (by omega)]
      simp only [ih]

theorem Alike.decodeString (h : Alike s u) (hd : s.eng.aDir = .decompress) (k : Code) :
    decodeString k u = decodeString k s := by
  rw [Machine.decodeString, Machine.decodeString, h.nextCode]
  exact walkString_congr (h.dec hd) _ k []

theorem Alike.decWriteNext (h : Alike s u) (p : Code) (c : Byte) :
    Alike (decWriteNext p c s) (decWriteNext p c u) := by
  refine ⟨h.visible_map (Machine.decWriteNext p c) (fun _ => rfl), h.cur, h.prev, fun hd k hk1 hk2 => ?_⟩
  rw [decWriteNext_nextCode, BitVec.toNat_ofNat] at hk2
  have hle := Nat.mod_le (s.eng.nextCode.toNat + 1) (2 ^ 17)
  rw [decWriteNext_dec, decWriteNext_dec, h.nextCode, Memory.read_write, Memory.read_write]
  split_ifs with hk
  · rfl
  · exact h.dec hd k hk1 (by omega)

theorem Alike.decodeInsert (h : Alike s u) (first : Byte) : Alike (decodeInsert first s) (decodeInsert first u) := by
  unfold Machine.decodeInsert
  rw [h.prevValid, h.hasRoom]
  split_ifs with hc
  · rw [(h.prev (Bool.and_eq_true _ _ ▸ hc).1).1]
    exact h.decWriteNext s.eng.prev first
  · exact h

theorem Alike.setPrevious (h : Alike s u) (k : Code) (first : Byte) :
    Alike (setPrevious k first s) (setPrevious k first u) :=
  ⟨h.visible_map (Machine.setPrevious k first) (fun _ => rfl), h.cur, fun _ => ⟨rfl, rfl⟩, h.dec⟩

theorem Alike.acceptCode (h : Alike s u) (k : Code) (first : Byte) (rest : List Byte) :
    Alike (acceptCode k first rest s) (acceptCode k first rest u) :=
  ((h.map (symWrite first rest) (fun _ => rfl) (fun _ => rfl)).decodeInsert first).setPrevious k first

theorem Alike.stackPopped (h : Alike s u) : Alike (stackPopped s) (stackPopped u) :=
  h.map Machine.stackPopped (fun _ => rfl) (fun _ => rfl)

end Alike

/-- Where the first outcome is a next state, so is the second, and the two are alike. -/
def Follows (o o' : Host.Outcome State Fault Refusal) : Prop :=
  ∀ t, o = .next t → ∃ v, o' = .next v ∧ Alike t v

theorem Alike.next {t v : State} (h : Alike t v) : Follows (.next t) (.next v) :=
  fun _ ht => ⟨v, rfl, Host.Outcome.next.inj ht ▸ h⟩

/-- A completed code runs alike: its class is decided by visible state, and the strings agree. -/
theorem Alike.execCode {s u : State} (h : Alike s u) (hd : s.eng.aDir = .decompress) (k : Code) :
    Follows (exec (classify s.codeCtx k) s) (exec (classify u.codeCtx k) u) := by
  rw [h.codeCtx]
  unfold classify
  split_ifs with h1 h2 h3 h4
  · exact (h.acceptCode _ _ []).next
  · exact (h.map (raiseStop .eofCode 0) (fun _ => rfl) (fun _ => rfl)).next
  · simp only [exec, execDict, resolve, h.decodeString hd]
    cases Machine.decodeString k s with
    | found bs =>
      cases bs with
      | nil => exact fun t ht => nomatch ht
      | cons first rest => exact (h.stackPopped.acceptCode k first rest).next
    | atEof => exact fun t ht => nomatch ht
    | undefined => exact fun t ht => nomatch ht
  · obtain ⟨-, hv, -⟩ := isKwkwk_iff.mp h4
    obtain ⟨hp, hf⟩ := h.prev hv
    simp only [exec, execKwkwk, hp, hf, h.decodeString hd]
    cases Machine.decodeString s.eng.prev s with
    | found bs =>
      have hw := h.stackPopped.map (outPushAll (bs ++ [s.eng.prevFirst])) (fun _ => rfl) (fun _ => rfl)
      exact ((hw.decodeInsert s.eng.prevFirst).setPrevious k s.eng.prevFirst).next
    | atEof => exact fun t ht => nomatch ht
    | undefined => exact fun t ht => nomatch ht
  · exact (h.map (raiseStop .badCode (BitVec.ofNat 32 k.toNat)) (fun _ => rfl) (fun _ => rfl)).next

/-! ### Steps -/

theorem Alike.fetchBeat {s u : State} (h : Alike s u) (hd : s.eng.aDir = .decompress) (b : Beat) :
    Follows (runFetch (fetchBeat b s)) (runFetch (fetchBeat b u)) := by
  cases b with
  | byte x =>
    simp only [Machine.fetchBeat, fetchByte, countByteIn_eng, countByteIn_cs, h.aStrat, h.cs]
    cases readByte s.eng.aStrat x s.cs with
    | noCode c => exact (h.map (fun y => { countByteIn y with cs := c }) (fun _ => rfl) (fun _ => rfl)).next
    | code k c =>
      exact (h.map (fun y => codeCompleted c (countByteIn y)) (fun _ => rfl) (fun _ => rfl)).execCode hd k
    | formatError =>
      exact (h.map (fun y => raiseStop .textFormat (BitVec.ofNat 32 x.toNat) (countByteIn y)) (fun _ => rfl)
        (fun _ => rfl)).next
  | endMark => exact (h.map (raiseStop .inEnd 0) (fun _ => rfl) (fun _ => rfl)).next
  | error => exact (h.map (raiseStop .inError 0) (fun _ => rfl) (fun _ => rfl)).next

theorem Alike.consumeBeat {s u : State} (h : Alike s u) (b : Beat) (rest : List Beat) :
    Follows (runFetch (consumeBeat b rest s)) (runFetch (consumeBeat b rest u)) := by
  have hq := h.map (fun x => { x with env.inq := rest }) (fun _ => rfl) (fun _ => rfl)
  unfold Machine.consumeBeat
  rw [h.aDir]
  cases hd : s.eng.aDir with
  | compress => exact (hq.consumeCompress hd b).next
  | decompress => exact hq.fetchBeat hd b

theorem Alike.drainBeat {s u : State} (h : Alike s u) (b : OutBeat) (rest : List OutBeat) :
    Alike (drainBeat b rest s) (drainBeat b rest u) := by
  cases b with
  | byte x => exact h.map (Machine.drainBeat (.byte x) rest) (fun _ => rfl) (fun _ => rfl)
  | endMark => exact h.map (Machine.drainBeat .endMark rest) (fun _ => rfl) (fun _ => rfl)

theorem Alike.engineStep {s u : State} (h : Alike s u) : Follows (engineStep s) (engineStep u) := by
  unfold Machine.engineStep engineMove
  rw [h.env, h.obuf, h.phase]
  split
  · split
    next b rest _ =>
      split
      · exact (h.drainBeat b rest).next
      · exact h.next
    next =>
      split
      · split
        next b rest _ => exact h.consumeBeat b rest
        next => exact h.next
      · exact h.next
  · exact h.next

/-- Two machines alike take a stream's move, or the engine's, alike. -/
theorem Alike.step {s u : State} (h : Alike s u) (hs : s.cfg.legal = true) (hu : u.cfg.legal = true)
    (hstream : s.env.script.all HostTurn.streamOnly = true) : Follows (step s) (step u) := by
  have hpop := h.map State.popTurn (fun _ => rfl) (fun _ => rfl)
  cases hsc : s.env.script with
  | nil =>
    rw [step_of_nil hs hsc, step_of_nil hu (h.env ▸ hsc)]
    exact hpop.engineStep
  | cons turn rest =>
    rw [step_of_cons hs hsc, step_of_cons hu (h.env ▸ hsc)]
    rw [hsc, List.all_cons, Bool.and_eq_true] at hstream
    cases turn with
    | engine => exact hpop.engineStep
    | offer kind data =>
      exact (hpop.map (fun x => { x with env.inq := x.env.inq ++ [Beat.ofSignals kind data] }) (fun _ => rfl)
        (fun _ => rfl)).next
    | sinkReady level => exact (hpop.map (fun x => { x with env.outReady := level }) (fun _ => rfl) (fun _ => rfl)).next
    | regWrite off m d => simp [HostTurn.streamOnly] at hstream
    | regRead off => simp [HostTurn.streamOnly] at hstream
    | withdraw => simp [HostTurn.streamOnly] at hstream
    | rst level => simp [HostTurn.streamOnly] at hstream

/-- The tail of stream moves is stream moves. -/
theorem streamOnly_tail {l : List HostTurn} (h : l.all HostTurn.streamOnly = true) :
    l.tail.all HostTurn.streamOnly = true := by
  cases l with
  | nil => rfl
  | cons a l => exact (Bool.and_eq_true _ _ ▸ h).2

theorem run_succ_of_step {s t : State} (h : step s = .next t) (n : Nat) :
    Host.Core.run Sys2Proof.core (n + 1) s = Host.Core.run Sys2Proof.core n t := by
  have hc : Host.Core.step Sys2Proof.core s = .next t := h
  simp only [Host.Core.run, hc]

/-- Machines alike stay alike for any number of steps, and none of the steps stops. -/
theorem Alike.run {s u : State} (n : Nat) (h : Alike s u) (hi : EngineInv s) (hs : s.cfg.legal = true)
    (hu : u.cfg.legal = true) (hstream : s.env.script.all HostTurn.streamOnly = true) :
    ∃ t v, Host.Core.run Sys2Proof.core n s = .next t ∧ Host.Core.run Sys2Proof.core n u = .next v ∧
      Alike t v := by
  induction n generalizing s u with
  | zero => exact ⟨s, u, rfl, rfl, h⟩
  | succ n ih =>
    obtain ⟨s', hs'⟩ := step_answers hs hi hstream
    obtain ⟨u', hu', h'⟩ := h.step hs hu hstream s' hs'
    rw [run_succ_of_step hs', run_succ_of_step hu']
    exact ih h' (dictionaryInvariantKept s s' hi hs') (step_cfg hs' ▸ hs) (step_cfg hu' ▸ hu)
      (step_script hs' ▸ streamOnly_tail hstream)

/-! ### An accepted START -/

theorem decodeCmd_start (d : Dir) (st : Strategy) :
    decodeCmd (BitVec.ofNat 32 (encodeValue (Instr.start d st))) = Instr.start d st := by
  cases d <;> cases st <;> decide

theorem exec_start (d : Dir) (st : Strategy) (s : State) : exec (Instr.start d st) s = .next (start d st s) := by
  cases d <;> cases st <;> rfl

/-- A START that a ready machine accepts (45_host_commands.md R229). -/
theorem step_start {d : Dir} {st : Strategy} {s : State} {turns : List HostTurn} (hr : s.ready)
    (hl : startLegal s.cfg st s.regs.maxCode = true)
    (hs : s.env.script = commandWrite (Instr.start d st) :: turns) :
    step s = .next (startOperation d st s.regs.maxCode (startReport d st s.popTurn)) := by
  obtain ⟨hlegal, hrst, hidle, -⟩ := hr
  rw [step_command hlegal hrst hs (by decide) rfl, decodeCmd_start, exec_start, start,
    if_neg (by rw [State.busy_eq_true, popTurn_eng]; exact not_not.mpr hidle), startIdle, popTurn_cfg, popTurn_regs,
    if_pos hl]

/-- After the same START two ready machines with the same environment are alike: of what they held before, the
operation has only the environment and the empty output buffer. -/
theorem alike_start {d : Dir} {st : Strategy} {s u : State} (hs : s.ready) (hu : u.ready)
    (hm : s.regs.maxCode = u.regs.maxCode) (he : s.env = u.env) :
    Alike (startOperation d st s.regs.maxCode (startReport d st s.popTurn))
      (startOperation d st u.regs.maxCode (startReport d st u.popTurn)) := by
  obtain ⟨-, -, -, hso⟩ := hs
  obtain ⟨-, -, -, huo⟩ := hu
  have hv : ∀ (m : Word) (x : State), x.eng.obuf = [] →
      (startOperation d st m (startReport d st x.popTurn)).visible =
        (startOperation d st m (startReport d st ({ State.reset with env := x.env } : State).popTurn)).visible := by
    intro m x hx
    have : (startOperation d st m (startReport d st x.popTurn)).visible =
      (startOperation d st m (startReport d st
        ({ State.reset with env := x.env, eng.obuf := x.eng.obuf } : State).popTurn)).visible := rfl
    rw [this, hx]
    rfl
  refine ⟨by rw [hv _ s hso, hv _ u huo, hm, he], fun hc => (nomatch hc), fun hp => (nomatch hp), ?_⟩
  intro _ k h1 h2
  exact absurd (lt_of_le_of_lt h1 h2) (lt_irrefl 257)

/-- Settles O59, by a simulation: `Alike` holds after START and every step keeps it. -/
theorem operationsIndependent : Obligations.OperationsIndependent := by
  unfold Obligations.OperationsIndependent
  intro d st s u turns n hs hu hm hls hlu he hscript hstream
  have hs1 := step_start hs hls hscript
  have hu1 := step_start hu hlu (he ▸ hscript)
  obtain ⟨t, v, ht, hv, h⟩ := (alike_start (d := d) (st := st) hs hu hm he).run n
    (startOperation_engineInv d st s.popTurn hls) hs.1 hu.1 (by
      simpa [State.popTurn, hscript] using hstream)
  rw [← run_succ_of_step hs1] at ht
  rw [← run_succ_of_step hu1] at hv
  have vis := h.visible
  exact ⟨t, v, ht, hv, h.env.symm, h.phase.symm, h.obuf.symm, h.nextCode.symm, h.cs.symm,
    (congrArg (·.regs.reason) vis).symm, (congrArg (·.regs.errInfo) vis).symm,
    (congrArg (·.regs.codeCount) vis).symm, (congrArg (·.regs.bytesIn) vis).symm,
    (congrArg (·.regs.bytesOut) vis).symm, (congrArg (·.regs.done) vis).symm, (congrArg (·.regs.err) vis).symm⟩

end Sys2Proof.Machine
end

section
/-! PROOFS. What every step keeps: canonical tables, the phase transitions, IRQ_STATUS, the latched configuration and
the parameters (10_state.md R21, R23, R28, R38, R43, R44). -/

namespace Sys2Proof.Machine

open Sys2Proof

/-! ### Canonical tables -/

theorem TablesCanonical.of_tabs {s t : State} (h : TablesCanonical s) (he : t.tabs.enc = s.tabs.enc)
    (hd : t.tabs.dec = s.tabs.dec) : TablesCanonical t :=
  ⟨he ▸ h.1, hd ▸ h.2⟩

theorem TablesCanonical.of_dictionary {s t : State} (h : TablesCanonical s) (e : t.dictionary = s.dictionary) :
    TablesCanonical t :=
  h.of_tabs (congrArg (·.tabs.enc) e) (congrArg (·.tabs.dec) e)

theorem TablesCanonical.byteMove {c : Byte} {s t : State} (h : TablesCanonical s) (m : ByteMove c s t) :
    TablesCanonical t := by
  cases m with
  | first => exact h
  | hit => exact h
  | insert => exact ⟨Memory.wf_write _ _ _ h.1, h.2⟩
  | full => exact h

theorem compressEnd_dictionary (s : State) : (compressEnd s).dictionary = s.dictionary := by
  unfold compressEnd
  split_ifs <;> rfl

theorem TablesCanonical.consumeCompress {s : State} (h : TablesCanonical s) (b : Beat) :
    TablesCanonical (consumeCompress b s) := by
  cases b with
  | byte c => exact TablesCanonical.byteMove (s := countByteIn s) h (compressByte_move c _)
  | endMark => exact h.of_dictionary (compressEnd_dictionary s)
  | error => exact h

theorem TablesCanonical.decodeInsert {s : State} (h : TablesCanonical s) (first : Byte) :
    TablesCanonical (decodeInsert first s) := by
  rcases decodeInsert_cases first s with ⟨-, -, e⟩ | e <;> rw [e]
  · exact ⟨h.1, Memory.wf_write _ _ _ h.2⟩
  · exact h

theorem TablesCanonical.codeMove {k : Code} {u t : State} (h : TablesCanonical u) (m : CodeMove k u t) :
    TablesCanonical t := by
  cases m with
  | eof => exact h
  | bad => exact h
  | lit b => exact TablesCanonical.decodeInsert (s := symWrite b [] u) h b
  | dict first rest => exact TablesCanonical.decodeInsert (s := symWrite first rest (stackPopped u)) h first
  | kwkwk bs =>
    exact TablesCanonical.decodeInsert (s := outPushAll (bs ++ [u.eng.prevFirst]) (stackPopped u)) h u.eng.prevFirst

/-- START empties `ENC`; ABORT draws contents that are put into canonical form (45_host_commands.md R229, R232). -/
theorem TablesCanonical.cmdMove {s t : State} (h : TablesCanonical s) (m : CmdMove s t) : TablesCanonical t := by
  cases m with
  | same => exact h
  | reject => exact h
  | started => exact ⟨rfl, h.2⟩
  | cfgErr => exact h
  | abort => exact ⟨Memory.wf_ofCells _, Memory.wf_ofCells _⟩
  | clear => exact h

theorem TablesCanonical.move {s t : State} (h : TablesCanonical s) (m : Move s t) : TablesCanonical t := by
  cases m with
  | wait => exact h
  | drain b rest => exact h.of_dictionary (drainBeat_dictionary b rest s)
  | compress b rest => exact TablesCanonical.consumeCompress (s := { s with env.inq := rest }) h b
  | fetched b rest t hr ho hp hi hd hf =>
    exact TablesCanonical.of_dictionary (s := { s with env.inq := rest }) h (fetchBeat_done hf).dictionary
  | code b rest k c t hr ho hp hi hd hf hm =>
    exact TablesCanonical.codeMove (u := codeCompleted c (countByteIn { s with env.inq := rest })) h hm
  | command t hr hm => exact h.cmdMove hm
  | regWrite i d => exact h.of_dictionary (writeWord_dictionary i d s)
  | envOnly => exact h
  | reset => exact ⟨Memory.wf_ofCells _, Memory.wf_ofCells _⟩

/-- Settles O45: a table changes only by writes, which keep the form, and by draws put into it. -/
theorem tablesStayCanonical : Obligations.TablesStayCanonical := by
  unfold Obligations.TablesStayCanonical
  intro s t h hstep
  exact TablesCanonical.move (s := s.popTurn) h (step_move hstep).2

/-! ### Phase transitions -/

theorem driveReset_cases (level : Bool) (s : State) :
    driveReset level s = s ∨ driveReset level s = { resetBlock s with env.rstN := level } := by
  unfold driveReset
  split_ifs
  · exact .inl rfl
  · exact .inr rfl

/-- A command word is a START, NOP, ABORT, CLEAR or reserved (30_encoding.md R94). -/
theorem command_cases {i : Instr} (hf : i.format = .cmd32) :
    (∃ d st, i = Instr.start d st) ∨ i = .nop ∨ i = .abort ∨ i = .clear ∨ ∃ w, i = .reserved w := by
  cases i with
  | nop => exact .inr (.inl rfl)
  | startCText => exact .inl ⟨.compress, .text, rfl⟩
  | startDText => exact .inl ⟨.decompress, .text, rfl⟩
  | startCF16 => exact .inl ⟨.compress, .fixed16, rfl⟩
  | startDF16 => exact .inl ⟨.decompress, .fixed16, rfl⟩
  | startCFw => exact .inl ⟨.compress, .fixedw, rfl⟩
  | startDFw => exact .inl ⟨.decompress, .fixedw, rfl⟩
  | startCAd => exact .inl ⟨.compress, .adaptive, rfl⟩
  | startDAd => exact .inl ⟨.decompress, .adaptive, rfl⟩
  | abort => exact .inr (.inr (.inl rfl))
  | clear => exact .inr (.inr (.inr (.inl rfl)))
  | reserved w => exact .inr (.inr (.inr (.inr ⟨w, rfl⟩)))
  | lit b => cases hf
  | eof => cases hf
  | dict k => cases hf
  | kwkwk k => cases hf
  | bad k => cases hf

theorem encodeValue_ite {w v : Word} {a b : Instr} (ha : encodeValue a = v.toNat) (hb : encodeValue b = w.toNat) :
    encodeValue (if w = v then a else b) = w.toNat := by
  split_ifs with h
  · rw [ha, h]
  · exact hb

/-- A decoded command is encoded as the word it was decoded from (30_encoding.md R94, R96). -/
theorem encodeValue_decodeCmd (w : Word) : encodeValue (decodeCmd w) = w.toNat := by
  unfold decodeCmd
  repeat refine encodeValue_ite rfl ?_
  rfl

/-- ABORT has one word (30_encoding.md R94). -/
theorem decodeCmd_abort {w : Word} (h : decodeCmd w = .abort) : w = 0x00000002 := by
  have hw := encodeValue_decodeCmd w
  rw [h] at hw
  exact BitVec.eq_of_toNat_eq hw.symm

theorem start_phase {d : Dir} {st : Strategy} {s : State} (h : (start d st s).eng.phase ≠ s.eng.phase) :
    s.eng.phase = .idle ∧ (start d st s).eng.phase = .run := by
  unfold start startIdle at h ⊢
  split_ifs at h ⊢ with hb hl
  · exact absurd rfl h
  · exact ⟨State.busy_eq_false.mp (by simpa using hb), rfl⟩
  · exact absurd rfl h

/-- The commands that move the phase: START of an idle block, and ABORT of a busy one (45_host_commands.md R229,
R232). -/
theorem exec_command_phase {i : Instr} (hf : i.format = .cmd32) {s t : State} (h : exec i s = .next t)
    (hp : t.eng.phase ≠ s.eng.phase) :
    (s.eng.phase = .idle ∧ t.eng.phase = .run ∧ ∃ d st, i = Instr.start d st) ∨
      (s.eng.phase ≠ .idle ∧ t.eng.phase = .idle ∧ i = .abort) := by
  rcases command_cases hf with ⟨d, st, rfl⟩ | rfl | rfl | rfl | ⟨w, rfl⟩
  · rw [exec_start] at h
    obtain rfl := Host.Outcome.next.inj h
    exact .inl ⟨(start_phase hp).1, (start_phase hp).2, d, st, rfl⟩
  · obtain rfl := Host.Outcome.next.inj h
    exact absurd rfl hp
  · obtain rfl := Host.Outcome.next.inj h
    split_ifs at hp ⊢ with hb
    · exact .inr ⟨State.busy_eq_true.mp hb, abortBusy_phase s, rfl⟩
    · exact absurd rfl hp
  · obtain rfl := Host.Outcome.next.inj h
    split_ifs at hp <;> exact absurd rfl hp
  · obtain rfl := Host.Outcome.next.inj h
    exact absurd rfl hp

/-- An output buffer that holds one End, as its last beat, and starts with it holds nothing else. -/
theorem endsOnce_endMark {rest : List OutBeat} (h : endsOnce (.endMark :: rest) = true) : rest = [] := by
  cases rest with
  | nil => rfl
  | cons b rest => simp [endsOnce, bytesOnly] at h

/-- While the report is consistent, an End at the head of the output buffer is the last beat of a stopped operation
(20_memory.md R67; 60_exceptions.md R246). -/
theorem ReportInv.endMark_head {s : State} (h : ReportInv s) {rest : List OutBeat}
    (ho : s.eng.obuf = .endMark :: rest) : s.eng.phase = .drain ∧ rest = [] := by
  cases hp : s.eng.phase with
  | idle => simp [h.idle hp] at ho
  | run =>
    have := (h.run hp).1
    simp [ho, bytesOnly] at this
  | drain =>
    have := (h.drain hp).1
    rw [ho] at this
    exact ⟨rfl, endsOnce_endMark this⟩

/-- Settles O51: by the pending move. The engine moves the phase only by a stop or by delivering End, a register write
only by START and ABORT. -/
theorem phaseTransitions : Obligations.PhaseTransitions := by
  unfold Obligations.PhaseTransitions
  intro s t h hstep hp
  cases step_turn hstep with
  | engine t hn hm =>
    cases hm with
    | wait => exact absurd rfl hp
    | drain b rest hr ho hs =>
      cases b with
      | byte x => exact absurd rfl hp
      | endMark =>
        obtain ⟨hd, rfl⟩ := h.endMark_head ho
        exact .inr (.inr (.inl ⟨hd, rfl, hn, ho, rfl⟩))
    | consume b rest t hr ho hrun hi hc =>
      rcases hc.frame.phase with e | e
      · exact absurd e hp
      · exact .inr (.inl ⟨hrun, e, hn⟩)
  | command off m w rest t hs hr ho he =>
    rcases exec_command_phase (decodeCmd_format w) he hp with ⟨hi, hrun, d, st, hw⟩ | ⟨hb, hi, hw⟩
    · exact .inl ⟨hi, hrun, off, m, rest, d, st, w, hs, ho, hw⟩
    · obtain rfl := decodeCmd_abort hw
      exact .inr (.inr (.inr (.inl ⟨hb, hi, off, m, rest, hs, ho⟩)))
  | store off m d rest hs =>
    rw [writeWord_eng] at hp
    exact absurd rfl hp
  | reset level rest hs =>
    rcases driveReset_cases level s.popTurn with e | e <;> rw [e] at hp ⊢
    · exact absurd rfl hp
    · exact .inr (.inr (.inr (.inr ⟨rfl, level, rest, hs⟩)))
  | envOnly e => exact absurd rfl hp

/-! ### IRQ_STATUS -/

theorem drainBeat_irqStatus (b : OutBeat) (rest : List OutBeat) (s : State) :
    ∃ m, (drainBeat b rest s).regs.irqStatus = s.regs.irqStatus ||| m := by
  cases b with
  | byte x => exact ⟨0, BitVec.or_zero.symm⟩
  | endMark => exact ⟨_, rfl⟩

/-- The engine only sets bits of IRQ_STATUS (10_state.md R28). -/
theorem EngineMove.irqStatus {s t : State} (m : EngineMove s t) :
    ∃ x, t.regs.irqStatus = s.regs.irqStatus ||| x := by
  cases m with
  | wait => exact ⟨0, BitVec.or_zero.symm⟩
  | drain b rest => exact drainBeat_irqStatus b rest s
  | consume b rest t hr ho hp hi hc => exact ⟨0, hc.frame.irqStatus.trans BitVec.or_zero.symm⟩

/-- So does every command (45_host_commands.md R228, R230, R232). -/
theorem CmdMove.irqStatus {s t : State} (m : CmdMove s t) : ∃ x, t.regs.irqStatus = s.regs.irqStatus ||| x := by
  cases m with
  | same => exact ⟨0, BitVec.or_zero.symm⟩
  | reject => exact ⟨_, rfl⟩
  | started => exact ⟨0, BitVec.or_zero.symm⟩
  | cfgErr => exact ⟨_, rfl⟩
  | abort =>
    unfold abortBusy
    split_ifs
    · exact ⟨_, rfl⟩
    · exact ⟨_, rfl⟩
  | clear => exact ⟨0, BitVec.or_zero.symm⟩

/-- A stored word clears an IRQ_STATUS bit only as a 1 in that bit of a write to IRQ_STATUS. -/
theorem writeWord_clears {i n : Nat} {d : Word} {s : State} (hs : s.regs.irqStatus.getLsbD n = true)
    (ht : (writeWord i d s).regs.irqStatus.getLsbD n = false) : i = 4 ∧ d.getLsbD n = true := by
  unfold writeWord at ht
  split at ht
  · simp [hs] at ht
  · refine ⟨rfl, ?_⟩
    have hn : n < 3 := BitVec.lt_of_getLsbD hs
    simpa [hs, hn] using ht
  · simp [hs] at ht
  · simp [hs] at ht

/-- Settles O53: the engine and the commands only set bits, so a bit falls by a store or by reset. -/
theorem irqClearedByHostOnly : Obligations.IrqClearedByHostOnly := by
  unfold Obligations.IrqClearedByHostOnly
  intro s t i hstep hs ht
  have hset : ¬ ∃ x, t.regs.irqStatus = s.regs.irqStatus ||| x := by
    rintro ⟨x, hx⟩
    simp [hx, hs] at ht
  cases step_turn hstep with
  | engine t hn hm => exact absurd hm.irqStatus hset
  | command off m w rest t hsc hr ho he =>
    obtain ⟨u, hu, hm⟩ := exec_command (decodeCmd w) (decodeCmd_format w) s.popTurn
    obtain rfl := Host.Outcome.next.inj (hu.symm.trans he)
    exact absurd hm.irqStatus hset
  | store off m d rest hsc =>
    obtain ⟨ho, hd⟩ := writeWord_clears (s := s.popTurn) hs ht
    exact .inl ⟨off, m, d, rest, hsc, ho, hd⟩
  | reset level rest hsc => exact .inr ⟨level, rest, hsc⟩
  | envOnly e => exact absurd ⟨0, BitVec.or_zero.symm⟩ hset

/-! ### The latched configuration -/

/-- The width, its counter and the next bump, without the pending bits and the Text line. -/
def CodeStream.growth (c : CodeStream) : CodeStream := { c with acc := 0, nbits := 0, tval := 0, tdig := false }

/-- Only ADAPTIVE bumps (41_code_stream.md R131, R132). -/
theorem bumpFor_of_ne {st : Strategy} (hst : st ≠ .adaptive) (mc : Code) (c : CodeStream) : bumpFor st mc c = c := by
  cases st with
  | adaptive => exact absurd rfl hst
  | text | fixed16 | fixedw => rfl

theorem writeCode_growth {st : Strategy} (hst : st ≠ .adaptive) (mc k : Code) (c : CodeStream) :
    (writeCode st mc k c).2.growth = c.growth := by
  cases st with
  | adaptive => exact absurd rfl hst
  | text | fixed16 | fixedw => rfl

theorem flushFor_growth (st : Strategy) (c : CodeStream) : (flushFor st c).2.growth = c.growth := by
  have hflush : (flushSession c).2.growth = c.growth := by
    unfold flushSession
    split_ifs <;> rfl
  cases st with
  | text | fixed16 => rfl
  | fixedw | adaptive => exact hflush

/-- What a reader leaves of the width and its counter. -/
def ReadResult.keepsGrowth (c : CodeStream) : ReadResult → Prop
  | .noCode c' => c'.growth = c.growth
  | .code _ c' => c'.growth = c.growth
  | .formatError => True

theorem packReadByte_growth (b : Byte) (c : CodeStream) : (packReadByte b c).keepsGrowth c := by
  unfold packReadByte
  dsimp only
  split_ifs <;> rfl

theorem readByte_growth (st : Strategy) (b : Byte) (c : CodeStream) : (readByte st b c).keepsGrowth c := by
  cases st with
  | text =>
    unfold readByte textReadByte
    dsimp only
    split_ifs <;> trivial
  | fixed16 =>
    unfold readByte fixed16ReadByte
    dsimp only
    split_ifs <;> rfl
  | fixedw | adaptive => exact packReadByte_growth b c

theorem csFinalize_growth {s : State} (hst : s.eng.aStrat ≠ .adaptive) :
    (csFinalize s).cs.growth = s.cs.growth :=
  (flushFor_growth _ _).trans (writeCode_growth hst _ _ _)

theorem ByteMove.growth {c : Byte} {s t : State} (m : ByteMove c s t) (hst : s.eng.aStrat ≠ .adaptive) :
    t.cs.growth = s.cs.growth := by
  cases m with
  | first | hit => rfl
  | insert | full => exact writeCode_growth hst _ _ _

theorem consumeCompress_growth (b : Beat) {s : State} (hst : s.eng.aStrat ≠ .adaptive) :
    (consumeCompress b s).cs.growth = s.cs.growth := by
  cases b with
  | byte c => exact (compressByte_move c (countByteIn s)).growth hst
  | endMark =>
    unfold consumeCompress compressEnd
    split_ifs
    · exact (csFinalize_growth (s := csWrite s.eng.cur s) hst).trans (writeCode_growth hst _ _ _)
    · exact csFinalize_growth hst
  | error => exact csFinalize_growth hst

theorem FetchMove.growth {b : Beat} {s t : State} (m : FetchMove b s t) : t.cs.growth = s.cs.growth := by
  cases m with
  | more x c hb hc =>
    have hr := readByte_growth s.eng.aStrat x s.cs
    rw [hc] at hr
    exact hr
  | format | stop => rfl

/-- Outside ADAPTIVE no consuming step moves the width (10_state.md R45). -/
theorem Consumed.growth {b : Beat} {s t : State} (m : Consumed b s t) (hst : s.eng.aStrat ≠ .adaptive) :
    t.cs.growth = s.cs.growth := by
  cases m with
  | compress => exact consumeCompress_growth b hst
  | fetched t hd hf => exact (fetchBeat_done hf).growth
  | code x k c t hd hf hm =>
    have hr := readByte_growth s.eng.aStrat x s.cs
    rw [hf] at hr
    rw [hm.cs, codeCompleted_cs, countByteIn_eng, bumpFor_of_ne hst]
    exact hr

/-- A command leaves a busy block busy only by changing neither its configuration nor its session: START and CLEAR
are rejected, and ABORT ends the operation (45_host_commands.md R228, R232, R234). -/
theorem CmdMove.busy {s t : State} (m : CmdMove s t) (hs : s.eng.phase ≠ .idle) (ht : t.eng.phase ≠ .idle) :
    t.eng = s.eng ∧ t.cs = s.cs := by
  cases m with
  | same | reject => exact ⟨rfl, rfl⟩
  | started d st hi | cfgErr d st hi | clear hi => exact absurd hi hs
  | abort => exact absurd (abortBusy_phase s) ht

/-- Settles O54: MAX_CODE is read only by START, which a busy block rejects. -/
theorem configurationLatched : Obligations.ConfigurationLatched := by
  unfold Obligations.ConfigurationLatched
  intro s t hstep hs ht
  suffices hkey : t.eng.aDir = s.eng.aDir ∧ t.eng.aStrat = s.eng.aStrat ∧ t.eng.aMc = s.eng.aMc ∧
      (s.eng.aStrat ≠ .adaptive → t.cs.growth = s.cs.growth) by
    obtain ⟨hdir, hstrat, hmc, hg⟩ := hkey
    exact ⟨hdir, hstrat, hmc, fun hst =>
      ⟨congrArg (·.width) (hg hst), congrArg (·.currentCode) (hg hst), congrArg (·.nextBump) (hg hst)⟩⟩
  cases step_turn hstep with
  | engine t hn hm =>
    cases hm with
    | wait => exact ⟨rfl, rfl, rfl, fun _ => rfl⟩
    | drain b => cases b <;> exact ⟨rfl, rfl, rfl, fun _ => rfl⟩
    | consume b rest t hr ho hp hi hc => exact ⟨hc.frame.aDir, hc.frame.aStrat, hc.frame.aMc, hc.growth⟩
  | command off m w rest t hsc hr ho he =>
    obtain ⟨u, hu, hm⟩ := exec_command (decodeCmd w) (decodeCmd_format w) s.popTurn
    obtain rfl := Host.Outcome.next.inj (hu.symm.trans he)
    obtain ⟨heng, hcs⟩ := hm.busy hs ht
    rw [heng, hcs]
    exact ⟨rfl, rfl, rfl, fun _ => rfl⟩
  | store off m d rest hsc =>
    rw [writeWord_eng, writeWord_cs]
    exact ⟨rfl, rfl, rfl, fun _ => rfl⟩
  | reset level rest hsc =>
    rcases driveReset_cases level s.popTurn with e | e <;> rw [e] at ht ⊢
    · exact ⟨rfl, rfl, rfl, fun _ => rfl⟩
    · exact absurd rfl ht
  | envOnly e => exact ⟨rfl, rfl, rfl, fun _ => rfl⟩

/-! ### The parameters -/

/-- ID is a constant, in and out of reset (10_state.md R23). -/
theorem readReg_id (s : State) : readReg s 0x00 = idWord := by
  unfold readReg
  split_ifs <;> rfl

/-- CAPS shows the parameters alone, in and out of reset (10_state.md R34). -/
theorem readReg_caps (s : State) : readReg s 0x30 = capsWord s.cfg := by
  unfold readReg
  split_ifs <;> rfl

/-- Settles O55: no move writes the parameters, and ID and CAPS show nothing else. -/
theorem parametersConstant : Obligations.ParametersConstant := by
  unfold Obligations.ParametersConstant
  intro s t h
  have hcfg := step_cfg h
  exact ⟨hcfg, readReg_id t, by rw [readReg_caps, readReg_caps, hcfg]⟩

end Sys2Proof.Machine
end

section
/-! PROOFS. The register window (10_state.md R22 to R36; 20_memory.md R60 to R63) and the state after reset (R52). -/

namespace Sys2Proof.Machine

open Sys2Proof

/-! ### CMD -/

/-- Bytes of a number that fits them spell it (20_memory.md R62). -/
theorem leNat_leBytes (n v : Nat) (h : v < 256 ^ n) : leNat (leBytes n v) = v := by
  induction n generalizing v with
  | zero =>
    rw [pow_zero, Nat.lt_one_iff] at h
    simp [leBytes, leNat, h]
  | succ n ih =>
    have hv : v / 256 < 256 ^ n := by
      rw [Nat.div_lt_iff_lt_mul (by norm_num), ← pow_succ]
      exact h
    simp only [leBytes, leNat, ih _ hv, BitVec.toNat_ofNat]
    omega

/-- The decoder on the four bytes of a word is the command decode (30_encoding.md R94). -/
theorem decode_cmd32 (x : CodeCtx) (w : Word) : decode .cmd32 x (leBytes 4 w.toNat) = .instr (decodeCmd w) := by
  have hw : leNat (leBytes 4 w.toNat) = w.toNat := leNat_leBytes 4 _ w.isLt
  rw [decode, if_pos (leBytes_length 4 _), hw, BitVec.ofNat_toNat, BitVec.setWidth_eq]

/-- The state a turn runs on, with the list of pending moves written out. -/
theorem popTurn_of_script {s : State} {turn : HostTurn} {rest : List HostTurn} (h : s.env.script = turn :: rest) :
    s.popTurn = { s with env.script := rest } := by
  rw [State.popTurn, h, List.tail_cons]

/-- A read of CMD returns 0, in and out of reset (10_state.md R25). -/
theorem readReg_cmd (s : State) : readReg s 0x08 = 0 := by
  unfold readReg
  split_ifs <;> rfl

/-- Settles O7: a write to word 2 is the command its bytes decode to. -/
theorem stepRunsWrittenCommand : Obligations.StepRunsWrittenCommand := by
  unfold Obligations.StepRunsWrittenCommand
  refine ⟨fun s off m d rest i x hl hr hs h1 h2 hm hd => ?_, readReg_cmd⟩
  rw [decode_cmd32, Decoded.instr.injEq] at hd
  rw [step_command hl hr hs hm (by omega), hd, popTurn_of_script hs]

/-! ### Reads -/

/-- Out of reset every byte offset of word `i` reads the word (20_memory.md R61). -/
theorem readReg_word {s : State} (hr : s.env.rstN = true) {o : Nat} (ho : o < 4) {i : Nat} (hi : i < 16) :
    readReg s (4 * i + o) = readWord s i := by
  have hw : wordIndex (4 * i + o) = i := by
    unfold wordIndex
    omega
  rw [readReg, if_pos hr, hw]

/-- Settles O12: each offset selects its word, and each word reads its register. -/
theorem registerReadValues : Obligations.RegisterReadValues := by
  unfold Obligations.RegisterReadValues
  intro s o hr ho
  have hread := fun i (hi : i < 16) => readReg_word hr ho hi
  exact ⟨hread 0 (by decide), hread 1 (by decide), hread 2 (by decide), hread 3 (by decide),
    (hread 4 (by decide)).trans (BitVec.ofNat_toNat _ _), (hread 5 (by decide)).trans (BitVec.ofNat_toNat _ _),
    hread 6 (by decide), (hread 7 (by decide)).trans (BitVec.ofNat_toNat _ _),
    (hread 8 (by decide)).trans (BitVec.ofNat_toNat _ _), hread 9 (by decide), hread 10 (by decide),
    hread 11 (by decide), hread 12 (by decide), hread 13 (by decide), hread 14 (by decide), hread 15 (by decide)⟩

/-! ### STATUS and CAPS -/

theorem Reason.bits_le (r : Reason) : r.bits ≤ 7 := by cases r <;> decide
theorem Strategy.bits_le (st : Strategy) : st.bits ≤ 3 := by cases st <;> decide

/-- A bit of a word that spells `n`. -/
theorem getLsbD_ofNat_eq {n i : Nat} {b : Bool} (hi : i < 32) (h : n / 2 ^ i % 2 = b.toNat) :
    (BitVec.ofNat 32 n).getLsbD i = b := by
  rw [BitVec.getLsbD_ofNat, Nat.testBit_eq_decide_div_mod_eq, decide_eq_true hi, Bool.true_and, h]
  cases b <;> rfl

/-- A field of a word that spells `n`. -/
theorem toNat_field_ofNat {n : Nat} (i w : Nat) (hn : n < 2 ^ 32) :
    ((BitVec.ofNat 32 n).extractLsb' i w).toNat = n / 2 ^ i % 2 ^ w := by
  rw [BitVec.extractLsb'_toNat, BitVec.toNat_ofNat, Nat.mod_eq_of_lt hn, Nat.shiftRight_eq_div_pow]

/-- A field of a word that spells `n`, as a word of its own. -/
theorem field_ofNat_eq {n i w : Nat} {x : BitVec w} (hn : n < 2 ^ 32) (h : n / 2 ^ i % 2 ^ w = x.toNat) :
    (BitVec.ofNat 32 n).extractLsb' i w = x :=
  BitVec.eq_of_toNat_eq ((toNat_field_ofNat i w hn).trans h)

theorem Dir.bits_eq (d : Dir) : d.bits = (decide (d = .decompress)).toNat := by cases d <;> rfl

theorem lookupBit_eq (l : LookupImpl) : lookupBit l = (decide (l = .cam)).toNat := by cases l <;> rfl

/-- Settles O13: each field is narrower than the distance to the next, so it stands alone at its bits. -/
theorem statusAndCapsFields : Obligations.StatusAndCapsFields := by
  unfold Obligations.StatusAndCapsFields
  intro s
  have hbusy := s.busy.toNat_le
  have hdone := s.regs.done.toNat_le
  have herr := s.regs.err.toNat_le
  have hreason := s.regs.reason.bits_le
  have hdir := Bool.toNat_le (decide (s.regs.dir = .decompress))
  have hstrat := Strategy.bits_le s.regs.strat
  have hcap := s.cfg.maxCodeCap.isLt
  have hhash := s.cfg.hashBits.isLt
  have hlook := Bool.toNat_le (decide (s.cfg.lookupImpl = .cam))
  unfold State.statusWord capsWord
  rw [Dir.bits_eq, lookupBit_eq, ← State.busy_eq_true]
  refine ⟨?_, ?_, ?_, ?_, ?_, ?_, ?_, ?_, ?_, ?_, ?_, ?_, ?_⟩
  · rw [getLsbD_ofNat_eq (b := s.busy) (by decide) (by omega)]
  · exact getLsbD_ofNat_eq (by decide) (by omega)
  · exact getLsbD_ofNat_eq (by decide) (by omega)
  · exact getLsbD_ofNat_eq (by decide) (by rw [Bool.toNat_false]; omega)
  · rw [toNat_field_ofNat 4 4 (by omega)]; omega
  · exact getLsbD_ofNat_eq (by decide) (by omega)
  · rw [toNat_field_ofNat 9 2 (by omega)]; omega
  · exact field_ofNat_eq (by omega) (show _ = 0 by omega)
  · exact field_ofNat_eq (by omega) (by omega)
  · exact field_ofNat_eq (by omega) (by omega)
  · exact field_ofNat_eq (by omega) (show _ = 0 by omega)
  · exact getLsbD_ofNat_eq (by decide) (by omega)
  · exact field_ofNat_eq (by omega) (show _ = 0 by omega)

/-! ### Writes -/

/-- A word that holds no register of the host ignores the write (10_state.md R22, R35). -/
theorem writeWord_other {i : Nat} (d : Word) (s : State) (h1 : i ≠ 1) (h4 : i ≠ 4) (h5 : i ≠ 5) :
    writeWord i d s = s := by
  unfold writeWord
  split
  · exact absurd rfl h1
  · exact absurd rfl h4
  · exact absurd rfl h5
  · rfl

/-- Settles O15: one clause for each word that stores, and one for the words that ignore the write. -/
theorem registerWrites : Obligations.RegisterWrites := by
  unfold Obligations.RegisterWrites
  intro s off m d rest hl hr hs hm u
  have hstore := fun hw ho => step_store hl hr hs hm hw ho
  rw [popTurn_of_script hs] at hstore
  have hd : BitVec.ofNat 3 d.toNat = d.setWidth 3 := by
    rw [BitVec.ofNat_toNat]
  refine ⟨fun ho => ?_, fun ho => ?_, fun ho => ?_, fun hw h1 h2 h4 h5 => ?_⟩
  · rw [hstore (by omega) (by omega), ho]
    rfl
  · rw [hstore (by omega) (by omega), ho, ← hd]
    rfl
  · rw [hstore (by omega) (by omega), ho, ← hd]
    rfl
  · rw [hstore hw h2, writeWord_other d _ h1 h4 h5]

/-! ### The interrupt line -/

/-- A word is not 0 when one of its bits is set. -/
theorem ne_zero_iff_getLsbD {n : Nat} (x : BitVec n) : x ≠ 0 ↔ ∃ i, x.getLsbD i = true := by
  constructor
  · intro hx
    by_contra hno
    refine hx (BitVec.eq_of_getLsbD_eq fun i _ => ?_)
    rw [BitVec.ofNat_eq_ofNat, BitVec.getLsbD_zero]
    exact Bool.eq_false_iff.mpr fun hi => hno ⟨i, hi⟩
  · rintro ⟨i, hi⟩ rfl
    simp at hi

/-- Settles O16: the line is up when the conjunction of the two registers is not 0. -/
theorem irqLine : Obligations.IrqLine := by
  unfold Obligations.IrqLine
  intro s hr
  rw [State.irq, hr, Bool.true_and, decide_eq_true_eq, ne_zero_iff_getLsbD]
  simp only [BitVec.getLsbD_and, Bool.and_eq_true]

/-! ### The state after reset -/

/-- Settles O17: every value is written out in `State.reset`. -/
theorem resetValues : Obligations.ResetValues := by
  unfold Obligations.ResetValues
  decide

theorem reference_legal : Config.reference.legal = true := by decide

/-- Right after reset the report is that of an idle block with nothing to deliver (10_state.md R52). -/
theorem reset_reportInv : ReportInv State.reset where
  idle := fun _ => rfl
  run := fun hp => nomatch hp
  drain := fun hp => nomatch hp
  busy := fun hp => absurd rfl hp
  finished := fun hd => nomatch hd
  fresh := fun _ _ => ⟨rfl, rfl⟩

/-- Settles O49: the block is idle, so only the report and the tables are asked for anything. -/
theorem resetMeetsInvariants : Obligations.ResetMeetsInvariants where
  legal := reference_legal
  report := reset_reportInv
  tables := ⟨rfl, rfl⟩
  engine := .of_idle rfl
  session := .of_idle rfl
  fit := .of_idle rfl

end Sys2Proof.Machine
end

section
/-! SUPPORT. A whole code stream as one number: the sessions of the writer and the reader at code number `i`, what the
packed writer spells and what the packed reader takes off it (30_encoding.md R101, R102; 41_code_stream.md R138 to
R144). -/

namespace Sys2Proof.Machine

open Sys2Proof

variable {st : Strategy} {mc : Code}

/-! ### The session at a code number -/

/-- The strategies that pack codes of a width of at least 9 (41_code_stream.md R141, R142). -/
def Packed (st : Strategy) (mc : Code) : Prop := st = .fixedw ∧ 256 ≤ mc.toNat ∨ st = .adaptive

/-- The session stands at code number `i`: ADAPTIVE has bumped its counter `i` times (30_encoding.md R102). -/
def CodeStream.AtCode (st : Strategy) (mc : Code) (i : Nat) (c : CodeStream) : Prop :=
  st = .adaptive → c.currentCode.toNat = min (256 + i) (max mc.toNat 256)

theorem sessionInit_atCode (st : Strategy) (mc : Code) : (sessionInit st mc).AtCode st mc 0 := by
  intro _
  show 256 = _
  omega

/-- Only the counter says which code comes next. -/
theorem CodeStream.AtCode.of_currentCode {i : Nat} {c c' : CodeStream} (h : c.AtCode st mc i)
    (e : c'.currentCode = c.currentCode) : c'.AtCode st mc i :=
  fun hst => e ▸ h hst

/-- The bump goes to the next code number, and stays at the last counter value (41_code_stream.md R142). -/
theorem CodeStream.AtCode.bumpFor {i : Nat} {c : CodeStream} (h : c.AtCode st mc i) :
    (bumpFor st mc c).AtCode st mc (i + 1) := by
  rintro rfl
  have hc := h rfl
  have hb := bump_currentCode mc c
  simp only [Machine.bumpFor, hb]
  split_ifs <;> omega

/-- A packed session's width is that of its code number (30_encoding.md R102). -/
theorem SessionOk.width_atCode {d : Dir} {i : Nat} {c : CodeStream} (h : SessionOk d st mc c) (hp : Packed st mc)
    (ha : c.AtCode st mc i) : c.width.toNat = codeWidth st mc i := by
  rw [h.width]
  rcases hp with ⟨rfl, -⟩ | rfl
  · rfl
  · rw [widthOf, ha rfl, codeWidth]

@[simp] theorem bumpFor_acc (st : Strategy) (mc : Code) (c : CodeStream) : (bumpFor st mc c).acc = c.acc := by
  cases st with
  | adaptive => exact bump_acc mc c
  | text | fixed16 | fixedw => rfl

@[simp] theorem bumpFor_nbits (st : Strategy) (mc : Code) (c : CodeStream) : (bumpFor st mc c).nbits = c.nbits := by
  cases st with
  | adaptive => exact bump_nbits mc c
  | text | fixed16 | fixedw => rfl

/-! ### Bytes as numbers -/

theorem leNat_append (as bs : List Byte) : leNat (as ++ bs) = leNat as + 2 ^ (8 * as.length) * leNat bs := by
  induction as with
  | nil => simp [leNat]
  | cons a as ih =>
    simp only [List.cons_append, leNat, ih, List.length_cons, show 8 * (as.length + 1) = 8 + 8 * as.length by ring,
      pow_add]
    ring

/-- The `n` low bytes of a number spell its remainder. -/
theorem leNat_leBytes_mod (n v : Nat) : leNat (leBytes n v) = v % 2 ^ (8 * n) := by
  induction n generalizing v with
  | zero => simp [leBytes, leNat, Nat.mod_one]
  | succ n ih =>
    have h8 : 2 ^ (8 * (n + 1)) = 256 * 2 ^ (8 * n) := by
      rw [mul_add_one, pow_add, mul_comm]
      rfl
    simp only [leBytes, leNat, ih, BitVec.toNat_ofNat, h8, Nat.mod_mul]

/-! ### The packed stream as a number -/

/-- The number a packed stream spells from code number `i` on: each code, masked to its width, above those before it
(30_encoding.md R101). -/
def packedValue (st : Strategy) (mc : Code) : Nat → List Code → Nat
  | _, [] => 0
  | i, k :: ks => k.toNat % 2 ^ codeWidth st mc i + 2 ^ codeWidth st mc i * packedValue st mc (i + 1) ks

/-- The bytes of codes written in a session and then flushed (41_code_stream.md R131, R146). -/
def finishCodes (st : Strategy) (mc : Code) (ks : List Code) (c : CodeStream) : List Byte :=
  (writeCodes st mc ks c).1 ++ (flushFor st (writeCodes st mc ks c).2).1

theorem codeStreamOf_eq (st : Strategy) (mc : Code) (ks : List Code) :
    codeStreamOf st mc ks = finishCodes st mc ks (sessionInit st mc) := rfl

theorem finishCodes_nil (st : Strategy) (mc : Code) (c : CodeStream) :
    finishCodes st mc [] c = (flushFor st c).1 := rfl

theorem finishCodes_cons (st : Strategy) (mc k : Code) (ks : List Code) (c : CodeStream) :
    finishCodes st mc (k :: ks) c = (writeCode st mc k c).1 ++ finishCodes st mc ks (writeCode st mc k c).2 :=
  List.append_assoc _ _ _

theorem writeCode_packed (hp : Packed st mc) (k : Code) (c : CodeStream) :
    writeCode st mc k c = ((packWrite k c).1, bumpFor st mc (packWrite k c).2) := by
  rcases hp with ⟨rfl, -⟩ | rfl <;> rfl

/-- A packed writer keeps fewer than eight bits pending (10_state.md R46). -/
theorem SessionOk.nbits_lt_eight {c : CodeStream} (h : SessionOk .compress st mc c) (hp : Packed st mc) :
    c.nbits.toNat < 8 := by
  have hn := h.nbits
  rcases hp with ⟨rfl, -⟩ | rfl <;> exact hn

/-- A packed reader holds less than a whole code (10_state.md R46). -/
theorem SessionOk.nbits_lt_width {c : CodeStream} (h : SessionOk .decompress st mc c) (hp : Packed st mc) :
    c.nbits.toNat < c.width.toNat := by
  have hn := h.nbits
  rcases hp with ⟨rfl, -⟩ | rfl <;> exact hn

/-- The flush writes the pending bits, if there are any, as the low bits of one byte (41_code_stream.md R140). -/
theorem flushFor_packed {c : CodeStream} (h : SessionOk .compress st mc c) (hp : Packed st mc) :
    leNat (flushFor st c).1 = c.acc.toNat ∧ c.nbits.toNat ≤ 8 * (flushFor st c).1.length ∧
      8 * (flushFor st c).1.length < c.nbits.toNat + 8 := by
  have hn := h.nbits_lt_eight hp
  have ha := h.acc
  have hpow : 2 ^ c.nbits.toNat < 2 ^ 8 := Nat.pow_lt_pow_right (by norm_num) hn
  have hf : flushFor st c = flushSession c := by rcases hp with ⟨rfl, -⟩ | rfl <;> rfl
  rw [hf, flushSession]
  split_ifs with h0
  · simp only [leNat, BitVec.toNat_ofNat, List.length_singleton]
    omega
  · have hz : c.nbits.toNat = 0 := by omega
    rw [hz] at ha ⊢
    simp only [leNat, List.length_nil]
    omega

/-- The packed writer spells the pending bits, then the codes; the padding is less than a byte (30_encoding.md R101;
41_code_stream.md R138, R140, R146). -/
theorem finishCodes_packed (hp : Packed st mc) (ks : List Code) {i : Nat} {c : CodeStream}
    (h : SessionOk .compress st mc c) (hi : c.AtCode st mc i) :
    leNat (finishCodes st mc ks c) = c.acc.toNat + 2 ^ c.nbits.toNat * packedValue st mc i ks ∧
      codeOffset st mc (i + ks.length) + c.nbits.toNat ≤ codeOffset st mc i + 8 * (finishCodes st mc ks c).length ∧
      codeOffset st mc i + 8 * (finishCodes st mc ks c).length <
        codeOffset st mc (i + ks.length) + c.nbits.toNat + 8 := by
  induction ks generalizing i c with
  | nil =>
    have hf := flushFor_packed h hp
    simp only [finishCodes_nil, packedValue, List.length_nil, Nat.add_zero]
    omega
  | cons k ks ih =>
    have hn := h.nbits_lt_eight hp
    have hw := h.width_atCode hp hi
    have hk := h.writeCode k
    rw [finishCodes_cons]
    rw [writeCode_packed hp] at hk ⊢
    obtain ⟨v, hv, hbytes, hacc, hnb, -, hcur, -⟩ := packWrite_eq k c h.acc hn h.width_le
    obtain ⟨hval, hlo, hhi⟩ := ih hk ((hi.of_currentCode hcur).bumpFor)
    simp only [bumpFor_acc, bumpFor_nbits, hacc, hnb] at hval hlo hhi
    have hoff : codeOffset st mc (i + 1) = codeOffset st mc i + c.width.toNat := by rw [codeOffset, hw]
    have hlen : i + (k :: ks).length = i + 1 + ks.length := by rw [List.length_cons]; omega
    simp only [hlen, List.length_append, hbytes, leBytes_length]
    refine ⟨?_, by omega, by omega⟩
    have hsplit : c.nbits.toNat + c.width.toNat =
        8 * ((c.nbits.toNat + c.width.toNat) / 8) + (c.nbits.toNat + c.width.toNat) % 8 := by omega
    calc leNat (leBytes ((c.nbits.toNat + c.width.toNat) / 8) v ++ _)
        = v % 2 ^ (8 * ((c.nbits.toNat + c.width.toNat) / 8)) +
          2 ^ (8 * ((c.nbits.toNat + c.width.toNat) / 8)) * (v / 2 ^ (8 * ((c.nbits.toNat + c.width.toNat) / 8)) +
            2 ^ ((c.nbits.toNat + c.width.toNat) % 8) * packedValue st mc (i + 1) ks) := by
          rw [leNat_append, leBytes_length, leNat_leBytes_mod, hval]
      _ = v + 2 ^ (c.nbits.toNat + c.width.toNat) * packedValue st mc (i + 1) ks := by
          rw [mul_add, ← mul_assoc, ← pow_add, ← hsplit, ← add_assoc, Nat.mod_add_div]
      _ = c.acc.toNat + 2 ^ c.nbits.toNat * packedValue st mc i (k :: ks) := by
          rw [hv, packedValue, ← hw, pow_add]
          ring

/-! ### The packed reader -/

/-- The packed reader on a byte that completes no code (41_code_stream.md R139). -/
theorem packReadByte_noCode (b : Byte) {c : CodeStream} (ha : c.acc.toNat < 2 ^ c.nbits.toNat)
    (hw : c.width.toNat ≤ 16) (h : c.nbits.toNat + 8 < c.width.toNat) :
    ∃ c', packReadByte b c = .noCode c' ∧ c'.acc.toNat = c.acc.toNat + b.toNat * 2 ^ c.nbits.toNat ∧
      c'.nbits.toNat = c.nbits.toNat + 8 ∧ c'.currentCode = c.currentCode := by
  refine ⟨_, if_neg (by omega), packReadByte_acc b c ha (by omega), ?_, rfl⟩
  simp only [BitVec.toNat_ofNat]
  omega

/-- The packed reader on a byte that completes a code: the low bits are the code, the rest stays pending
(41_code_stream.md R139). -/
theorem packReadByte_code (b : Byte) {c : CodeStream} (ha : c.acc.toNat < 2 ^ c.nbits.toNat)
    (hw : c.width.toNat ≤ 16) (hn : c.nbits.toNat < c.width.toNat) (h : c.width.toNat ≤ c.nbits.toNat + 8) :
    ∃ v c', v = c.acc.toNat + b.toNat * 2 ^ c.nbits.toNat ∧
      packReadByte b c = .code (BitVec.ofNat 16 (v % 2 ^ c.width.toNat)) c' ∧
      c'.acc.toNat = v / 2 ^ c.width.toNat ∧ c'.nbits.toNat + c.width.toNat = c.nbits.toNat + 8 ∧
      c'.currentCode = c.currentCode := by
  have hv := packReadByte_acc b c ha (by omega)
  refine ⟨_, _, hv, if_pos h, ?_, ?_, rfl⟩
  · exact (BitVec.toNat_ushiftRight ..).trans (Nat.shiftRight_eq_div_pow ..)
  · simp only [BitVec.toNat_ofNat]
    omega

theorem readByte_packed (hp : Packed st mc) (b : Byte) (c : CodeStream) : readByte st b c = packReadByte b c := by
  rcases hp with ⟨rfl, -⟩ | rfl <;> rfl

/-- What is left to read at code number `i`: the pending bits and the bytes to come spell the codes `ks`, and less
than a byte of padding (30_encoding.md R101). -/
structure PackedRest (st : Strategy) (mc : Code) (i : Nat) (c : CodeStream) (bytes : List Byte) (ks : List Code) :
    Prop where
  session : SessionOk .decompress st mc c
  atCode : c.AtCode st mc i
  fits : ∀ (j : Nat) (k : Code), ks[j]? = some k → k.toNat < 2 ^ codeWidth st mc (i + j)
  value : c.acc.toNat + 2 ^ c.nbits.toNat * leNat bytes = packedValue st mc i ks
  bits : codeOffset st mc (i + ks.length) ≤ codeOffset st mc i + (c.nbits.toNat + 8 * bytes.length)
  padding : codeOffset st mc i + (c.nbits.toNat + 8 * bytes.length) < codeOffset st mc (i + ks.length) + 8

/-- No code is made of the pending bits alone, since they are fewer than a width. -/
theorem PackedRest.eq_nil {i : Nat} {c : CodeStream} {ks : List Code} (hp : Packed st mc)
    (h : PackedRest st mc i c [] ks) : ks = [] := by
  cases ks with
  | nil => rfl
  | cons k ks =>
    have hn := h.session.nbits_lt_width hp
    have hw := h.session.width_atCode hp h.atCode
    have hb := h.bits
    have hmono : codeOffset st mc (i + 1) ≤ codeOffset st mc (i + 1 + ks.length) :=
      monotone_nat_of_le_succ (fun n => Nat.le_add_right _ _) (Nat.le_add_right _ _)
    rw [List.length_cons, show i + (ks.length + 1) = i + 1 + ks.length by omega, List.length_nil] at hb
    rw [codeOffset, ← hw] at hmono
    omega

/-- A byte that completes no code joins the pending bits. -/
theorem PackedRest.noCode {i : Nat} {c : CodeStream} {b : Byte} {bs : List Byte} {ks : List Code} (hp : Packed st mc)
    (h : PackedRest st mc i c (b :: bs) ks) (hn : c.nbits.toNat + 8 < c.width.toNat) :
    ∃ c', readByte st b c = .noCode c' ∧ PackedRest st mc i c' bs ks := by
  obtain ⟨c', hr, hacc, hnb, hcur⟩ := packReadByte_noCode b h.session.acc h.session.width_le hn
  have hs := h.session.packRead b hp
  rw [hr] at hs
  refine ⟨c', (readByte_packed hp b c).trans hr, hs, h.atCode.of_currentCode hcur, h.fits, ?_, ?_, ?_⟩
  · rw [← h.value, hacc, hnb, leNat, pow_add]
    ring
  · have := h.bits
    rw [List.length_cons] at this
    omega
  · have := h.padding
    rw [List.length_cons] at this
    omega

/-- A byte that completes a code completes the next one of the list. -/
theorem PackedRest.code {i : Nat} {c : CodeStream} {b : Byte} {bs : List Byte} {ks : List Code} (hp : Packed st mc)
    (h : PackedRest st mc i c (b :: bs) ks) (hn : c.width.toNat ≤ c.nbits.toNat + 8) :
    ∃ k ks' c', ks = k :: ks' ∧ readByte st b c = .code k c' ∧
      PackedRest st mc (i + 1) (bumpFor st mc c') bs ks' := by
  have hbits := h.bits
  have hpad := h.padding
  have hval := h.value
  rw [List.length_cons] at hbits hpad
  cases ks with
  | nil =>
    simp only [List.length_nil, Nat.add_zero] at hpad
    omega
  | cons k ks =>
    have hwi := h.session.width_atCode hp h.atCode
    obtain ⟨v, c', hv, hr, hacc, hnb, hcur⟩ :=
      packReadByte_code b h.session.acc h.session.width_le (h.session.nbits_lt_width hp) hn
    have hs := h.session.packRead b hp
    rw [hr] at hs
    have hfit : k.toNat < 2 ^ c.width.toNat := hwi ▸ h.fits 0 k rfl
    -- the code on top of the pending bits: its low `width` bits are `k`, the rest are the codes after it
    have hsum : v + 2 ^ (c'.nbits.toNat + c.width.toNat) * leNat bs =
        k.toNat + 2 ^ c.width.toNat * packedValue st mc (i + 1) ks := by
      rw [packedValue, ← hwi, Nat.mod_eq_of_lt hfit, leNat] at hval
      rw [← hval, hv, hnb, pow_add]
      ring
    rw [pow_add, mul_comm (2 ^ c'.nbits.toNat), mul_assoc] at hsum
    have hmod : v % 2 ^ c.width.toNat = k.toNat := by
      have := congrArg (· % 2 ^ c.width.toNat) hsum
      simpa [Nat.add_mul_mod_self_left, Nat.mod_eq_of_lt hfit] using this
    have hdiv : v / 2 ^ c.width.toNat + 2 ^ c'.nbits.toNat * leNat bs = packedValue st mc (i + 1) ks := by
      have := congrArg (· / 2 ^ c.width.toNat) hsum
      simpa [Nat.add_mul_div_left, Nat.div_eq_of_lt hfit] using this
    have hoff : codeOffset st mc (i + 1) = codeOffset st mc i + c.width.toNat := by rw [codeOffset, hwi]
    have hlen : i + (k :: ks).length = i + 1 + ks.length := by rw [List.length_cons]; omega
    rw [hlen] at hbits hpad
    refine ⟨k, ks, c', rfl, ?_, hs, (h.atCode.of_currentCode hcur).bumpFor, fun j k' hj => ?_, ?_, ?_, ?_⟩
    · rw [readByte_packed hp, hr, hmod, BitVec.ofNat_toNat, BitVec.setWidth_eq]
    · rw [show i + 1 + j = i + (j + 1) by omega]
      exact h.fits (j + 1) k' hj
    · rw [bumpFor_acc, bumpFor_nbits, hacc]
      exact hdiv
    · rw [bumpFor_nbits]
      omega
    · rw [bumpFor_nbits]
      omega

theorem readCodes_noCode {b : Byte} {c c' : CodeStream} (h : readByte st b c = .noCode c') (bs : List Byte) :
    readCodes st mc (b :: bs) c = readCodes st mc bs c' := by
  rw [readCodes, h]

theorem readCodes_code {b : Byte} {c c' : CodeStream} {k : Code} (h : readByte st b c = .code k c')
    (bs : List Byte) :
    readCodes st mc (b :: bs) c =
      (readCodes st mc bs (bumpFor st mc c')).map (fun q => (k :: q.1, q.2)) := by
  rw [readCodes, h]

/-- The packed reader gives back the codes that the stream spells (41_code_stream.md R139). -/
theorem PackedRest.readCodes (hp : Packed st mc) (bytes : List Byte) {i : Nat} {c : CodeStream} {ks : List Code}
    (h : PackedRest st mc i c bytes ks) : ∃ c', readCodes st mc bytes c = some (ks, c') := by
  induction bytes generalizing i c ks with
  | nil =>
    rw [h.eq_nil hp]
    exact ⟨c, rfl⟩
  | cons b bs ih =>
    by_cases hn : c.width.toNat ≤ c.nbits.toNat + 8
    · obtain ⟨k, ks', c', rfl, hr, hrest⟩ := h.code hp hn
      obtain ⟨c'', hc⟩ := ih hrest
      exact ⟨c'', by rw [readCodes_code hr, hc]; rfl⟩
    · obtain ⟨c', hr, hrest⟩ := h.noCode hp (by omega)
      obtain ⟨c'', hc⟩ := ih hrest
      exact ⟨c'', by rw [readCodes_noCode hr, hc]⟩

/-! ### TEXT and FIXED16 -/

/-- TEXT and FIXED16 keep no state between codes, so a stream is read code by code. -/
theorem readCodes_finishCodes_of_framed (ks : List Code) (hw : ∀ k c, (writeCode st mc k c).2 = c)
    (hf : ∀ c, (flushFor st c).1 = [])
    (hr : ∀ k bytes, readCodes st mc ((writeCode st mc k (sessionInit st mc)).1 ++ bytes) (sessionInit st mc) =
      (readCodes st mc bytes (sessionInit st mc)).map (fun q => (k :: q.1, q.2))) :
    readCodes st mc (finishCodes st mc ks (sessionInit st mc)) (sessionInit st mc) =
      some (ks, sessionInit st mc) := by
  induction ks with
  | nil => rw [finishCodes_nil, hf, readCodes]
  | cons k ks ih => rw [finishCodes_cons, hw, hr, ih, Option.map_some]

/-- The Text reader on a digit (41_code_stream.md R135). -/
theorem readCodes_digit {d : Nat} {c : CodeStream} (hd : d < 10) (hv : c.tval.toNat * 10 + d ≤ 65535)
    (bytes : List Byte) :
    readCodes .text mc (digitByte d :: bytes) c =
      readCodes .text mc bytes { c with tval := BitVec.ofNat 17 (c.tval.toNat * 10 + d), tdig := true } := by
  have hb : (digitByte d).toNat = 0x30 + d := by
    rw [digitByte, BitVec.toNat_ofNat]
    omega
  refine readCodes_noCode ?_ bytes
  unfold readByte textReadByte
  dsimp only
  rw [if_pos (by omega), hb, Nat.add_sub_cancel_left, if_neg (by omega)]

/-- The digits of a number leave it as the value of the line (41_code_stream.md R134, R135). -/
theorem readCodes_decimalDigits (n : Nat) {k : Nat} {c : CodeStream} (hn : k < 10 ^ (n + 1)) (hk : k ≤ 65535)
    (hc : c.tval.toNat = 0) (bytes : List Byte) :
    readCodes .text mc (decimalDigits (n + 1) k ++ bytes) c =
      readCodes .text mc bytes { c with tval := BitVec.ofNat 17 k, tdig := true } := by
  have hone : ∀ d bytes, d < 10 → readCodes .text mc ([digitByte d] ++ bytes) c =
      readCodes .text mc bytes { c with tval := BitVec.ofNat 17 d, tdig := true } := by
    intro d bytes hd
    rw [List.singleton_append, readCodes_digit hd (by omega), hc, Nat.zero_mul, Nat.zero_add]
  induction n generalizing k bytes with
  | zero => rw [decimalDigits, if_pos (by omega)]; exact hone k bytes (by omega)
  | succ n ih =>
    rw [decimalDigits]
    split_ifs with h10
    · exact hone k bytes h10
    · have hlt : k / 10 < 10 ^ (n + 1) := by
        rw [Nat.div_lt_iff_lt_mul (by norm_num), ← pow_succ]
        exact hn
      have hval : (BitVec.ofNat 17 (k / 10)).toNat * 10 + k % 10 = k := by
        rw [BitVec.toNat_ofNat]
        omega
      have hlast := readCodes_digit (mc := mc) (c := { c with tval := BitVec.ofNat 17 (k / 10), tdig := true })
        (Nat.mod_lt k (by norm_num)) (hval.trans_le hk) bytes
      dsimp only at hlast
      rw [List.append_assoc, ih hlt (by omega), List.singleton_append, hlast, hval]

/-- A line of TEXT is read back as its code, and leaves a fresh session (41_code_stream.md R134, R135). -/
theorem readCodes_textBytes (k : Code) (bytes : List Byte) :
    readCodes .text mc (textBytes k ++ bytes) (sessionInit .text mc) =
      (readCodes .text mc bytes (sessionInit .text mc)).map (fun q => (k :: q.1, q.2)) := by
  have hk := k.isLt
  have hval : BitVec.ofNat 16 (BitVec.ofNat 17 k.toNat).toNat = k := by
    apply BitVec.eq_of_toNat_eq
    simp only [BitVec.toNat_ofNat]
    omega
  have hend : readByte .text 0x0A { sessionInit .text mc with tval := BitVec.ofNat 17 k.toNat, tdig := true } =
      .code (BitVec.ofNat 16 (BitVec.ofNat 17 k.toNat).toNat) (sessionInit .text mc) := rfl
  rw [textBytes, List.append_assoc, readCodes_decimalDigits 4 (by omega) (by omega) rfl, List.singleton_append,
    readCodes_code hend, hval, bumpFor]

/-- Two bytes of FIXED16 are read back as their code, and leave a fresh session (41_code_stream.md R136, R137). -/
theorem readCodes_fixed16Bytes (k : Code) (bytes : List Byte) :
    readCodes .fixed16 mc (fixed16Bytes k ++ bytes) (sessionInit .fixed16 mc) =
      (readCodes .fixed16 mc bytes (sessionInit .fixed16 mc)).map (fun q => (k :: q.1, q.2)) := by
  have hk := k.isLt
  have hval : BitVec.ofNat 16 (256 * (BitVec.ofNat 8 (k.toNat / 256)).toNat +
      (BitVec.ofNat 24 (BitVec.ofNat 8 k.toNat).toNat).toNat % 256) = k := by
    apply BitVec.eq_of_toNat_eq
    simp only [BitVec.toNat_ofNat]
    omega
  have hlow : readByte .fixed16 (BitVec.ofNat 8 k.toNat) (sessionInit .fixed16 mc) =
      .noCode { sessionInit .fixed16 mc with acc := BitVec.ofNat 24 (BitVec.ofNat 8 k.toNat).toNat, nbits := 8 } := rfl
  have hhigh : readByte .fixed16 (BitVec.ofNat 8 (k.toNat / 256)) { sessionInit .fixed16 mc with
      acc := BitVec.ofNat 24 (BitVec.ofNat 8 k.toNat).toNat, nbits := 8 } = .code k (sessionInit .fixed16 mc) := by
    rw [readByte, fixed16ReadByte, if_neg (show ¬(8 : BitVec 5) = 0 by decide), hval]
    rfl
  rw [fixed16Bytes, List.cons_append, List.singleton_append, readCodes_noCode hlow, readCodes_code hhigh, bumpFor]

end Sys2Proof.Machine
end

section
/-! PROOFS. Every strategy reads back the codes it wrote (41_code_stream.md R134 to R144; 20_memory.md R71). -/

namespace Sys2Proof.Machine

open Sys2Proof

/-- A packed stream is read back: a fresh reader has the whole stream before it (41_code_stream.md R138 to R140). -/
theorem codeStreamOf_packed_read {st : Strategy} {mc : Code} (hp : Packed st mc) (ks : List Code)
    (hfit : ∀ (i : Nat) (k : Code), ks[i]? = some k → k.toNat < 2 ^ codeWidth st mc i) :
    ∃ c, readCodes st mc (codeStreamOf st mc ks) (sessionInit st mc) = some (ks, c) := by
  have hmc : st = .fixedw → 256 ≤ mc.toNat := by
    rintro rfl
    rcases hp with ⟨-, h⟩ | h
    · exact h
    · cases h
  have hat := sessionInit_atCode st mc
  obtain ⟨hval, hlo, hhi⟩ := finishCodes_packed hp ks (sessionInit_ok .compress st mc hmc) hat
  rw [← codeStreamOf_eq] at hval hlo hhi
  have hnb : (sessionInit st mc).nbits.toNat = 0 := rfl
  refine PackedRest.readCodes hp _ (i := 0) ⟨sessionInit_ok .decompress st mc hmc, hat, fun j k hj => ?_, ?_, ?_, ?_⟩
  · rw [Nat.zero_add]
    exact hfit j k hj
  · rw [hval, hnb, show (sessionInit st mc).acc.toNat = 0 from rfl]
    simp
  · omega
  · omega

/-- Settles O41: TEXT and FIXED16 frame each code apart; a packed stream is one number, off which the reader takes the
codes that the writer put on it. -/
theorem codeStreamRoundTrip : Obligations.CodeStreamRoundTrip := by
  unfold Obligations.CodeStreamRoundTrip
  intro st mc ks hmc hfit
  cases st with
  | text => exact ⟨_, readCodes_finishCodes_of_framed ks (fun _ _ => rfl) (fun _ => rfl) readCodes_textBytes⟩
  | fixed16 => exact ⟨_, readCodes_finishCodes_of_framed ks (fun _ _ => rfl) (fun _ => rfl) readCodes_fixed16Bytes⟩
  | fixedw => exact codeStreamOf_packed_read (.inl ⟨rfl, hmc rfl⟩) ks hfit
  | adaptive => exact codeStreamOf_packed_read (.inr rfl) ks hfit

end Sys2Proof.Machine
end

section
/-! PROOFS. The phase, the output buffer and the report agree in every step (20_memory.md R67, R73; 60_exceptions.md
R246, R250). -/

namespace Sys2Proof.Machine

open Sys2Proof

/-! ### What a consuming step does to the output buffer and the report -/

/-- Only data bytes are pushed: the phase and the reason stay. -/
structure Pushes (s t : State) : Prop where
  phase : t.eng.phase = s.eng.phase
  reason : t.regs.reason = s.regs.reason
  obuf : ∃ bs : List Byte, t.eng.obuf = s.eng.obuf ++ bs.map .byte

/-- Data bytes are pushed, then a stop puts End after them (60_exceptions.md R246). -/
structure Stops (s t : State) : Prop where
  phase : t.eng.phase = .drain
  reason : t.regs.reason.isStop = true
  obuf : ∃ bs : List Byte, t.eng.obuf = s.eng.obuf ++ bs.map .byte ++ [.endMark]

section Pushes

variable {s t u : State}

/-- A step that leaves phase, reason and output buffer alone pushes nothing. -/
theorem Pushes.of_eq (hp : t.eng.phase = s.eng.phase) (hr : t.regs.reason = s.regs.reason)
    (ho : t.eng.obuf = s.eng.obuf) : Pushes s t :=
  ⟨hp, hr, [], by rw [ho, List.map_nil, List.append_nil]⟩

theorem Pushes.trans (h : Pushes s t) (g : Pushes t u) : Pushes s u := by
  obtain ⟨bs, hb⟩ := h.obuf
  obtain ⟨cs, hc⟩ := g.obuf
  exact ⟨g.phase.trans h.phase, g.reason.trans h.reason, bs ++ cs, by
    rw [hc, hb, List.append_assoc, List.map_append]⟩

theorem Pushes.stop (h : Pushes s t) {r : Reason} (hr : r.isStop = true) (info : Word) :
    Stops s (raiseStop r info t) := by
  obtain ⟨bs, hb⟩ := h.obuf
  exact ⟨rfl, hr, bs, by rw [raiseStop_obuf, hb]⟩

theorem Stops.after (g : Stops t u) (h : Pushes s t) : Stops s u := by
  obtain ⟨bs, hb⟩ := h.obuf
  obtain ⟨cs, hc⟩ := g.obuf
  exact ⟨g.phase, g.reason, bs ++ cs, by rw [hc, hb, List.map_append, ← List.append_assoc]⟩

end Pushes

theorem csWrite_pushes (k : Code) (s : State) : Pushes s (csWrite k s) := ⟨rfl, rfl, _, rfl⟩

theorem csFinalize_pushes (s : State) : Pushes s (csFinalize s) :=
  (csWrite_pushes eofCode s).trans ⟨rfl, rfl, _, rfl⟩

theorem ByteMove.pushes {c : Byte} {s t : State} (m : ByteMove c s t) : Pushes s t := by
  cases m with
  | first | hit => exact .of_eq rfl rfl rfl
  | insert | full => exact ⟨rfl, rfl, _, rfl⟩

/-- A compress operation stops at End and at Error alone (42_compress.md R171 to R174). -/
theorem consumeCompress_pushes_or_stops (b : Beat) (s : State) :
    Pushes s (consumeCompress b s) ∨ Stops s (consumeCompress b s) := by
  cases b with
  | byte c =>
    have hc : Pushes s (countByteIn s) := .of_eq rfl rfl rfl
    exact .inl (hc.trans (compressByte_move c _).pushes)
  | endMark =>
    have hw : Pushes s (if s.eng.curValid then csWrite s.eng.cur s else s) := by
      split_ifs
      · exact csWrite_pushes _ s
      · exact .of_eq rfl rfl rfl
    exact .inr ((hw.trans (csFinalize_pushes _)).stop rfl 0)
  | error => exact .inr ((csFinalize_pushes s).stop rfl 0)

/-- The insert of DECODE pushes nothing (43_decompress.md R189). -/
theorem decodeInsert_pushes (first : Byte) (s : State) : Pushes s (decodeInsert first s) := by
  rcases decodeInsert_cases first s with ⟨-, -, e⟩ | e <;> rw [e] <;> exact .of_eq rfl rfl rfl

theorem acceptCode_pushes (k : Code) (first : Byte) (rest : List Byte) (s : State) :
    Pushes s (acceptCode k first rest s) :=
  (show Pushes s (symWrite first rest s) from ⟨rfl, rfl, _, rfl⟩).trans
    ((decodeInsert_pushes first _).trans (.of_eq rfl rfl rfl))

/-- A completed code pushes its string, or stops the operation (43_decompress.md R187, R192; 41_code_stream.md R133). -/
theorem CodeMove.pushes_or_stops {k : Code} {u t : State} (m : CodeMove k u t) : Pushes u t ∨ Stops u t := by
  cases m with
  | eof | bad => exact .inr ((Pushes.of_eq rfl rfl rfl).stop rfl _)
  | lit b => exact .inl (acceptCode_pushes k b [] u)
  | dict first rest =>
    exact .inl ((show Pushes u (stackPopped u) from .of_eq rfl rfl rfl).trans (acceptCode_pushes k first rest _))
  | kwkwk bs =>
    exact .inl ((show Pushes u (outPushAll (bs ++ [u.eng.prevFirst]) (stackPopped u)) from ⟨rfl, rfl, _, rfl⟩).trans
      ((decodeInsert_pushes u.eng.prevFirst _).trans (.of_eq rfl rfl rfl)))

/-- A beat that completes no code pushes nothing, or stops the operation (41_code_stream.md R132, R135, R147). -/
theorem fetchBeat_pushes_or_stops {b : Beat} {s t : State} (h : fetchBeat b s = .done t) :
    Pushes s t ∨ Stops s t := by
  cases b with
  | byte x =>
    rw [fetchBeat, fetchByte] at h
    split at h
    next c hc => exact .inl (Fetch.done.inj h ▸ .of_eq rfl rfl rfl)
    next => cases h
    next =>
      exact .inr (Fetch.done.inj h ▸ (show Pushes s (countByteIn s) from .of_eq rfl rfl rfl).stop rfl _)
  | endMark | error => exact .inr (Fetch.done.inj h ▸ (Pushes.of_eq rfl rfl rfl).stop rfl _)

theorem Consumed.pushes_or_stops {b : Beat} {s t : State} (m : Consumed b s t) : Pushes s t ∨ Stops s t := by
  cases m with
  | compress => exact consumeCompress_pushes_or_stops b s
  | fetched t hd hf => exact fetchBeat_pushes_or_stops hf
  | code x k c t hd hf hm =>
    have hc : Pushes s (codeCompleted c (countByteIn s)) := .of_eq rfl rfl rfl
    exact hm.pushes_or_stops.imp hc.trans (·.after hc)

/-! ### The invariant of the report -/

theorem bytesOnly_map (bs : List Byte) : bytesOnly (bs.map .byte) = true := by simp [bytesOnly]

theorem endsOnce_append {q : List OutBeat} (h : bytesOnly q = true) : endsOnce (q ++ [.endMark]) = true := by
  simp [endsOnce, h]

theorem bytesOnly_tail {b : OutBeat} {q : List OutBeat} (h : bytesOnly (b :: q) = true) : bytesOnly q = true := by
  rw [bytesOnly, List.all_cons, Bool.and_eq_true] at h
  exact h.2

theorem endsOnce_tail {x : Byte} {q : List OutBeat} (h : endsOnce (.byte x :: q) = true) : endsOnce q = true := by
  cases q with
  | nil => simp [endsOnce] at h
  | cons b q =>
    simp only [endsOnce, Bool.and_eq_true, decide_eq_true_eq, List.getLast?_cons_cons, List.dropLast_cons_cons] at h ⊢
    exact ⟨h.1, bytesOnly_tail h.2⟩

/-- The part of a state that `ReportInv` looks at; the rest is left out. -/
def State.report (s : State) : State :=
  { State.reset with
    regs := { Regs.reset with
      done := s.regs.done, err := s.regs.err, reason := s.regs.reason, dir := s.regs.dir, strat := s.regs.strat }
    eng := { Engine.reset with
      phase := s.eng.phase, aDir := s.eng.aDir, aStrat := s.eng.aStrat, obuf := s.eng.obuf } }

theorem ReportInv.of_report {s t : State} (h : ReportInv s) (e : t.report = s.report) : ReportInv t := by
  have hs : ReportInv s.report := ⟨h.idle, h.run, h.drain, h.busy, h.finished, h.fresh⟩
  have ht : ReportInv t.report := e ▸ hs
  exact ⟨ht.idle, ht.run, ht.drain, ht.busy, ht.finished, ht.fresh⟩

/-- An idle block with nothing to deliver owes only a report whose DONE, ERR and reason agree. -/
theorem ReportInv.of_idle {t : State} (hp : t.eng.phase = .idle) (ho : t.eng.obuf = [])
    (hf : t.regs.done = true → t.regs.err = t.regs.reason.isErr)
    (hn : t.regs.done = false → t.regs.err = false ∧ t.regs.reason = .none) : ReportInv t where
  idle _ := ho
  run h := by rw [hp] at h; cases h
  drain h := by rw [hp] at h; cases h
  busy h := absurd hp h
  finished := hf
  fresh _ := hn

/-- A busy block owes what its phase asks of the output buffer and the reason, and a report that shows it running. -/
theorem ReportInv.of_busy {t : State} (hp : t.eng.phase ≠ .idle)
    (hrun : t.eng.phase = .run → bytesOnly t.eng.obuf = true ∧ t.regs.reason = .none)
    (hdrain : t.eng.phase = .drain → endsOnce t.eng.obuf = true ∧ t.regs.reason.isStop = true)
    (hb : t.regs.done = false ∧ t.regs.err = false ∧ t.regs.dir = t.eng.aDir ∧ t.regs.strat = t.eng.aStrat) :
    ReportInv t where
  idle h := absurd h hp
  run := hrun
  drain := hdrain
  busy _ := hb
  finished h := by rw [hb.1] at h; cases h
  fresh h := absurd h hp

theorem OpFrame.done {s t : State} (h : OpFrame s t) : t.regs.done = s.regs.done := congrArg (·.regs.done) h.latched
theorem OpFrame.err {s t : State} (h : OpFrame s t) : t.regs.err = s.regs.err := congrArg (·.regs.err) h.latched
theorem OpFrame.dir {s t : State} (h : OpFrame s t) : t.regs.dir = s.regs.dir := congrArg (·.regs.dir) h.latched
theorem OpFrame.strat {s t : State} (h : OpFrame s t) : t.regs.strat = s.regs.strat :=
  congrArg (·.regs.strat) h.latched

/-- A consuming step pushes bytes in RUN, or stops with End after them (60_exceptions.md R246). -/
theorem ReportInv.consumed {b : Beat} {s t : State} (h : ReportInv s) (hrun : s.eng.phase = .run)
    (ho : s.eng.obuf = []) (m : Consumed b s t) : ReportInv t := by
  have f := m.frame
  obtain ⟨-, hreason⟩ := h.run hrun
  obtain ⟨hdone, herr, hdir, hst⟩ := h.busy (by simp [hrun])
  have hbusy : t.regs.done = false ∧ t.regs.err = false ∧ t.regs.dir = t.eng.aDir ∧ t.regs.strat = t.eng.aStrat := by
    rw [f.done, f.err, f.dir, f.strat, f.aDir, f.aStrat]
    exact ⟨hdone, herr, hdir, hst⟩
  rcases m.pushes_or_stops with p | p <;> obtain ⟨bs, hbs⟩ := p.obuf <;> rw [ho, List.nil_append] at hbs
  · have hp : t.eng.phase = .run := p.phase.trans hrun
    exact .of_busy (by simp [hp]) (fun _ => ⟨hbs ▸ bytesOnly_map bs, p.reason.trans hreason⟩) (by simp [hp]) hbusy
  · have hp := p.phase
    exact .of_busy (by simp [hp]) (by simp [hp]) (fun _ => ⟨hbs ▸ endsOnce_append (bytesOnly_map bs), p.reason⟩) hbusy

/-- A drain step delivers a byte of an operation that goes on, or its End (20_memory.md R67; 60_exceptions.md R250). -/
theorem ReportInv.drainBeat {b : OutBeat} {rest : List OutBeat} {s : State} (h : ReportInv s)
    (ho : s.eng.obuf = b :: rest) : ReportInv (drainBeat b rest s) := by
  cases b with
  | byte x =>
    have hp : s.eng.phase ≠ .idle := fun hi => by simp [h.idle hi] at ho
    refine .of_busy hp (fun hr => ?_) (fun hd => ?_) (h.busy hp)
    · obtain ⟨hq, hn⟩ := h.run hr
      exact ⟨bytesOnly_tail (ho ▸ hq), hn⟩
    · obtain ⟨hq, hs⟩ := h.drain hd
      exact ⟨endsOnce_tail (ho ▸ hq), hs⟩
  | endMark =>
    obtain ⟨-, rfl⟩ := h.endMark_head ho
    exact .of_idle rfl rfl (fun _ => rfl) (fun hd => nomatch hd)

theorem ReportInv.engineMove {s t : State} (h : ReportInv s) (m : EngineMove s t) : ReportInv t := by
  cases m with
  | wait => exact h
  | drain b rest hr ho hs => exact h.drainBeat ho
  | consume b rest t hr ho hp hi hc => exact (h.of_report (t := { s with env.inq := rest }) rfl).consumed hp ho hc

theorem abortBusy_obuf (s : State) : (abortBusy s).eng.obuf = [] := by
  rw [abortBusy, scrambleSession_eng, reportDone_eng]

/-- ABORT reports the end of the operation (45_host_commands.md R232). -/
theorem abortBusy_done (s : State) : (abortBusy s).regs.done = true := by
  rw [abortBusy, scrambleSession_regs, reportDone_done]

theorem abortBusy_err (s : State) : (abortBusy s).regs.err = (abortBusy s).regs.reason.isErr := by
  rw [abortBusy, scrambleSession_regs, reportDone_err, reportDone_reason]

/-- START, ABORT and CLEAR write the whole report (45_host_commands.md R229, R230, R232, R233). -/
theorem ReportInv.cmdMove {s t : State} (h : ReportInv s) (m : CmdMove s t) : ReportInv t := by
  cases m with
  | same => exact h
  | reject => exact h.of_report rfl
  | started d st hi =>
    have ho : (startOperation d st s.regs.maxCode (startReport d st s)).eng.obuf = [] := h.idle hi
    exact .of_busy (by simp) (fun _ => ⟨by rw [ho]; rfl, rfl⟩) (by simp) ⟨rfl, rfl, rfl, rfl⟩
  | cfgErr d st hi => exact .of_idle hi (h.idle hi) (fun _ => rfl) (fun hd => nomatch hd)
  | abort =>
    exact .of_idle (abortBusy_phase s) (abortBusy_obuf s) (fun _ => abortBusy_err s)
      (fun hd => by rw [abortBusy_done] at hd; cases hd)
  | clear hi => exact .of_idle hi (h.idle hi) (fun hd => nomatch hd) (fun _ => ⟨rfl, rfl⟩)

/-- No store reaches the report (10_state.md R22, R35). -/
theorem writeWord_report (i : Nat) (d : Word) (s : State) : (writeWord i d s).report = s.report := by
  unfold writeWord
  split <;> rfl

theorem ReportInv.driveReset {s : State} (h : ReportInv s) (level : Bool) : ReportInv (driveReset level s) := by
  rcases driveReset_cases level s with e | e <;> rw [e]
  · exact h
  · exact .of_idle rfl rfl (fun hd => nomatch hd) (fun _ => ⟨rfl, rfl⟩)

/-- Settles O46: by the pending move. Only the engine and the commands write the report, each of them all that the
new phase asks for. -/
theorem reportStaysConsistent : Obligations.ReportStaysConsistent := by
  unfold Obligations.ReportStaysConsistent
  intro s t h hstep
  have hpop : ReportInv s.popTurn := h.of_report rfl
  cases step_turn hstep with
  | engine t hn hm => exact hpop.engineMove hm
  | command off m w rest t hs hr ho he =>
    obtain ⟨u, hu, hm⟩ := exec_command (decodeCmd w) (decodeCmd_format w) s.popTurn
    obtain rfl := Host.Outcome.next.inj (hu.symm.trans he)
    exact hpop.cmdMove hm
  | store off m d rest => exact hpop.of_report (writeWord_report _ _ _)
  | reset level => exact hpop.driveReset level
  | envOnly e => exact h.of_report rfl

/-! ### DONE -/

/-- The commands that set DONE: ABORT of a busy block, and a START refused with CFG_ERROR (20_memory.md R73). -/
theorem exec_command_done {i : Instr} (hf : i.format = .cmd32) {s t : State} (h : exec i s = .next t)
    (hs : s.regs.done = false) (ht : t.regs.done = true) :
    (s.eng.phase ≠ .idle ∧ t.eng.obuf = [] ∧ i = .abort) ∨
      (s.eng.phase = .idle ∧ t.regs.reason = .cfgError ∧ ∃ d st, i = Instr.start d st) := by
  have hsame : t.regs.done ≠ s.regs.done := by simp [hs, ht]
  rcases command_cases hf with ⟨d, st, rfl⟩ | rfl | rfl | rfl | ⟨w, rfl⟩
  · rw [exec_start, start, startIdle] at h
    obtain rfl := Host.Outcome.next.inj h
    split_ifs at ht hsame ⊢ with hb hl
    · exact absurd rfl hsame
    · cases ht
    · exact .inr ⟨State.busy_eq_false.mp (by simpa using hb), rfl, d, st, rfl⟩
  · obtain rfl := Host.Outcome.next.inj h
    exact absurd rfl hsame
  · obtain rfl := Host.Outcome.next.inj h
    split_ifs at hsame ⊢ with hb
    · exact .inl ⟨State.busy_eq_true.mp hb, abortBusy_obuf s, rfl⟩
    · exact absurd rfl hsame
  · obtain rfl := Host.Outcome.next.inj h
    split_ifs at ht hsame
    · exact absurd rfl hsame
    · cases ht
  · obtain rfl := Host.Outcome.next.inj h
    exact absurd rfl hsame

/-- Settles O52: by the pending move. The engine sets DONE only by delivering End. -/
theorem doneSetInThreePlaces : Obligations.DoneSetInThreePlaces := by
  unfold Obligations.DoneSetInThreePlaces
  intro s t hstep hs ht
  have hsame : t.regs.done ≠ s.regs.done := by simp [hs, ht]
  cases step_turn hstep with
  | engine t hn hm =>
    cases hm with
    | wait => exact absurd rfl hsame
    | drain b rest hr ho hready =>
      cases b with
      | byte x => exact absurd rfl hsame
      | endMark => exact .inl ⟨hn, hready, congrArg List.head? ho, rfl⟩
    | consume b rest t hr ho hp hi hc => exact absurd hc.frame.done hsame
  | command off m w rest t hsc hr ho he =>
    rcases exec_command_done (decodeCmd_format w) he hs ht with ⟨hb, hempty, hw⟩ | ⟨hi, hreason, d, st, hw⟩
    · obtain rfl := decodeCmd_abort hw
      exact .inr (.inl ⟨hb, hempty, off, m, rest, hsc, ho⟩)
    · exact .inr (.inr ⟨hi, hreason, off, m, rest, d, st, w, hsc, ho, hw⟩)
  | store off m d rest hsc =>
    exact absurd (congrArg (·.regs.done) (writeWord_report (off / 4) d s.popTurn)) hsame
  | reset level rest hsc =>
    rcases driveReset_cases level s.popTurn with e | e <;> rw [e] at ht hsame
    · exact absurd rfl hsame
    · cases ht
  | envOnly e => exact absurd rfl hsame

end Sys2Proof.Machine
end

section
/-! PROOFS. The ports: what one engine step moves, the host's side of them, and a register read (20_memory.md R60 to
R68). -/

namespace Sys2Proof.Machine

open Sys2Proof

/-! ### The engine's turn -/

/-- When it is the engine's move, a step is an engine step (20_memory.md R72). -/
theorem step_engine {s : State} (hl : s.cfg.legal = true) (hn : s.engineNext = true) :
    step s = engineStep s.popTurn := by
  unfold State.engineNext at hn
  split at hn
  next hs => exact step_of_nil hl hs
  next rest hs => exact step_of_cons hl hs
  next => cases hn

/-- The engine drains while the sink accepts (20_memory.md R67). -/
theorem engineStep_drain {s : State} {b : OutBeat} {rest : List OutBeat} (hr : s.env.rstN = true)
    (hs : s.env.outReady = true) (ho : s.eng.obuf = b :: rest) : engineStep s = .next (drainBeat b rest s) := by
  rw [engineStep, engineMove, if_pos hr, ho]
  dsimp only
  rw [if_pos hs, runFetch]

/-- Settles O10: the step is the drain of the head, which counts a byte or completes the operation. -/
theorem stepDrainsBeat : Obligations.StepDrainsBeat := by
  unfold Obligations.StepDrainsBeat
  intro s b rest hl hn hr hs ho
  have hstep : step s = .next (drainBeat b rest s.popTurn) :=
    (step_engine hl hn).trans (engineStep_drain (s := s.popTurn) hr hs ho)
  cases b with
  | byte x => exact hstep
  | endMark => exact hstep

/-! ### Register reads -/

/-- Settles O14: a read in the window only adds to the words read. -/
theorem registerReadHasNoSideEffect : Obligations.RegisterReadHasNoSideEffect := by
  unfold Obligations.RegisterReadHasNoSideEffect
  intro s off rest hl hs ho
  have hw : inWindow off = true := decide_eq_true ho
  rw [step_of_cons hl hs, popTurn_of_script hs]
  simp [hostStep, hostMove, regRead, hw]

/-! ### One beat -/

theorem drainBeat_env (b : OutBeat) (rest : List OutBeat) (s : State) :
    (drainBeat b rest s).env = { s.env with delivered := s.env.delivered ++ [b] } := by
  cases b <;> rfl

theorem drainBeat_obuf (b : OutBeat) (rest : List OutBeat) (s : State) : (drainBeat b rest s).eng.obuf = rest := by
  cases b <;> rfl

theorem State.inReady_iff {s : State} (hr : s.env.rstN = true) :
    s.inReady = true ↔ s.eng.phase = .run ∧ s.eng.obuf = [] := by
  simp [State.inReady, hr]

theorem State.outValid_iff {s : State} (hr : s.env.rstN = true) : s.outValid = true ↔ s.eng.obuf ≠ [] := by
  simp [State.outValid, hr]

/-- The beat offered is the head of the output buffer, if there is one (20_memory.md R66). -/
theorem State.outBeat_eq {s : State} (hr : s.env.rstN = true) : s.outBeat = s.eng.obuf.head? := by
  unfold State.outBeat
  split_ifs with h
  · rfl
  · rw [State.outValid_iff hr, not_not] at h
    rw [h, List.head?_nil]

/-- An engine step takes no input beat, or the first one with `in_ready` at 1 (20_memory.md R64, R68). -/
theorem EngineMove.inq {s t : State} (m : EngineMove s t) :
    t.env.inq = s.env.inq ∨
      (s.inReady = true ∧ t.env.delivered = s.env.delivered ∧ ∃ b, s.env.inq = b :: t.env.inq) := by
  cases m with
  | wait => exact .inl rfl
  | drain b rest => exact .inl (by rw [drainBeat_env])
  | consume b rest t hr ho hp hi hc =>
    refine .inr ⟨(State.inReady_iff hr).mpr ⟨hp, ho⟩, ?_, b, ?_⟩ <;> rw [hc.frame.env]
    exact hi

/-- An engine step delivers nothing, or the head of the output buffer to a sink that accepts it (20_memory.md R66,
R67). -/
theorem EngineMove.delivered {s t : State} (m : EngineMove s t) :
    t.env.delivered = s.env.delivered ∨
      (s.outValid = true ∧ s.env.outReady = true ∧ t.env.inq = s.env.inq ∧
        ∃ b, s.eng.obuf = b :: t.eng.obuf ∧ t.env.delivered = s.env.delivered ++ [b]) := by
  cases m with
  | wait => exact .inl rfl
  | drain b rest hr ho hs =>
    refine .inr ⟨(State.outValid_iff hr).mpr (by simp [ho]), hs, ?_, b, ?_, ?_⟩
    · rw [drainBeat_env]
    · rw [drainBeat_obuf, ho]
    · rw [drainBeat_env]
  | consume b rest t hr ho hp hi hc => exact .inl (by rw [hc.frame.env])

theorem CmdMove.env {s t : State} (m : CmdMove s t) : t.env = s.env := by
  cases m with
  | abort => exact abortBusy_env s
  | same | reject | started | cfgErr | clear => rfl

theorem writeWord_env (i : Nat) (d : Word) (s : State) : (writeWord i d s).env = s.env := by
  unfold writeWord
  split <;> rfl

/-- No move of the host delivers a beat (20_memory.md R66). -/
theorem hostStep_delivered {turn : HostTurn} (ht : turn ≠ .engine) {s t : State} (h : hostStep turn s = .next t) :
    t.env.delivered = s.env.delivered := by
  cases turn with
  | engine => exact absurd rfl ht
  | regWrite off m d =>
    simp only [hostStep, hostMove] at h
    cases hw : regWrite off m d s with
    | done u =>
      simp only [hw, Host.Outcome.next.injEq] at h
      subst h
      rcases regWrite_done_cases hw with rfl | ⟨-, -, rfl⟩
      · rfl
      · rw [writeWord_env]
    | command w =>
      simp only [hw] at h
      obtain ⟨u, hu, hm⟩ := exec_command (decodeCmd w) (decodeCmd_format w) s
      obtain rfl := Host.Outcome.next.inj (hu.symm.trans h)
      rw [hm.env]
    | refused r => simp [hw] at h
  | regRead off =>
    simp only [hostStep, hostMove, regRead] at h
    split_ifs at h
    exact Host.Outcome.next.inj h ▸ rfl
  | offer | withdraw | sinkReady => exact Host.Outcome.next.inj h ▸ rfl
  | rst level =>
    obtain rfl := Host.Outcome.next.inj h
    rcases driveReset_cases level s with e | e <;> rw [e]
    rfl

/-- A step is the engine's, or a move of the host that delivers nothing. -/
theorem step_engine_or_host {s t : State} (h : step s = .next t) :
    (s.engineNext = true ∧ EngineMove s.popTurn t) ∨
      (s.engineNext = false ∧ t.env.delivered = s.env.delivered) := by
  have hl := (step_move h).1
  cases hn : s.engineNext with
  | true => exact .inl ⟨rfl, engineStep_engineMove (step_engine hl hn ▸ h)⟩
  | false =>
    unfold State.engineNext at hn
    split at hn
    next => cases hn
    next => cases hn
    next hnil heng =>
      obtain ⟨turn, rest, hs⟩ := List.exists_cons_of_ne_nil hnil
      rw [step_of_cons hl hs] at h
      refine .inr ⟨rfl, hostStep_delivered (s := s.popTurn) ?_ h⟩
      rintro rfl
      exact heng rest hs

/-- Settles O57: the pins by their definitions, the host's moves by running them, and the beats by the two kinds of
step. -/
theorem portsMoveOneBeat : Obligations.PortsMoveOneBeat := by
  unfold Obligations.PortsMoveOneBeat
  refine ⟨fun s hr => ⟨State.inReady_iff hr, State.outValid_iff hr, State.outBeat_eq hr⟩, fun b => ⟨rfl, rfl⟩, rfl,
    fun s kind data rest hl hs => ?_, fun s rest hl hs => ?_, fun s level rest hl hs => ?_, fun s t h => ?_⟩
  · rw [step_of_cons hl hs, popTurn_of_script hs]
    rfl
  · rw [step_of_cons hl hs, popTurn_of_script hs]
    rfl
  · rw [step_of_cons hl hs, popTurn_of_script hs]
    rfl
  · rcases step_engine_or_host h with ⟨hn, m⟩ | ⟨hn, hd⟩
    · exact ⟨fun _ => m.inq, m.delivered.imp_right (fun hx => ⟨hn, hx⟩)⟩
    · exact ⟨fun he => absurd he (by simp [hn]), .inl hd⟩

end Sys2Proof.Machine
end

section
/-! PROOFS. The encodings (30_encoding.md R90 to R97): which instruction a command word and a code value decode to,
said once by an equivalence each, and the round trip of decoder and encoder from the two. -/

namespace Sys2Proof.Machine

open Sys2Proof

/-! ### Bytes of a word -/

theorem leNat_lt (bytes : List Byte) : leNat bytes < 256 ^ bytes.length := by
  induction bytes with
  | nil => simp [leNat]
  | cons b bs ih =>
    have hb : b.toNat < 256 := b.isLt
    rw [leNat, List.length_cons, pow_succ]
    omega

theorem leBytes_leNat (bytes : List Byte) : leBytes bytes.length (leNat bytes) = bytes := by
  induction bytes with
  | nil => rfl
  | cons b bs ih =>
    have hb : b.toNat < 256 := b.isLt
    have hdiv : (b.toNat + 256 * leNat bs) / 256 = leNat bs := by omega
    have hlow : BitVec.ofNat 8 (b.toNat + 256 * leNat bs) = b := by
      apply BitVec.eq_of_toNat_eq
      rw [BitVec.toNat_ofNat]
      omega
    rw [List.length_cons, leBytes, leNat, hdiv, hlow, ih]

/-- Every `n` bytes are the bytes of a word of `8 * n` bits. -/
theorem exists_eq_leBytes {bytes : List Byte} {n : Nat} (h : bytes.length = n) :
    ∃ w : BitVec (8 * n), bytes = leBytes n w.toNat := by
  have hlt : leNat bytes < 2 ^ (8 * n) := by
    rw [pow_mul, ← h]
    exact leNat_lt bytes
  refine ⟨BitVec.ofNat _ (leNat bytes), ?_⟩
  rw [BitVec.toNat_ofNat, Nat.mod_eq_of_lt hlt, ← h, leBytes_leNat]

/-- The decoder on the two bytes of a code is the code's class (30_encoding.md R97). -/
theorem decode_code16 (x : CodeCtx) (k : Code) : decode .code16 x (leBytes 2 k.toNat) = .instr (classify x k) := by
  have hk : leNat (leBytes 2 k.toNat) = k.toNat := leNat_leBytes 2 _ k.isLt
  rw [decode, if_pos (leBytes_length 2 _), hk, BitVec.ofNat_toNat, BitVec.setWidth_eq]

/-- The decoder answers an instruction on the bytes of a word only: four for a command, two for a code. -/
theorem decode_cases {f : Format} {x : CodeCtx} {bytes : List Byte} {i : Instr} (h : decode f x bytes = .instr i) :
    (f = .cmd32 ∧ ∃ w : Word, bytes = leBytes 4 w.toNat ∧ decodeCmd w = i) ∨
      (f = .code16 ∧ ∃ k : Code, bytes = leBytes 2 k.toNat ∧ classify x k = i) := by
  cases f with
  | cmd32 =>
    by_cases hlen : bytes.length = 4
    · obtain ⟨w, rfl⟩ := exists_eq_leBytes hlen
      exact .inl ⟨rfl, w, rfl, Decoded.instr.inj ((decode_cmd32 x w).symm.trans h)⟩
    · simp [decode, hlen] at h
  | code16 =>
    by_cases hlen : bytes.length = 2
    · obtain ⟨k, rfl⟩ := exists_eq_leBytes hlen
      exact .inr ⟨rfl, k, rfl, Decoded.instr.inj ((decode_code16 x k).symm.trans h)⟩
    · simp [decode, hlen] at h

/-! ### Command words -/

theorem wellFormed_reserved {w : Word} : (Instr.reserved w).wellFormed = true ↔ w ∉ definedWords := by
  simp [Instr.wellFormed]

/-- A word outside R94's table is reserved (30_encoding.md R96). -/
theorem decodeCmd_of_not_mem {w : Word} (h : w ∉ definedWords) : decodeCmd w = .reserved w := by
  simp only [definedWords, List.mem_cons, not_or] at h
  simp only [decodeCmd, h, if_false]

theorem decodeCmd_wellFormed (w : Word) : (decodeCmd w).wellFormed = true := by
  unfold decodeCmd
  split_ifs
  case neg =>
    rw [wellFormed_reserved]
    simp only [definedWords, List.mem_cons, List.not_mem_nil, or_self, not_false_eq_true, *]
  all_goals rfl

/-- The command decode is the inverse of the encoding, on the well-formed commands (30_encoding.md R94, R96). -/
theorem decodeCmd_eq_iff {w : Word} {i : Instr} :
    decodeCmd w = i ↔ i.format = .cmd32 ∧ encodeValue i = w.toNat ∧ i.wellFormed = true := by
  constructor
  · rintro rfl
    exact ⟨decodeCmd_format w, encodeValue_decodeCmd w, decodeCmd_wellFormed w⟩
  · rintro ⟨hf, hv, hw⟩
    obtain rfl : BitVec.ofNat 32 (encodeValue i) = w := by rw [hv, BitVec.ofNat_toNat, BitVec.setWidth_eq]
    cases i with
    | reserved u =>
      rw [encodeValue, BitVec.ofNat_toNat, BitVec.setWidth_eq]
      exact decodeCmd_of_not_mem (wellFormed_reserved.mp hw)
    | lit | eof | dict | kwkwk | bad => cases hf
    | _ => decide

/-- A command is received in every context: the state has no part in its row. -/
theorem admitted_of_cmd32 {i : Instr} (x : CodeCtx) (hf : i.format = .cmd32) : i.admitted x = true := by
  cases i with
  | lit | eof | dict | kwkwk | bad => cases hf
  | _ => rfl

/-! ### Code classes -/

/-- Above EOF the state decides the class (30_encoding.md R97; 43_decompress.md R187). -/
theorem classify_of_257_le (x : CodeCtx) {k : Code} (hk : 257 ≤ k.toNat) :
    classify x k =
      if k.toNat < x.nextCode.toNat then .dict k else if x.isKwkwk k then .kwkwk k else .bad k := by
  rw [classify, if_neg (by omega), if_neg (by omega)]

/-- A code's class is encoded as the code, is well formed, and is admitted by the context (30_encoding.md R97). -/
theorem classify_spec (x : CodeCtx) (k : Code) :
    (classify x k).format = .code16 ∧ encodeValue (classify x k) = k.toNat ∧
      (classify x k).wellFormed = true ∧ (classify x k).admitted x = true := by
  unfold classify
  split_ifs with hlit heof hdict hkw
  · refine ⟨rfl, ?_, rfl, rfl⟩
    rw [encodeValue, BitVec.toNat_ofNat]
    omega
  · exact ⟨rfl, heof.symm, rfl, rfl⟩
  · exact ⟨rfl, rfl, decide_eq_true (by omega), decide_eq_true hdict⟩
  · exact ⟨rfl, rfl, decide_eq_true (by omega), by simpa [Instr.admitted, hkw] using hdict⟩
  · exact ⟨rfl, rfl, decide_eq_true (by omega), by simpa [Instr.admitted, hkw] using hdict⟩

/-- A code's class is the one well-formed code instruction that the context admits and that is encoded as the code
(30_encoding.md R97). -/
theorem classify_eq_iff {x : CodeCtx} {k : Code} {i : Instr} :
    classify x k = i ↔
      i.format = .code16 ∧ encodeValue i = k.toNat ∧ i.wellFormed = true ∧ i.admitted x = true := by
  constructor
  · rintro rfl
    exact classify_spec x k
  · rintro ⟨hf, hv, hw, ha⟩
    cases i with
    | lit b =>
      have hb : b.toNat < 256 := b.isLt
      have hk : k.toNat ≤ 255 := by
        rw [← hv, encodeValue]
        omega
      rw [classify, if_pos hk, ← hv, encodeValue, BitVec.ofNat_toNat, BitVec.setWidth_eq]
    | eof =>
      have hk : k.toNat = 256 := hv.symm
      rw [classify, if_neg (by omega), if_pos hk]
    | dict j =>
      obtain rfl : j = k := BitVec.eq_of_toNat_eq hv
      rw [classify_of_257_le x (of_decide_eq_true hw), if_pos (of_decide_eq_true ha)]
    | kwkwk j =>
      obtain rfl : j = k := BitVec.eq_of_toNat_eq hv
      obtain ⟨hn, hkw⟩ : x.nextCode.toNat ≤ j.toNat ∧ x.isKwkwk j = true := by simpa [Instr.admitted] using ha
      rw [classify_of_257_le x (of_decide_eq_true hw), if_neg hn.not_gt, if_pos hkw]
    | bad j =>
      obtain rfl : j = k := BitVec.eq_of_toNat_eq hv
      obtain ⟨hn, hkw⟩ : x.nextCode.toNat ≤ j.toNat ∧ x.isKwkwk j = false := by simpa [Instr.admitted] using ha
      rw [classify_of_257_le x (of_decide_eq_true hw), if_neg hn.not_gt, if_neg (by simp [hkw])]
    | _ => cases hf

/-! ### Encoder -/

theorem encode_of_format {i : Instr} {f : Format} (hf : i.format = f) : encode i = leBytes f.bytes (encodeValue i) := by
  rw [encode, hf]

theorem encodeValue_lt (i : Instr) : encodeValue i < 2 ^ (8 * i.format.bytes) := by
  cases i with
  | reserved w => exact w.isLt
  | dict k | kwkwk k | bad k => exact k.isLt
  | lit b => exact lt_trans b.isLt (show 2 ^ 8 < 2 ^ 16 by decide)
  | _ => decide

/-- An instruction's value is a word of its format (30_encoding.md R90, R97). -/
theorem exists_encodeValue_eq {i : Instr} {f : Format} (hf : i.format = f) :
    ∃ w : BitVec (8 * f.bytes), encodeValue i = w.toNat := by
  subst hf
  exact ⟨⟨encodeValue i, encodeValue_lt i⟩, rfl⟩

/-! ### Fields of a command word -/

/-- The fields of a word built from fields that fit (30_encoding.md R90). -/
theorem cmdWord_eq_toNat_iff {op dir strat : Nat} {w : Word} (hop : op < 16) (hdir : dir < 2) (hstrat : strat < 4) :
    cmdWord op dir strat = w.toNat ↔ cmdOp w = op ∧ cmdDir w = dir ∧ cmdStrat w = strat ∧ cmdMbz w = 0 := by
  unfold cmdWord cmdOp cmdDir cmdStrat cmdMbz
  omega

theorem dir_bits_lt (d : Dir) : d.bits < 2 := by
  cases d <;> decide

theorem strategy_bits_lt (st : Strategy) : st.bits < 4 := by
  cases st <;> decide

/-- A START's row: OP 1 and the fields of its direction and strategy (30_encoding.md R91 to R94). -/
theorem start_row (d : Dir) (st : Strategy) :
    (Instr.start d st).format = .cmd32 ∧ encodeValue (Instr.start d st) = cmdWord 1 d.bits st.bits ∧
      (Instr.start d st).wellFormed = true := by
  cases d <;> cases st <;> exact ⟨rfl, rfl, rfl⟩

/-- R94's table by fields: the STARTs in both directions and all strategies, and NOP, ABORT and CLEAR without either. -/
theorem mem_definedWords_iff {w : Word} :
    w ∈ definedWords ↔
      cmdMbz w = 0 ∧ (cmdOp w = 1 ∨ (cmdOp w < 4 ∧ cmdDir w = 0 ∧ cmdStrat w = 0)) := by
  simp only [definedWords, List.mem_cons, List.not_mem_nil, or_false, ← BitVec.toNat_inj, BitVec.reduceToNat]
  unfold cmdOp cmdDir cmdStrat cmdMbz
  omega

/-! ### The statements -/

/-- Settles O3: both decoders are the inverses of `encodeValue`, and the bytes spell the value. -/
theorem decodeOfEncode : Obligations.DecodeOfEncode := by
  unfold Obligations.DecodeOfEncode
  intro i x hw ha
  cases hf : i.format with
  | cmd32 =>
    obtain ⟨w, hv⟩ : ∃ w : Word, encodeValue i = w.toNat := exists_encodeValue_eq hf
    rw [encode_of_format hf, Format.bytes, hv, decode_cmd32, decodeCmd_eq_iff.mpr ⟨hf, hv, hw⟩]
  | code16 =>
    obtain ⟨k, hv⟩ : ∃ k : Code, encodeValue i = k.toNat := exists_encodeValue_eq hf
    rw [encode_of_format hf, Format.bytes, hv, decode_code16, classify_eq_iff.mpr ⟨hf, hv, hw, ha⟩]

/-- Settles O4: the bytes are those of a word, and either decoder answers an instruction that is encoded as the word. -/
theorem encodeOfDecode : Obligations.EncodeOfDecode := by
  unfold Obligations.EncodeOfDecode
  intro f x bytes i h
  rcases decode_cases h with ⟨rfl, w, rfl, hd⟩ | ⟨rfl, k, rfl, hc⟩
  · obtain ⟨hf, hv, hw⟩ := decodeCmd_eq_iff.mp hd
    exact ⟨by rw [encode_of_format hf, hv, Format.bytes], hf, hw, admitted_of_cmd32 x hf⟩
  · obtain ⟨hf, hv, hw, ha⟩ := classify_eq_iff.mp hc
    exact ⟨by rw [encode_of_format hf, hv, Format.bytes], hf, hw, ha⟩

/-- Settles O2: each class is the instruction that the code encodes and the context admits. -/
theorem codeClassesDecode : Obligations.CodeClassesDecode := by
  unfold Obligations.CodeClassesDecode
  intro x k
  simp only [decode_code16, Decoded.instr.injEq, classify_eq_iff]
  refine ⟨fun b hk => ⟨rfl, hk.symm, rfl, rfl⟩, fun hk => ⟨rfl, hk.symm, rfl, rfl⟩, fun h257 hn => ?_,
    fun h257 hk hp hm => ?_, fun h257 hn hbad => ?_⟩
  · exact ⟨rfl, rfl, decide_eq_true h257, decide_eq_true hn⟩
  · have hkw : x.isKwkwk k = true := isKwkwk_iff.mpr ⟨hk, hp, hm⟩
    exact ⟨rfl, rfl, decide_eq_true h257, by simp [Instr.admitted, hkw, hk]⟩
  · have hkw : ¬x.isKwkwk k = true := by
      rw [isKwkwk_iff]
      rintro ⟨hk, hp, hm⟩
      rcases hbad with h | h | h
      · exact h hk
      · simp [hp] at h
      · omega
    exact ⟨rfl, rfl, decide_eq_true h257, by simp [Instr.admitted, hkw, hn]⟩

/-- Settles O5: the word is the one that START's fields build. -/
theorem startWordFields : Obligations.StartWordFields := by
  unfold Obligations.StartWordFields
  intro d st w
  obtain ⟨hf, hv, hw⟩ := start_row d st
  rw [decodeCmd_eq_iff, hv, ← cmdWord_eq_toNat_iff (by decide) (dir_bits_lt d) (strategy_bits_lt st)]
  exact ⟨fun ⟨_, hvalue, _⟩ => hvalue, fun hvalue => ⟨hf, hvalue, hw⟩⟩

/-- Settles O6: reserved are the words outside the table, which the fields describe, and RESERVED raises CMD_IRQ. -/
theorem reservedWordsOnlySetCmdIrq : Obligations.ReservedWordsOnlySetCmdIrq := by
  unfold Obligations.ReservedWordsOnlySetCmdIrq
  refine fun w => ⟨?_, fun s => rfl⟩
  have hres : decodeCmd w = .reserved w ↔ w ∉ definedWords := by
    rw [decodeCmd_eq_iff, wellFormed_reserved]
    exact ⟨fun ⟨_, _, hmem⟩ => hmem, fun hmem => ⟨rfl, rfl, hmem⟩⟩
  rw [hres, mem_definedWords_iff]
  omega

/-- Settles O1: the eleven words by running the decoder, and every other word by R96. -/
theorem commandWordsDecode : Obligations.CommandWordsDecode := by
  unfold Obligations.CommandWordsDecode
  refine fun x => ⟨rfl, rfl, rfl, rfl, rfl, rfl, rfl, rfl, rfl, rfl, rfl, fun w hw => ?_⟩
  rw [decode_cmd32, decodeCmd_of_not_mem hw]

end Sys2Proof.Machine
end

section
/-! PROOFS. Where the bits of a packed stream stand, how long a stream is in each strategy, and the decimal digits of a
Text line (30_encoding.md R99 to R101; 41_code_stream.md R134 to R140). -/

namespace Sys2Proof.Machine

open Sys2Proof

variable {st : Strategy} {mc : Code}

/-! ### Bits of a packed stream -/

/-- The bits of a stream are those of the number its bytes spell (30_encoding.md R101). -/
theorem streamBit_eq_testBit (bytes : List Byte) (j : Nat) : streamBit bytes j = (leNat bytes).testBit j := by
  induction bytes generalizing j with
  | nil => simp [streamBit, leNat]
  | cons b bs ih =>
    rw [leNat, add_comm, show (256 : Nat) = 2 ^ 8 from rfl, Nat.testBit_two_pow_mul_add _ b.isLt]
    split_ifs with hj
    · rw [streamBit, Nat.div_eq_of_lt hj, Nat.mod_eq_of_lt hj, List.getD_cons_zero, BitVec.getLsbD]
    · have hdiv : j / 8 = (j - 8) / 8 + 1 := by omega
      have hmod : j % 8 = (j - 8) % 8 := by omega
      rw [streamBit, hdiv, hmod, List.getD_cons_succ, ← ih, streamBit]

/-- The bits of the first code, masked to its width, stand below those of the codes after it (30_encoding.md R101). -/
theorem packedValue_cons_testBit (i : Nat) (k : Code) (ks : List Code) (j : Nat) :
    (packedValue st mc i (k :: ks)).testBit j =
      if j < codeWidth st mc i then k.getLsbD j
      else (packedValue st mc (i + 1) ks).testBit (j - codeWidth st mc i) := by
  rw [packedValue, add_comm, Nat.testBit_two_pow_mul_add _ (Nat.mod_lt _ (by positivity))]
  split_ifs with hj
  · rw [Nat.testBit_mod_two_pow, decide_eq_true hj, Bool.true_and, BitVec.getLsbD]
  · rfl

/-- Offsets rise with the code number (30_encoding.md R101). -/
theorem codeOffset_mono (st : Strategy) (mc : Code) : Monotone (codeOffset st mc) :=
  monotone_nat_of_le_succ (fun _ => Nat.le_add_right _ _)

/-- Bit `t` of a code stands `t` bits above the widths before the code (30_encoding.md R101). -/
theorem packedValue_testBit_code (ks : List Code) {i j d t : Nat} {k : Code} (hk : ks[j]? = some k)
    (hd : codeOffset st mc i + d = codeOffset st mc (i + j)) (ht : t < codeWidth st mc (i + j)) :
    (packedValue st mc i ks).testBit (d + t) = k.getLsbD t := by
  induction ks generalizing i j d with
  | nil => simp at hk
  | cons k' ks ih =>
    rw [packedValue_cons_testBit]
    cases j with
    | zero =>
      obtain rfl : k' = k := by simpa using hk
      obtain rfl : d = 0 := by rw [Nat.add_zero] at hd; omega
      rw [Nat.zero_add, if_pos (by simpa using ht)]
    | succ j =>
      rw [show i + (j + 1) = i + 1 + j by omega] at hd ht
      have hmono : codeOffset st mc (i + 1) ≤ codeOffset st mc (i + 1 + j) :=
        codeOffset_mono st mc (Nat.le_add_right _ _)
      have hoff : codeOffset st mc (i + 1) = codeOffset st mc i + codeWidth st mc i := rfl
      rw [if_neg (by omega), show d + t - codeWidth st mc i = d - codeWidth st mc i + t by omega]
      exact ih (by simpa using hk) (by omega) ht

/-- Nothing stands above the last code (30_encoding.md R101). -/
theorem packedValue_testBit_padding (ks : List Code) {i j : Nat}
    (hj : codeOffset st mc (i + ks.length) ≤ codeOffset st mc i + j) :
    (packedValue st mc i ks).testBit j = false := by
  induction ks generalizing i j with
  | nil => exact Nat.zero_testBit j
  | cons k ks ih =>
    rw [List.length_cons, show i + (ks.length + 1) = i + 1 + ks.length by omega] at hj
    have hmono : codeOffset st mc (i + 1) ≤ codeOffset st mc (i + 1 + ks.length) :=
      codeOffset_mono st mc (Nat.le_add_right _ _)
    have hoff : codeOffset st mc (i + 1) = codeOffset st mc i + codeWidth st mc i := rfl
    rw [packedValue_cons_testBit, if_neg (by omega)]
    exact ih (by omega)

/-- FIXEDW packs for a `max_code` of at least 256, ADAPTIVE for every one (41_code_stream.md R141, R142). -/
theorem packed_iff : Packed st mc ↔ (st = .fixedw ∨ st = .adaptive) ∧ (st = .fixedw → 256 ≤ mc.toNat) := by
  cases st <;> simp [Packed]

/-- A whole packed stream spells its codes, and pads them with less than a byte (41_code_stream.md R138, R140). -/
theorem codeStreamOf_packed (hp : Packed st mc) (ks : List Code) :
    leNat (codeStreamOf st mc ks) = packedValue st mc 0 ks ∧
      codeOffset st mc ks.length ≤ 8 * (codeStreamOf st mc ks).length ∧
      8 * (codeStreamOf st mc ks).length < codeOffset st mc ks.length + 8 := by
  obtain ⟨hval, hlo, hhi⟩ := finishCodes_packed hp ks
    (sessionInit_ok .compress st mc (packed_iff.mp hp).2) (sessionInit_atCode st mc)
  rw [← codeStreamOf_eq] at hval hlo hhi
  have hacc : (sessionInit st mc).acc.toNat = 0 := rfl
  have hnb : (sessionInit st mc).nbits.toNat = 0 := rfl
  have hzero : codeOffset st mc 0 = 0 := rfl
  rw [hacc, hnb, pow_zero, one_mul, Nat.zero_add] at hval
  rw [hnb, hzero, Nat.zero_add, Nat.zero_add] at hlo hhi
  exact ⟨hval, by omega, by omega⟩

/-- Settles O39: the stream is the number that the codes are packed into, whose bits are those of each code in turn. -/
theorem packedBitPositions : Obligations.PackedBitPositions := by
  unfold Obligations.PackedBitPositions
  intro st mc ks hst hmc
  obtain ⟨hval, -⟩ := codeStreamOf_packed (packed_iff.mpr ⟨hst, hmc⟩) ks
  refine ⟨fun i k t hk ht => ?_, fun j hj => ?_⟩ <;> rw [streamBit_eq_testBit, hval]
  · rw [← Nat.zero_add i] at ht
    exact packedValue_testBit_code ks hk (by rw [codeOffset, Nat.zero_add, Nat.zero_add]) ht
  · exact packedValue_testBit_padding ks (by rwa [codeOffset, Nat.zero_add, Nat.zero_add])

/-! ### Text lines -/

/-- The Text writer's digits are those of the number, for as many as the fuel allows (30_encoding.md R99). -/
theorem decimalDigits_eq_digits {n k : Nat} (hk : k < 10 ^ (n + 1)) (h0 : k ≠ 0) :
    decimalDigits (n + 1) k = (Nat.digits 10 k).reverse.map digitByte := by
  induction n generalizing k with
  | zero =>
    rw [decimalDigits, if_pos (by omega), Nat.digits_of_lt 10 k h0 (by omega)]
    rfl
  | succ n ih =>
    rw [decimalDigits]
    split_ifs with h10
    · rw [Nat.digits_of_lt 10 k h0 h10]
      rfl
    · have hlt : k / 10 < 10 ^ (n + 1) := by
        rw [Nat.div_lt_iff_lt_mul (by norm_num), ← pow_succ]
        exact hk
      rw [ih hlt (by omega), Nat.digits_eq_cons_digits_div (by norm_num) h0, List.reverse_cons, List.map_append,
        List.map_singleton]

/-- A Text line: the digits of the code, "0" for 0, then a line feed (41_code_stream.md R134). -/
theorem textBytes_eq (k : Code) :
    textBytes k = (if k = 0 then [0x30] else (Nat.digits 10 k.toNat).reverse.map digitByte) ++ [0x0A] := by
  have hk : k.toNat < 10 ^ (4 + 1) := lt_trans k.isLt (by norm_num)
  rw [textBytes]
  split_ifs with h0
  · subst h0
    rfl
  · rw [decimalDigits_eq_digits hk (BitVec.toNat_ne.mp h0)]

/-- Settles O35: the writer's line is the digits of the code, and the session has no part in it. -/
theorem textWriterDigits : Obligations.TextWriterDigits := by
  unfold Obligations.TextWriterDigits
  intro mc k c
  rw [writeCode, textBytes_eq]
  rfl

/-! ### Stream lengths -/

theorem textBytes_length (k : Code) : (textBytes k).length = max 1 (Nat.digits 10 k.toNat).length + 1 := by
  rw [textBytes_eq, List.length_append, List.length_singleton]
  split_ifs with h0
  · subst h0
    rfl
  · have hpos : 0 < (Nat.digits 10 k.toNat).length :=
      List.length_pos_iff.mpr (Nat.digits_ne_nil_iff_ne_zero.mpr (BitVec.toNat_ne.mp h0))
    rw [List.length_map, List.length_reverse, max_eq_right hpos]

/-- TEXT and FIXED16 keep no state between codes, so a stream is the framings of its codes in order. -/
theorem finishCodes_eq_flatMap_of_framed (ks : List Code) (c : CodeStream) (hw : ∀ k, (writeCode st mc k c).2 = c)
    (hf : (flushFor st c).1 = []) : finishCodes st mc ks c = ks.flatMap (fun k => (writeCode st mc k c).1) := by
  induction ks with
  | nil => rw [finishCodes_nil, hf, List.flatMap_nil]
  | cons k ks ih => rw [finishCodes_cons, hw, ih, List.flatMap_cons]

/-- A packed stream has as many bytes as the widths of its codes need (41_code_stream.md R138, R140). -/
theorem codeStreamOf_packed_length (hp : Packed st mc) (ks : List Code) :
    (codeStreamOf st mc ks).length = (codeOffset st mc ks.length + 7) / 8 := by
  obtain ⟨-, hlo, hhi⟩ := codeStreamOf_packed hp ks
  omega

/-- FIXEDW gives every code the same width (41_code_stream.md R141). -/
theorem codeOffset_fixedw (mc : Code) (n : Nat) : codeOffset .fixedw mc n = n * bitlen mc.toNat := by
  induction n with
  | zero => rw [codeOffset, Nat.zero_mul]
  | succ n ih => rw [codeOffset, ih, codeWidth, Nat.succ_mul]

/-- Settles O40: TEXT and FIXED16 frame each code apart, and a packed stream rounds the widths up to bytes. -/
theorem streamLengths : Obligations.StreamLengths := by
  unfold Obligations.StreamLengths
  refine fun mc ks => ⟨?_, ?_, fun hmc => ?_, codeStreamOf_packed_length (.inr rfl) ks⟩
  · rw [codeStreamOf_eq, finishCodes_eq_flatMap_of_framed ks _ (fun _ => rfl) rfl, List.length_flatMap]
    simp only [writeCode, textBytes_length]
  · rw [codeStreamOf_eq, finishCodes_eq_flatMap_of_framed ks _ (fun _ => rfl) rfl, List.length_flatMap]
    simp [writeCode, fixed16Bytes, mul_comm]
  · rw [codeStreamOf_packed_length (.inl ⟨rfl, hmc⟩), codeOffset_fixedw]

end Sys2Proof.Machine
end

section
/-! PROOFS. The width of a code (41_code_stream.md R142): its growth with the code number, the lock-step of writer and
reader (R150), and that every code a compress operation writes fits it (R149). -/

namespace Sys2Proof.Machine

open Sys2Proof

variable {st : Strategy} {mc : Code}

/-! ### Growth -/

/-- A fresh ADAPTIVE session after `n` bumps is in order, and stands at code number `n` (41_code_stream.md R142). -/
theorem iterate_bump_sessionInit (mc : Code) (n : Nat) :
    SessionOk .compress .adaptive mc ((bump mc)^[n] (sessionInit .adaptive mc)) ∧
      ((bump mc)^[n] (sessionInit .adaptive mc)).AtCode .adaptive mc n := by
  induction n with
  | zero => exact ⟨sessionInit_ok .compress .adaptive mc (by simp), sessionInit_atCode .adaptive mc⟩
  | succ n ih =>
    rw [Function.iterate_succ_apply']
    exact ⟨ih.1.bump (by simp), ih.2.bumpFor⟩

/-- Settles O37: the counter is the code number's, and a session in order has the counter's width. -/
theorem adaptiveWidthGrowth : Obligations.AdaptiveWidthGrowth := by
  unfold Obligations.AdaptiveWidthGrowth
  intro mc n
  obtain ⟨hok, hat⟩ := iterate_bump_sessionInit mc n
  exact ⟨hat rfl, hok.width_atCode (.inr rfl) hat, hok.nextBump rfl⟩

/-! ### Lock-step -/

/-- The bump reads and writes the width and its counter alone (41_code_stream.md R150). -/
theorem bumpFor_growth (st : Strategy) (mc : Code) (c : CodeStream) :
    (bumpFor st mc c).growth = bumpFor st mc c.growth := by
  cases st with
  | adaptive =>
    dsimp only [bumpFor, bump, CodeStream.growth]
    split_ifs <;> rfl
  | text | fixed16 | fixedw => rfl

/-- A written code bumps, whatever the code (41_code_stream.md R131). -/
theorem writeCode_growth_eq_bumpFor (st : Strategy) (mc k : Code) (c : CodeStream) :
    (writeCode st mc k c).2.growth = bumpFor st mc c.growth := by
  cases st with
  | adaptive => exact bumpFor_growth .adaptive mc (packWrite k c).2
  | text | fixed16 | fixedw => rfl

theorem writeCodes_growth (ks : List Code) (c : CodeStream) :
    (writeCodes st mc ks c).2.growth = (bumpFor st mc)^[ks.length] c.growth := by
  induction ks generalizing c with
  | nil => rfl
  | cons k ks ih =>
    rw [List.length_cons, Function.iterate_succ_apply, ← writeCode_growth_eq_bumpFor st mc k]
    exact ih _

/-- A read code bumps, whatever the code (41_code_stream.md R132). -/
theorem readCodes_growth {bytes : List Byte} {c c' : CodeStream} {js : List Code}
    (h : readCodes st mc bytes c = some (js, c')) : c'.growth = (bumpFor st mc)^[js.length] c.growth := by
  induction bytes generalizing c js with
  | nil =>
    obtain ⟨rfl, rfl⟩ : [] = js ∧ c = c' := by simpa [readCodes] using h
    rfl
  | cons b bs ih =>
    have hkeep := readByte_growth st b c
    cases hr : readByte st b c with
    | noCode c₁ =>
      rw [hr] at hkeep
      rw [readCodes_noCode hr] at h
      rw [ih h, hkeep]
    | code k c₁ =>
      rw [hr] at hkeep
      rw [readCodes_code hr] at h
      obtain ⟨⟨js', c₂⟩, hrest, heq⟩ := Option.map_eq_some_iff.mp h
      obtain ⟨rfl, rfl⟩ := Prod.mk.inj heq
      rw [ih hrest, bumpFor_growth, hkeep, List.length_cons, Function.iterate_succ_apply]
    | formatError => simp [readCodes, hr] at h

/-- Settles O38: on either side the width depends on the number of codes alone, through as many bumps. -/
theorem widthLockStep : Obligations.WidthLockStep := by
  unfold Obligations.WidthLockStep
  intro st mc ks js bytes c hread hlen
  have h : (writeCodes st mc ks (sessionInit st mc)).2.growth = c.growth := by
    rw [writeCodes_growth, readCodes_growth hread, hlen]
  exact ⟨congrArg (·.width) h, congrArg (·.currentCode) h, congrArg (·.nextBump) h⟩

/-! ### Written codes fit -/

/-- The EOF code fits a packed width, which is at least 9 (41_code_stream.md R141, R142). -/
theorem SessionOk.eof_fits {d : Dir} {c : CodeStream} (h : SessionOk d st mc c) (hp : Packed st mc) :
    256 < 2 ^ c.width.toNat :=
  lt_of_lt_of_le (by norm_num) (Nat.pow_le_pow_right (by norm_num) (h.width_ge hp))

/-- A code fits the width of FIXEDW when it is at most `max_code`, and that of ADAPTIVE when it is at most the width
counter (41_code_stream.md R149). -/
theorem SessionOk.fits {d : Dir} {c : CodeStream} {k : Nat} (h : SessionOk d st mc c) (hp : Packed st mc)
    (hfw : st = .fixedw → k ≤ mc.toNat) (had : st = .adaptive → k ≤ c.currentCode.toNat) : k < 2 ^ c.width.toNat := by
  rw [h.width, ← bitlen_le_iff]
  rcases hp with ⟨rfl, -⟩ | rfl
  · exact (bitlen_le_iff _ _).mpr ((hfw rfl).trans_lt (lt_two_pow_bitlen _))
  · have hk : bitlen k ≤ bitlen c.currentCode.toNat :=
      (bitlen_le_iff _ _).mpr ((had rfl).trans_lt (lt_two_pow_bitlen _))
    exact hk.trans (le_max_right _ _)

/-- Settles O42: the EOF code fits every packed width; the pending match is below `next_code`, which is at most one
above `max_code` in FIXEDW and one above the width counter in ADAPTIVE. -/
theorem writtenCodeFitsWidth : Obligations.WrittenCodeFitsWidth := by
  unfold Obligations.WrittenCodeFitsWidth
  intro s he hs hf hrun hd hst
  have hbusy : s.eng.phase ≠ .idle := by rw [hrun]; decide
  have hok : SessionOk .compress s.eng.aStrat s.eng.aMc s.cs := hd ▸ hs hbusy
  have hp : Packed s.eng.aStrat s.eng.aMc := packed_iff.mpr ⟨hst, he.fixedw hbusy⟩
  refine ⟨hok.eof_fits hp, fun hcur => ⟨hok.fits hp (fun hfw => ?_) (fun had => ?_), (hok.writeCode _).eof_fits hp⟩⟩
  · have hbelow := ((he.compress hbusy hd).cur hcur).1
    have hnext := (he.next hbusy).2
    have hmc := he.fixedw hbusy hfw
    omega
  · have hbelow := ((he.compress hbusy hd).cur hcur).1
    have hahead := hf hbusy hd had
    omega

end Sys2Proof.Machine
end

section
/-! PROOFS. The readers: the grammar of the Text reader (41_code_stream.md R135), and what one beat of a decompress
operation does (R132, R133, R147; 43_decompress.md R186). -/

namespace Sys2Proof.Machine

open Sys2Proof

/-! ### The Text reader -/

/-- A digit extends the line's value, or makes it too large (41_code_stream.md R135). -/
theorem textReadByte_digit {b : Byte} {d : Nat} (hd : d ≤ 9) (hb : b.toNat = 0x30 + d) (c : CodeStream) :
    textReadByte b c =
      if 65535 < c.tval.toNat * 10 + d then .formatError
      else .noCode { c with tval := BitVec.ofNat 17 (c.tval.toNat * 10 + d), tdig := true } := by
  rw [textReadByte, if_pos (by omega), hb, Nat.add_sub_cancel_left]

/-- A line feed completes the code of a line that has a digit (41_code_stream.md R135). -/
theorem textReadByte_lineFeed (c : CodeStream) :
    textReadByte 0x0A c =
      if c.tdig then .code (c.tval.setWidth 16) { c with tval := 0, tdig := false } else .formatError := by
  rw [← BitVec.ofNat_toNat]
  rfl

/-- Every other byte is a format error (41_code_stream.md R135). -/
theorem textReadByte_other {b : Byte} (hlf : b ≠ 0x0A) (hb : b.toNat < 0x30 ∨ 0x39 < b.toNat) (c : CodeStream) :
    textReadByte b c = .formatError := by
  have hne : b.toNat ≠ 0x0A := fun h => hlf (BitVec.eq_of_toNat_eq h)
  rw [textReadByte, if_neg (by omega), if_neg hne]

/-- Settles O36: by the kind of the byte, a digit, a line feed or another. -/
theorem textReaderGrammar : Obligations.TextReaderGrammar := by
  unfold Obligations.TextReaderGrammar
  intro b c
  rw [readByte]
  refine ⟨fun d hd hb hv => ?_, fun d hd hb hv => ?_, ?_, ?_, fun hlf hb => textReadByte_other hlf hb c⟩
  · rw [textReadByte_digit hd hb, if_neg hv.not_gt]
  · rw [textReadByte_digit hd hb, if_pos hv]
  · rintro rfl hdig
    rw [textReadByte_lineFeed, if_pos hdig]
  · rintro rfl hdig
    rw [textReadByte_lineFeed, if_neg (by simp [hdig])]

/-! ### One beat of a decompress operation -/

/-- The engine consumes the first beat in RUN, with nothing to drain (20_memory.md R68). -/
theorem step_consumeBeat {s : State} {b : Beat} {rest : List Beat} (hc : s.canConsume)
    (hi : s.env.inq = b :: rest) : step s = runFetch (consumeBeat b rest s.popTurn) := by
  obtain ⟨hl, hn, hr, hp, ho⟩ := hc
  have hmove : engineMove s.popTurn = consumeBeat b rest s.popTurn := by
    simp [engineMove, State.popTurn, hr, hp, ho, hi]
  rw [step_engine hl hn, engineStep, hmove]

/-- A byte that completes no code is counted and changes the session (41_code_stream.md R132). -/
theorem fetchBeat_noCode {s : State} {x : Byte} {c : CodeStream} (h : readByte s.eng.aStrat x s.cs = .noCode c) :
    fetchBeat (.byte x) s = .done { countByteIn s with cs := c } := by
  simp only [fetchBeat, fetchByte, countByteIn_eng, countByteIn_cs, h]

/-- A byte that completes a code is counted, and so is the code (41_code_stream.md R132). -/
theorem fetchBeat_completed {s : State} {x : Byte} {k : Code} {c : CodeStream}
    (h : readByte s.eng.aStrat x s.cs = .code k c) :
    fetchBeat (.byte x) s = .code k (codeCompleted c (countByteIn s)) := by
  simp only [fetchBeat, fetchByte, countByteIn_eng, countByteIn_cs, h]

/-- A byte that the Text reader refuses is counted, and stops (41_code_stream.md R135). -/
theorem fetchBeat_formatError {s : State} {x : Byte} (h : readByte s.eng.aStrat x s.cs = .formatError) :
    fetchBeat (.byte x) s = .done (raiseStop .textFormat (x.setWidth 32) (countByteIn s)) := by
  simp only [fetchBeat, fetchByte, countByteIn_eng, countByteIn_cs, h, BitVec.ofNat_toNat]

/-- A stop with nothing pushed before it leaves End alone in the output buffer (60_exceptions.md R246). -/
theorem raiseStop_of_obuf_nil {s : State} (ho : s.eng.obuf = []) (r : Reason) (info : Word) :
    raiseStop r info s =
      { s with regs.reason := r, regs.errInfo := info, eng.obuf := [.endMark], eng.phase := .drain } := by
  rw [raiseStop, ho, List.nil_append]

theorem bumpFor_eq_ite (st : Strategy) (mc : Code) (c : CodeStream) :
    bumpFor st mc c = if st = .adaptive then bump mc c else c := by
  split_ifs with hst
  · rw [hst, bumpFor]
  · exact bumpFor_of_ne hst mc c

/-- Settles O9: the step fetches the beat; the reader's answer says whether a code is complete, and it is run in the
context of the session, where 256 is EOF. -/
theorem stepReadsBeat : Obligations.StepReadsBeat := by
  unfold Obligations.StepReadsBeat
  intro s b rest hc hd hi u
  have ⟨_, _, _, _, ho⟩ := hc
  have hfetch : step s = runFetch (fetchBeat b u) := by
    rw [step_consumeBeat hc hi, consumeBeat, popTurn_eng, hd]
    rfl
  rw [hfetch]
  cases b with
  | error => exact congrArg _ (raiseStop_of_obuf_nil (s := u) ho .inError 0)
  | endMark => exact congrArg _ (raiseStop_of_obuf_nil (s := u) ho .inEnd 0)
  | byte x =>
    dsimp only
    cases hr : readByte s.eng.aStrat x s.cs with
    | noCode c =>
      rw [fetchBeat_noCode (s := u) hr]
      rfl
    | formatError =>
      rw [fetchBeat_formatError (s := u) hr, raiseStop_of_obuf_nil (s := countByteIn u) ho]
      rfl
    | code k c =>
      rw [fetchBeat_completed (s := u) hr, runFetch]
      dsimp only
      rw [← bumpFor_eq_ite]
      split_ifs with hk
      · subst hk
        exact congrArg _ (raiseStop_of_obuf_nil (s := codeCompleted c (countByteIn u)) ho .eofCode 0)
      · intro i hdec
        rw [decode_code16, Decoded.instr.injEq] at hdec
        rw [← hdec]
        rfl

end Sys2Proof.Machine
end

section
/-! PROOFS. The dictionary of a running operation is written once per code (44_dictionary_tables.md R221), and what the
consuming steps of a compress operation do (42_compress.md R171 to R174). -/

namespace Sys2Proof.Machine

open Sys2Proof

/-! ### Each entry is written once -/

/-- The insert of a compress operation: the entry of `next_code`, under a key that had none (42_compress.md R171). -/
def InsertsEnc (s t : State) : Prop :=
  s.eng.aDir = .compress ∧ t.tabs.dec = s.tabs.dec ∧ ∃ p c,
    encLookup p c s = none ∧ encLookup p c t = some (s.eng.nextCode.setWidth 16) ∧
    ∀ q, q ≠ encKey p c → Memory.read t.tabs.enc q = Memory.read s.tabs.enc q

/-- The insert of a decompress operation: the entry of `next_code`, which extends `prev` (43_decompress.md R189). -/
def InsertsDec (s t : State) : Prop :=
  s.eng.aDir = .decompress ∧ t.tabs.enc = s.tabs.enc ∧
    (∃ c, Memory.read t.tabs.dec s.eng.nextCode.toNat = some (s.eng.prev, c)) ∧
    ∀ j, j ≠ s.eng.nextCode.toNat → Memory.read t.tabs.dec j = Memory.read s.tabs.dec j

/-- The tables and `next_code` stay, or the one entry of `next_code` is added and `next_code` goes up by one
(44_dictionary_tables.md R221). -/
def WritesOnce (s t : State) : Prop :=
  (t.eng.nextCode = s.eng.nextCode ∧ t.tabs.enc = s.tabs.enc ∧ t.tabs.dec = s.tabs.dec) ∨
  (t.eng.nextCode.toNat = s.eng.nextCode.toNat + 1 ∧ s.eng.nextCode.toNat ≤ s.eng.aMc.toNat ∧
    (InsertsEnc s t ∨ InsertsDec s t))

theorem WritesOnce.of_dictionary {s t : State} (e : t.dictionary = s.dictionary) : WritesOnce s t :=
  .inl ⟨congrArg (·.eng.nextCode) e, congrArg (·.tabs.enc) e, congrArg (·.tabs.dec) e⟩

/-- While there is room `next_code` is at most a code, so its 17 bits hold the next one (00_scope.md R10). -/
theorem nextCode_succ_toNat {n : NextCode} {mc : Code} (h : n.toNat ≤ mc.toNat) :
    (BitVec.ofNat 17 (n.toNat + 1)).toNat = n.toNat + 1 := by
  have hmc := mc.isLt
  rw [BitVec.toNat_ofNat]
  omega

theorem encInsertNext_insertsEnc {p : Code} {c : Byte} {s : State} (hd : s.eng.aDir = .compress)
    (hk : encLookup p c s = none) : InsertsEnc s (encInsertNext p c s) := by
  refine ⟨hd, rfl, p, c, hk, ?_, fun _ hq => Memory.read_write_other _ _ _ _ hq⟩
  rw [encLookup_insert, if_pos ⟨rfl, rfl⟩, BitVec.ofNat_toNat]

theorem decWriteNext_insertsDec {c : Byte} {s : State} (hd : s.eng.aDir = .decompress) :
    InsertsDec s (decWriteNext s.eng.prev c s) :=
  ⟨hd, rfl, ⟨c, Memory.read_write_same _ _ _⟩, fun _ hj => Memory.read_write_other _ _ _ _ hj⟩

/-- Of the arms of COMPRESS.BYTE, only a miss with room inserts (42_compress.md R171, R172). -/
theorem ByteMove.writesOnce {c : Byte} {s t : State} (m : ByteMove c s t) (hd : s.eng.aDir = .compress) :
    WritesOnce s t := by
  cases m with
  | first | hit | full => exact .inl ⟨rfl, rfl, rfl⟩
  | insert hv hk hr => exact .inr ⟨nextCode_succ_toNat hr, hr, .inl (encInsertNext_insertsEnc hd hk)⟩

theorem consumeCompress_writesOnce {s : State} (hd : s.eng.aDir = .compress) (b : Beat) :
    WritesOnce s (consumeCompress b s) := by
  cases b with
  | byte c => exact (compressByte_move c (countByteIn s)).writesOnce hd
  | endMark => exact .of_dictionary (compressEnd_dictionary s)
  | error => exact .of_dictionary rfl

/-- DECODE inserts with a previous string and room, and only then (43_decompress.md R189). -/
theorem decodeInsert_writesOnce {s : State} (hd : s.eng.aDir = .decompress) (first : Byte) :
    WritesOnce s (decodeInsert first s) := by
  rcases decodeInsert_cases first s with ⟨-, hr, e⟩ | e <;> rw [e]
  · exact .inr ⟨nextCode_succ_toNat hr, hr, .inr (decWriteNext_insertsDec hd)⟩
  · exact .of_dictionary rfl

/-- A completed code touches the tables only by DECODE's insert, and EOF and BAD not at all (43_decompress.md R187,
R192). -/
theorem CodeMove.writesOnce {k : Code} {u t : State} (m : CodeMove k u t) (hd : u.eng.aDir = .decompress) :
    WritesOnce u t := by
  cases m with
  | eof | bad => exact .of_dictionary rfl
  | lit b => exact decodeInsert_writesOnce (s := symWrite b [] u) hd b
  | dict first rest => exact decodeInsert_writesOnce (s := symWrite first rest (stackPopped u)) hd first
  | kwkwk bs =>
    exact decodeInsert_writesOnce (s := outPushAll (bs ++ [u.eng.prevFirst]) (stackPopped u)) hd u.eng.prevFirst

/-- A command that leaves a busy block busy changes no table (45_host_commands.md R228, R232, R234). -/
theorem CmdMove.busy_tabs {s t : State} (m : CmdMove s t) (hs : s.eng.phase ≠ .idle) (ht : t.eng.phase ≠ .idle) :
    t.tabs = s.tabs := by
  cases m with
  | same | reject => rfl
  | started d st hi | cfgErr d st hi | clear hi => exact absurd hi hs
  | abort => exact absurd (abortBusy_phase s) ht

theorem Move.writesOnce {s t : State} (m : Move s t) (hs : s.eng.phase ≠ .idle) (ht : t.eng.phase ≠ .idle) :
    WritesOnce s t := by
  cases m with
  | wait | envOnly => exact .of_dictionary rfl
  | drain b rest => exact .of_dictionary (drainBeat_dictionary b rest s)
  | compress b rest hr ho hp hi hd => exact consumeCompress_writesOnce (s := { s with env.inq := rest }) hd b
  | fetched b rest t hr ho hp hi hd hf => exact .of_dictionary (fetchBeat_done hf).dictionary
  | code b rest k c t hr ho hp hi hd hf hm => exact hm.writesOnce hd
  | command t hr hm =>
    have heng := (hm.busy hs ht).1
    have htabs := hm.busy_tabs hs ht
    exact .inl ⟨by rw [heng], by rw [htabs], by rw [htabs]⟩
  | regWrite i d => exact .of_dictionary (writeWord_dictionary i d s)
  | reset level => exact absurd rfl ht

/-- Settles O56: by the move. Only the two inserts touch a table of a running operation, each at `next_code`; that of
compress follows a lookup that found no entry. -/
theorem entriesWrittenOnce : Obligations.EntriesWrittenOnce := by
  unfold Obligations.EntriesWrittenOnce
  intro s t hstep hs ht
  exact Move.writesOnce (s := s.popTurn) (step_move hstep).2 hs ht

/-! ### One byte of a compress operation -/

/-- A consuming step of a compress operation takes the first beat (20_memory.md R68; 42_compress.md R171 to R174). -/
theorem step_consumeCompress {s : State} {b : Beat} {rest : List Beat} (hc : s.canConsume)
    (hd : s.eng.aDir = .compress) (hi : s.env.inq = b :: rest) :
    step s = .next (consumeCompress b { s with env.script := s.env.script.tail, env.inq := rest }) := by
  rw [step_consumeBeat hc hi, consumeBeat, popTurn_eng, hd]
  rfl

/-- The first byte starts a match (42_compress.md R171). -/
theorem compressByte_first {c : Byte} {s : State} (hv : s.eng.curValid = false) :
    compressByte c s = { s with eng.cur := c.setWidth 16, eng.curValid := true } := by
  rw [compressByte, if_neg (by simp [hv]), BitVec.ofNat_toNat]

/-- On a hit the match goes on with the entry's code (42_compress.md R171). -/
theorem compressByte_hit {c : Byte} {s : State} {k : Code} (hv : s.eng.curValid = true)
    (hk : encLookup s.eng.cur c s = some k) : compressByte c s = { s with eng.cur := k } := by
  rw [compressByte, if_pos hv, hk]

theorem compressByte_miss {c : Byte} {s : State} (hv : s.eng.curValid = true)
    (hk : encLookup s.eng.cur c s = none) : compressByte c s = compressMiss c s := by
  rw [compressByte, if_pos hv, hk]

/-- A miss with room inserts, writes the match and starts again at the byte (42_compress.md R171, R172). -/
theorem compressMiss_insert {c : Byte} {s : State} (hr : s.eng.nextCode.toNat ≤ s.eng.aMc.toNat) :
    compressMiss c s =
      { csWrite s.eng.cur (encInsertNext s.eng.cur c s) with eng.cur := c.setWidth 16 } := by
  rw [compressMiss, if_pos (State.hasRoom_iff.mpr hr), BitVec.ofNat_toNat]

/-- A miss with a full dictionary does the same without the insert (42_compress.md R171, R172). -/
theorem compressMiss_full {c : Byte} {s : State} (hr : s.eng.aMc.toNat < s.eng.nextCode.toNat) :
    compressMiss c s = { csWrite s.eng.cur s with eng.cur := c.setWidth 16 } := by
  rw [compressMiss, if_neg (by rw [State.hasRoom_iff]; omega), BitVec.ofNat_toNat]

/-- The insert in the words of the registers: the entry is written at the 16 bits of `next_code`, which counts up
(44_dictionary_tables.md R209). -/
theorem encInsertNext_eq (p : Code) (c : Byte) (s : State) :
    encInsertNext p c s =
      { s with
        tabs.enc := Memory.write s.tabs.enc (encKey p c) (s.eng.nextCode.setWidth 16)
        eng.nextCode := s.eng.nextCode + 1 } := by
  rw [encInsertNext, BitVec.ofNat_add, BitVec.ofNat_toNat, BitVec.ofNat_toNat, BitVec.setWidth_eq]
  rfl

/-- A code written with nothing pushed before it leaves its bytes alone in the output buffer (41_code_stream.md
R131). -/
theorem csWrite_of_obuf_nil {s : State} (ho : s.eng.obuf = []) (k : Code) :
    csWrite k s =
      { s with
        regs.codeCount := s.regs.codeCount + 1
        cs := (writeCode s.eng.aStrat s.eng.aMc k s.cs).2
        eng.obuf := (writeCode s.eng.aStrat s.eng.aMc k s.cs).1.map .byte } := by
  rw [csWrite, outPushAll, countCode_eng, ho, List.nil_append]
  rfl

/-- Settles O33: the step is COMPRESS.BYTE on the counted byte, one arm per clause. -/
theorem stepCompressesByte : Obligations.StepCompressesByte := by
  unfold Obligations.StepCompressesByte
  intro s c rest hc hd hi u w v
  have ⟨_, _, _, _, ho⟩ := hc
  have hbyte : step s = .next (compressByte c u) := step_consumeCompress hc hd hi
  rw [hbyte]
  refine ⟨fun hv => ?_, fun k hv hk => ?_, fun hv hk hr => ?_, fun hv hk hr => ?_⟩
  · rw [compressByte_first (s := u) hv]
  · rw [compressByte_hit (s := u) hv hk]
  · rw [compressByte_miss (s := u) hv hk, compressMiss_insert (s := u) hr,
      csWrite_of_obuf_nil (s := encInsertNext u.eng.cur c u) ho, encInsertNext_eq]
    rfl
  · rw [compressByte_miss (s := u) hv hk, compressMiss_full (s := u) hr, csWrite_of_obuf_nil (s := u) ho]

/-! ### End and Error of a compress operation -/

/-- Finalisation and the stop, after the bytes `q`: the EOF code, counted, then the flush, then End (41_code_stream.md
R146; 42_compress.md R173, R174). -/
theorem raiseStop_csFinalize {s : State} {q : List Byte} (ho : s.eng.obuf = q.map .byte) (r : Reason) :
    raiseStop r 0 (csFinalize s) =
      let e := writeCode s.eng.aStrat s.eng.aMc 256 s.cs
      let f := flushFor s.eng.aStrat e.2
      { s with
        regs.codeCount := s.regs.codeCount + 1
        regs.reason := r
        regs.errInfo := 0
        cs := f.2
        eng.obuf := (q ++ e.1 ++ f.1).map .byte ++ [.endMark]
        eng.phase := .drain } := by
  dsimp only
  rw [List.map_append, List.map_append, ← ho]
  rfl

theorem compressEnd_pending {s : State} (hv : s.eng.curValid = true) :
    compressEnd s = raiseStop .inEnd 0 (csFinalize (csWrite s.eng.cur s)) := by
  rw [compressEnd, if_pos hv]

theorem compressEnd_empty {s : State} (hv : s.eng.curValid = false) :
    compressEnd s = raiseStop .inEnd 0 (csFinalize s) := by
  rw [compressEnd, if_neg (by simp [hv])]

/-- Settles O34: End with a pending match writes it before the finalisation; End without one, and Error, finalise with
nothing written before. -/
theorem stepFinalisesCompress : Obligations.StepFinalisesCompress := by
  unfold Obligations.StepFinalisesCompress
  intro s b rest hc hd hi hb
  have ⟨_, _, _, _, ho⟩ := hc
  let u := { s with env.script := s.env.script.tail, env.inq := rest }
  have hbeat : step s = .next (consumeCompress b u) := step_consumeCompress hc hd hi
  rw [hbeat]
  rcases hb with rfl | rfl
  · rw [consumeCompress]
    cases hv : s.eng.curValid with
    | true =>
      rw [compressEnd_pending (s := u) hv, csWrite_of_obuf_nil (s := u) ho, raiseStop_csFinalize rfl, BitVec.add_assoc]
      rfl
    | false =>
      rw [compressEnd_empty (s := u) hv, raiseStop_csFinalize (s := u) (q := []) ho]
      rfl
  · exact congrArg _ (raiseStop_csFinalize (s := u) (q := []) ho .inError)

end Sys2Proof.Machine
end

section
/-! PROOFS. What each class of a received code does to the whole state, and what every class leaves alone
(43_decompress.md R187 to R192; 41_code_stream.md R133). -/

namespace Sys2Proof.Machine

open Sys2Proof

/-! ### The dictionary write and DECODE in the words of the registers -/

/-- The write of DECODE: the entry stands at `next_code`, which counts up (44_dictionary_tables.md R216). -/
theorem decWriteNext_eq (p : Code) (c : Byte) (s : State) :
    decWriteNext p c s =
      { s with
        tabs.dec := Memory.write s.tabs.dec s.eng.nextCode.toNat (p, c)
        eng.nextCode := s.eng.nextCode + 1 } := by
  rw [decWriteNext, BitVec.ofNat_add, BitVec.ofNat_toNat, BitVec.setWidth_eq]
  rfl

/-- DECODE inserts exactly with a previous string and room (43_decompress.md R189). -/
theorem decodeInsert_eq_ite (first : Byte) (s : State) :
    decodeInsert first s =
      if s.eng.prevValid = true ∧ s.eng.nextCode.toNat ≤ s.eng.aMc.toNat then decWriteNext s.eng.prev first s
      else s := by
  simp only [decodeInsert, Bool.and_eq_true, State.hasRoom_iff]

theorem decodeInsert_of_room {s : State} (first : Byte) (hv : s.eng.prevValid = true)
    (hr : s.eng.nextCode.toNat ≤ s.eng.aMc.toNat) : decodeInsert first s = decWriteNext s.eng.prev first s := by
  rw [decodeInsert_eq_ite, if_pos ⟨hv, hr⟩]

/-- Emit, insert and update, with and without the insert (43_decompress.md R188 to R190). -/
theorem acceptCode_eq (k : Code) (first : Byte) (rest : List Byte) (s : State) :
    acceptCode k first rest s =
      let u := { s with
        eng.obuf := s.eng.obuf ++ (first :: rest).map .byte, eng.prev := k, eng.prevFirst := first,
        eng.prevValid := true }
      if s.eng.prevValid = true ∧ s.eng.nextCode.toNat ≤ s.eng.aMc.toNat then
        { u with
          eng.nextCode := s.eng.nextCode + 1
          tabs.dec := Memory.write s.tabs.dec s.eng.nextCode.toNat (s.eng.prev, first) }
      else u := by
  rw [acceptCode, decodeInsert_eq_ite]
  split_ifs with h h' h'
  · rw [decWriteNext_eq]
    rfl
  · exact absurd h h'
  · exact absurd h' h
  · rfl

/-! ### The classes whose string is known -/

/-- DICT of a code whose walk finds a string (43_decompress.md R187). -/
theorem execDict_found {k : Code} {s : State} {first : Byte} {rest : List Byte}
    (h : decodeString k s = .found (first :: rest)) :
    exec (.dict k) s = .next (acceptCode k first rest (stackPopped s)) := by
  simp only [exec, execDict, resolve, h]

/-- KWKWK when the walk of the previous code finds a string (43_decompress.md R191). -/
theorem execKwkwk_found {k : Code} {s : State} {bs : List Byte} (h : decodeString s.eng.prev s = .found bs) :
    exec (.kwkwk k) s = .next (setPrevious k s.eng.prevFirst
      (decodeInsert s.eng.prevFirst (outPushAll (bs ++ [s.eng.prevFirst]) (stackPopped s)))) := by
  simp only [exec, execKwkwk, h]

/-- Settles O27: a literal is accepted as a string of one byte. -/
theorem literalCode : Obligations.LiteralCode := by
  unfold Obligations.LiteralCode
  intro b s u
  rw [exec, execLit, acceptCode_eq, BitVec.ofNat_toNat]
  rfl

/-- Settles O28: a defined code's walk finds its string, which is accepted once the stack is popped. -/
theorem dictionaryCode : Obligations.DictionaryCode := by
  unfold Obligations.DictionaryCode
  intro k s hdef h257 hlt
  obtain ⟨first, rest, hd, -⟩ := decodeString_found s hdef k hlt (by omega)
  refine ⟨first, rest, decodeString_strOf hd, ?_⟩
  intro u
  rw [execDict_found hd, acceptCode_eq]
  rfl

/-- Settles O29: the walk finds the string of `prev`; the insert has room, and its entry spells what is emitted. -/
theorem kwkwkCode : Obligations.KwkwkCode := by
  unfold Obligations.KwkwkCode
  intro k s hdef hv hlt h256 h257 hk hr
  obtain ⟨b, bs, hd, -⟩ := decodeString_found s hdef s.eng.prev hlt h256
  have hstr : StrOf s.tabs.dec s.eng.prev (b :: bs) := decodeString_strOf hd
  refine ⟨b :: bs, hstr, fun hi => ?_, hstr.written hdef s.eng.prevFirst hk (by omega) hlt, ?_⟩
  · obtain ⟨rest, hrest⟩ := hi.prevFirst hv
    exact ⟨rest, hstr.unique hrest⟩
  · have hins := decodeInsert_of_room
      (s := outPushAll (b :: bs ++ [s.eng.prevFirst]) (stackPopped s)) s.eng.prevFirst hv hr
    rw [execKwkwk_found hd, hins, decWriteNext_eq]
    simp [setPrevious, outPushAll, stackPopped, hv]

/-- Settles O30: each arm is the shared stop with its own reason and detail. -/
theorem badAndEofCodesStop : Obligations.BadAndEofCodesStop := by
  unfold Obligations.BadAndEofCodesStop
  intro s
  refine ⟨fun k => ?_, rfl⟩
  rw [exec, execBad, BitVec.ofNat_toNat]
  rfl

/-! ### What every class leaves alone -/

/-- What a code class can answer, whatever the state it is run in: a stop, or a string pushed with the insert and the
update after it; DICT and KWKWK pop the decode stack before (43_decompress.md R187, R192; 41_code_stream.md R133). -/
inductive ClassMove (s : State) : State → Prop where
  | stop (r : Reason) (info : Word) : ClassMove s (raiseStop r info s)
  | string (k : Code) (first : Byte) (bs stack : List Byte) :
      ClassMove s (setPrevious k first (decodeInsert first (outPushAll bs { s with tabs.stack := stack })))

/-- A code class answers a next state only by one of the two (43_decompress.md R187). -/
theorem exec_classMove {i : Instr} (hf : i.format = .code16) {s t : State} (h : exec i s = .next t) :
    ClassMove s t := by
  cases i with
  | lit b =>
    obtain rfl := Host.Outcome.next.inj h
    exact .string _ b [b] s.tabs.stack
  | eof =>
    obtain rfl := Host.Outcome.next.inj h
    exact .stop _ _
  | dict k =>
    rw [exec, execDict] at h
    split at h
    next first rest _ =>
      obtain rfl := Host.Outcome.next.inj h
      exact .string k first (first :: rest) []
    next => cases h
    next => cases h
  | kwkwk k =>
    rw [exec, execKwkwk] at h
    split at h
    next bs _ =>
      obtain rfl := Host.Outcome.next.inj h
      exact .string k s.eng.prevFirst (bs ++ [s.eng.prevFirst]) []
    next => cases h
    next => cases h
  | bad k =>
    obtain rfl := Host.Outcome.next.inj h
    exact .stop _ _
  | nop | startCText | startDText | startCF16 | startDF16 | startCFw | startDFw | startCAd | startDAd | abort | clear
  | reserved w => cases hf

/-- The insert touches `DEC` at `next_code` alone, and only as it counts `next_code` up (43_decompress.md R189). -/
theorem decodeInsert_dec (first : Byte) (s : State) :
    (∀ j, j ≠ s.eng.nextCode.toNat →
      Memory.read (decodeInsert first s).tabs.dec j = Memory.read s.tabs.dec j) ∧
    ((decodeInsert first s).eng.nextCode = s.eng.nextCode → (decodeInsert first s).tabs.dec = s.tabs.dec) := by
  rcases decodeInsert_cases first s with ⟨-, hr, e⟩ | e <;> rw [e]
  · refine ⟨fun j hj => Memory.read_write_other _ _ _ _ hj, fun hn => ?_⟩
    have hsucc := nextCode_succ_toNat hr
    rw [← decWriteNext_nextCode s.eng.prev first s, hn] at hsucc
    omega
  · exact ⟨fun _ _ => rfl, fun _ => rfl⟩

/-- The insert writes nothing but `next_code` and `DEC` (43_decompress.md R189). -/
theorem decodeInsert_writes (first : Byte) (s : State) :
    ∃ n dec, decodeInsert first s = { s with eng.nextCode := n, tabs.dec := dec } := by
  rcases decodeInsert_cases first s with ⟨-, -, e⟩ | e <;> rw [e]
  · exact ⟨_, _, rfl⟩
  · exact ⟨s.eng.nextCode, s.tabs.dec, rfl⟩

/-- Settles O31: a stop writes the report alone; a string goes behind the output, and the insert does the rest. -/
theorem codeFrames : Obligations.CodeFrames := by
  unfold Obligations.CodeFrames
  intro i s t hf h
  cases exec_classMove hf h with
  | stop r info => exact ⟨rfl, rfl, rfl, rfl, rfl, rfl, rfl, rfl, rfl, ⟨_, rfl⟩, rfl, fun _ _ => rfl, fun _ => rfl⟩
  | string k first bs stack =>
    obtain ⟨hread, hkeep⟩ := decodeInsert_dec first (outPushAll bs { s with tabs.stack := stack })
    obtain ⟨n, dec, e⟩ := decodeInsert_writes first (outPushAll bs { s with tabs.stack := stack })
    rw [e] at hread hkeep ⊢
    exact ⟨rfl, rfl, rfl, rfl, rfl, rfl, rfl, rfl, rfl, ⟨_, rfl⟩, rfl, hread, hkeep⟩

end Sys2Proof.Machine
end

section
/-! SUPPORT. Runs of a block that nobody disturbs: the output buffer drains to a sink that accepts, a stop completes,
and a consuming step is followed by the drain of what it pushed (20_memory.md R67, R68; 60_exceptions.md R250). -/

namespace Sys2Proof.Machine

open Sys2Proof

/-! ### Some number of steps -/

/-- Some number of steps takes `s` to `t`. -/
def Reaches (s t : State) : Prop := ∃ n, Host.Core.run Sys2Proof.core n s = .next t

theorem Reaches.refl (s : State) : Reaches s s := ⟨0, rfl⟩

theorem Reaches.head {s t u : State} (h : step s = .next t) (g : Reaches t u) : Reaches s u := by
  obtain ⟨n, hn⟩ := g
  exact ⟨n + 1, (run_succ_of_step h n).trans hn⟩

/-- A run of `n + 1` steps starts with a step. -/
theorem step_of_run_succ {s u : State} {n : Nat} (h : Host.Core.run Sys2Proof.core (n + 1) s = .next u) :
    ∃ t, step s = .next t ∧ Host.Core.run Sys2Proof.core n t = .next u := by
  cases hs : step s with
  | next t => exact ⟨t, rfl, (run_succ_of_step hs n).symm.trans h⟩
  | fault r =>
    have hc : Host.Core.step Sys2Proof.core s = .fault r := hs
    simp [Host.Core.run, hc] at h
  | refused r =>
    have hc : Host.Core.step Sys2Proof.core s = .refused r := hs
    simp [Host.Core.run, hc] at h

/-- What every step keeps, every run keeps. -/
theorem Reaches.keeps {P : State → Prop} (hstep : ∀ s t, P s → step s = .next t → P t) {s t : State}
    (h : Reaches s t) (hs : P s) : P t := by
  obtain ⟨n, hn⟩ := h
  induction n generalizing s with
  | zero => exact Host.Outcome.next.inj hn ▸ hs
  | succ n ih =>
    obtain ⟨s', hs', hn'⟩ := step_of_run_succ hn
    exact ih (hstep s s' hs hs') hn'

theorem Reaches.trans {s t u : State} (h : Reaches s t) (g : Reaches t u) : Reaches s u := by
  obtain ⟨n, hn⟩ := h
  induction n generalizing s with
  | zero => exact Host.Outcome.next.inj hn ▸ g
  | succ n ih =>
    obtain ⟨s', hs', hn'⟩ := step_of_run_succ hn
    exact .head hs' (ih hn')

/-! ### Nothing but the engine moves -/

/-- Out of reset, with no move of the host pending and a sink that accepts: every step is the engine's. -/
structure Undisturbed (s : State) : Prop where
  legal : s.cfg.legal = true
  rstN : s.env.rstN = true
  outReady : s.env.outReady = true
  script : s.env.script = []

theorem popTurn_of_nil {s : State} (h : s.env.script = []) : s.popTurn = s := by
  unfold State.popTurn
  rw [h, List.tail_nil, ← h]

theorem Undisturbed.engineNext {s : State} (h : Undisturbed s) : s.engineNext = true := by
  rw [State.engineNext, h.script]

/-- The engine changes only the two streams of the environment. -/
theorem Undisturbed.of_env {s t : State} (h : Undisturbed s) (hc : t.cfg = s.cfg) {q : List Beat} {d : List OutBeat}
    (he : t.env = { s.env with inq := q, delivered := d }) : Undisturbed t :=
  ⟨hc ▸ h.legal, by rw [he]; exact h.rstN, by rw [he]; exact h.outReady, by rw [he]; exact h.script⟩

theorem Undisturbed.step_drain {s : State} (h : Undisturbed s) {b : OutBeat} {rest : List OutBeat}
    (ho : s.eng.obuf = b :: rest) : step s = .next (drainBeat b rest s) := by
  rw [step_of_nil h.legal h.script, popTurn_of_nil h.script]
  exact engineStep_drain h.rstN h.outReady ho

/-- The data bytes at the head of the output buffer are delivered, one a step; of the rest of the state only BYTES_OUT
changes (20_memory.md R67). -/
theorem Undisturbed.drains {s : State} (h : Undisturbed s) {bs : List Byte} {tail : List OutBeat}
    (ho : s.eng.obuf = bs.map .byte ++ tail) :
    ∃ n : Word, Reaches s
      { s with eng.obuf := tail, env.delivered := s.env.delivered ++ bs.map .byte, regs.bytesOut := n } := by
  induction bs generalizing s with
  | nil =>
    refine ⟨s.regs.bytesOut, ?_⟩
    obtain rfl : s.eng.obuf = tail := ho
    rw [List.map_nil, List.append_nil]
    exact .refl s
  | cons b bs ih =>
    have hstep := h.step_drain ho
    have hnext : Undisturbed (drainBeat (.byte b) (bs.map .byte ++ tail) s) := ⟨h.legal, h.rstN, h.outReady, h.script⟩
    obtain ⟨n, hn⟩ := ih hnext rfl
    refine ⟨n, ?_⟩
    have hr := Reaches.head hstep hn
    simpa [drainBeat] using hr

/-! ### Completion -/

/-- The operation of `s` completes without an error, for the reason `r`, once the bytes `out` and End are delivered. -/
def Delivers (s : State) (r : Reason) (out : List Byte) : Prop :=
  ∃ t, Reaches s t ∧ t.regs.done = true ∧ t.regs.err = false ∧ t.regs.reason = r ∧
    t.env.delivered = s.env.delivered ++ sinkOf out

/-- What is delivered on the way comes before what is delivered after it. -/
theorem Delivers.of_reaches {s t : State} {r : Reason} {w out : List Byte} (h : Reaches s t)
    (hd : t.env.delivered = s.env.delivered ++ w.map .byte) (g : Delivers t r out) : Delivers s r (w ++ out) := by
  obtain ⟨v, hv, hdone, herr, hreason, hdel⟩ := g
  refine ⟨v, h.trans hv, hdone, herr, hreason, ?_⟩
  rw [hdel, hd, sinkOf, sinkOf, List.map_append, List.append_assoc, List.append_assoc]

/-- Steps that deliver nothing come before what is delivered after them. -/
theorem Delivers.of_silent {s t : State} {r : Reason} {out : List Byte} (h : Reaches s t)
    (hd : t.env.delivered = s.env.delivered) (g : Delivers t r out) : Delivers s r out :=
  .of_reaches (w := []) h (hd.trans (List.append_nil _).symm) g

/-- A stop without an error completes once what it left in the output buffer is delivered (60_exceptions.md R246,
R250). -/
theorem Undisturbed.delivers {s : State} (h : Undisturbed s) {out : List Byte} (hr : s.regs.reason.isErr = false)
    (ho : s.eng.obuf = out.map .byte ++ [.endMark]) : Delivers s s.regs.reason out := by
  obtain ⟨n, hn⟩ := h.drains ho
  have hend : Undisturbed { s with
      eng.obuf := [.endMark], env.delivered := s.env.delivered ++ out.map .byte, regs.bytesOut := n } :=
    ⟨h.legal, h.rstN, h.outReady, h.script⟩
  exact ⟨_, hn.trans (.head (hend.step_drain rfl) (.refl _)), rfl, hr, rfl, List.append_assoc _ _ _⟩

/-! ### A consuming step and its drain -/

/-- What every step of an operation keeps (10_state.md R53; 41_code_stream.md R148, R149). -/
structure OperationInv (s : State) : Prop where
  engine : EngineInv s
  session : SessionInv s
  fit : FitInv s

theorem OperationInv.of_idle {s : State} (h : s.eng.phase = .idle) : OperationInv s :=
  ⟨.of_idle h, .of_idle h, .of_idle h⟩

theorem OperationInv.step {s t : State} (h : OperationInv s) (hs : step s = .next t) : OperationInv t := by
  have hkept := sessionInvariantKept s t h.engine hs
  exact ⟨dictionaryInvariantKept s t h.engine hs, hkept.1 h.session, hkept.2 h.fit⟩

/-- A running operation of the direction `d`, the strategy `st` and the `max_code` `mc`, with nothing left to drain and
the beats `q` before it (20_memory.md R68). -/
structure Consuming (d : Dir) (st : Strategy) (mc : Code) (s : State) (q : List Beat) : Prop where
  undisturbed : Undisturbed s
  aDir : s.eng.aDir = d
  aStrat : s.eng.aStrat = st
  aMc : s.eng.aMc = mc
  phase : s.eng.phase = .run
  obuf : s.eng.obuf = []
  inq : s.env.inq = q
  inv : OperationInv s

section Consuming

variable {d : Dir} {st : Strategy} {mc : Code} {s t : State} {b : Beat} {q : List Beat}

theorem Consuming.busy (h : Consuming d st mc s q) : s.eng.phase ≠ .idle := by
  rw [h.phase]
  decide

theorem Consuming.fixedw (h : Consuming d st mc s q) (hst : st = .fixedw) : 256 ≤ mc.toNat :=
  h.aMc ▸ h.inv.engine.fixedw h.busy (h.aStrat.trans hst)

theorem Consuming.session (h : Consuming d st mc s q) : SessionOk d st mc s.cs := by
  have hs := h.inv.session h.busy
  rwa [h.aDir, h.aStrat, h.aMc] at hs

/-- The engine takes the first beat (20_memory.md R68). -/
theorem Consuming.step_eq (h : Consuming d st mc s (b :: q)) : step s = runFetch (consumeBeat b q s) := by
  have hc : s.canConsume := ⟨h.undisturbed.legal, h.undisturbed.engineNext, h.undisturbed.rstN, h.phase, h.obuf⟩
  rw [step_consumeBeat hc h.inq, popTurn_of_nil h.undisturbed.script]

/-- A consuming step that does not stop, and the drain of the bytes it pushed, leave the next beat to be consumed. -/
theorem Consuming.round (h : Consuming d st mc s (b :: q)) (hs : step s = .next t)
    (f : OpFrame { s with env.inq := q } t) (hp : t.eng.phase = .run) {w : List Byte} (ho : t.eng.obuf = w.map .byte) :
    ∃ v, Reaches s v ∧ Consuming d st mc v q ∧ v.env.delivered = s.env.delivered ++ w.map .byte ∧
      v.dictionary = t.dictionary ∧ v.cs = t.cs := by
  have ht : Undisturbed t := h.undisturbed.of_env f.cfg f.env
  obtain ⟨n, hn⟩ := ht.drains (tail := []) (by rw [ho, List.append_nil])
  have hr := Reaches.head hs hn
  refine ⟨_, hr, ⟨ht.of_env rfl rfl, f.aDir.trans h.aDir, f.aStrat.trans h.aStrat, f.aMc.trans h.aMc, hp, rfl,
    by rw [f.env], hr.keeps (fun _ _ => OperationInv.step) h.inv⟩, ?_, rfl, rfl⟩
  rw [f.env]

/-- The same, for a step that pushes nothing. -/
theorem Consuming.silent_round (h : Consuming d st mc s (b :: q)) (hs : step s = .next t)
    (f : OpFrame { s with env.inq := q } t) (hp : t.eng.phase = .run) (ho : t.eng.obuf = []) :
    ∃ v, Reaches s v ∧ Consuming d st mc v q ∧ v.env.delivered = s.env.delivered ∧
      v.dictionary = t.dictionary ∧ v.cs = t.cs := by
  obtain ⟨v, hreach, hcons, hdel, hrest⟩ := h.round hs f hp (w := []) ho
  exact ⟨v, hreach, hcons, hdel.trans (List.append_nil _), hrest⟩

/-- An accepted START on a ready machine begins the operation with the beats that wait (45_host_commands.md R229). -/
theorem consuming_start (hr : s.ready) (hl : startLegal s.cfg st s.regs.maxCode = true) (ho : s.env.outReady = true)
    (hs : s.env.script = [commandWrite (Instr.start d st)]) :
    Consuming d st (BitVec.ofNat 16 s.regs.maxCode.toNat)
      (startOperation d st s.regs.maxCode (startReport d st s.popTurn)) s.env.inq := by
  have hinv := (OperationInv.of_idle hr.2.2.1).step (step_start hr hl hs)
  obtain ⟨hlegal, hrst, -, hobuf⟩ := hr
  exact ⟨⟨hlegal, hrst, ho, congrArg List.tail hs⟩, rfl, rfl, rfl, rfl, hobuf, rfl, hinv⟩

end Consuming

end Sys2Proof.Machine
end

section
/-! SUPPORT. The two dictionaries of a round trip: a decompress operation that is told the first byte of the pending
match holds the dictionary of the compress operation (42_compress.md R177, R180; 43_decompress.md R187 to R191). -/

namespace Sys2Proof.Machine

open Sys2Proof

/-! ### DECODE of a code whose string is known -/

/-- The insert looks at the dictionary alone. -/
theorem decodeInsert_dictionary (first : Byte) (s : State) :
    (decodeInsert first s).dictionary = decodeInsert first s.dictionary :=
  apply_ite State.dictionary _ _ _

theorem acceptCode_dictionary (k : Code) (first : Byte) (rest : List Byte) (s : State) :
    (acceptCode k first rest s).dictionary = (setPrevious k first (decodeInsert first s)).dictionary := by
  have h := (decodeInsert_dictionary first (symWrite first rest s)).trans (decodeInsert_dictionary first s).symm
  exact congrArg (setPrevious k first) h

theorem acceptCode_obuf (k : Code) (first : Byte) (rest : List Byte) (s : State) :
    (acceptCode k first rest s).eng.obuf = s.eng.obuf ++ (first :: rest).map .byte := by
  obtain ⟨n, dec, e⟩ := decodeInsert_writes first (symWrite first rest s)
  rw [acceptCode, e]
  rfl

theorem acceptCode_cs (k : Code) (first : Byte) (rest : List Byte) (s : State) :
    (acceptCode k first rest s).cs = s.cs :=
  decodeInsert_cs first (symWrite first rest s)

/-- A code is accepted with its string when the string stands in the dictionary after the insert that the string's
first byte makes. For a KWKWK code the entry of that insert is the code's own (43_decompress.md R187, R191). -/
theorem exec_classify_accept {u : State} (h : DecInv u) (hn : 257 ≤ u.eng.nextCode.toNat) {k : Code} {first : Byte}
    {rest : List Byte} (hk : k.toNat < (decodeInsert first u).eng.nextCode.toNat) (h256 : k.toNat ≠ 256)
    (hs : StrOf (decodeInsert first u).tabs.dec k (first :: rest)) :
    ∃ stack, exec (classify u.codeCtx k) u = .next (acceptCode k first rest { u with tabs.stack := stack }) := by
  by_cases hlit : k.toNat ≤ 255
  · have hb : (BitVec.ofNat 8 k.toNat).toNat = k.toNat := by
      rw [BitVec.toNat_ofNat]
      omega
    obtain ⟨rfl, rfl⟩ := List.cons.inj (hs.unique (.literal k (BitVec.ofNat 8 k.toNat) hb.symm))
    refine ⟨u.tabs.stack, ?_⟩
    rw [classify, if_pos hlit, exec, execLit, hb, BitVec.ofNat_toNat, BitVec.setWidth_eq]
  refine ⟨[], ?_⟩
  rw [classify_of_257_le _ (by omega)]
  split_ifs with hdict hkw
  · obtain ⟨b, bs, hd, -⟩ := decodeString_found u h.entry k hdict h256
    obtain ⟨rfl, rfl⟩ := List.cons.inj (hs.unique (h.decodeInsert_strOf first (decodeString_strOf hd) hdict))
    exact execDict_found hd
  · obtain ⟨hkn, hv, hm⟩ := isKwkwk_iff.mp hkw
    obtain ⟨hprev, hprev256⟩ := h.prev hv
    obtain ⟨b, bs, hd, -⟩ := decodeString_found u h.entry u.eng.prev hprev hprev256
    have hstr : StrOf u.tabs.dec u.eng.prev (b :: bs) := decodeString_strOf hd
    obtain ⟨rest', hfirst⟩ := h.prevFirst hv
    obtain ⟨rfl, rfl⟩ := List.cons.inj (hstr.unique hfirst)
    rw [decodeInsert_of_room first hv hm] at hs
    obtain ⟨rfl, rfl⟩ := List.cons.inj (hs.unique (hstr.written h.entry first hkn hn hprev))
    exact execKwkwk_found hd
  · -- the insert was made, so there is a previous string and room, and `k` is `next_code`
    exfalso
    have hle : u.eng.nextCode.toNat ≤ k.toNat := by simpa [State.codeCtx] using hdict
    rcases decodeInsert_cases first u with ⟨hv, hm, e⟩ | e <;> rw [e] at hk
    · rw [decWriteNext_nextCode, nextCode_succ_toNat hm] at hk
      exact hkw (isKwkwk_iff.mpr ⟨show k.toNat = u.eng.nextCode.toNat by omega, hv, hm⟩)
    · omega

/-! ### Codes that spell bytes -/

/-- From the dictionary of `d` the codes spell the bytes and end with EOF: the string of each code stands in the
dictionary after the insert that the string's first byte makes (43_decompress.md R187). -/
inductive Spells : State → List Code → List Byte → Prop where
  | eof (d : State) : Spells d [eofCode] []
  | code (d : State) (k : Code) (first : Byte) (rest : List Byte) (ks : List Code) (out : List Byte)
      (hk : k.toNat < (decodeInsert first d).eng.nextCode.toNat) (h256 : k.toNat ≠ 256)
      (hs : StrOf (decodeInsert first d).tabs.dec k (first :: rest))
      (ht : Spells (setPrevious k first (decodeInsert first d)) ks out) : Spells d (k :: ks) (first :: rest ++ out)

/-- What codes spell depends on the dictionary alone. -/
theorem Spells.of_dictionary {d : State} {ks : List Code} {out : List Byte} (h : Spells d ks out) :
    ∀ {d' : State}, d'.dictionary = d.dictionary → Spells d' ks out := by
  induction h with
  | eof d => exact fun _ => .eof _
  | code d k first rest ks out hk h256 hs ht ih =>
    intro d' e
    have hins : (decodeInsert first d').dictionary = (decodeInsert first d).dictionary := by
      rw [decodeInsert_dictionary, decodeInsert_dictionary, e]
    have hnext : (decodeInsert first d').eng.nextCode = (decodeInsert first d).eng.nextCode :=
      congrArg (·.eng.nextCode) hins
    have hdec : (decodeInsert first d').tabs.dec = (decodeInsert first d).tabs.dec := congrArg (·.tabs.dec) hins
    exact .code d' k first rest ks out (hnext ▸ hk) h256 (hdec ▸ hs) (ih (congrArg (setPrevious k first) hins))

/-! ### The dictionaries in step -/

/-- The pending match of the compress operation `s` stands for `first :: rest`, and the decompress operation `d` has run
every code that `s` has written: with the insert that `first` makes, its dictionary is that of `s` (42_compress.md
R177; 43_decompress.md R189). -/
structure InStep (s d : State) (first : Byte) (rest : List Byte) : Prop where
  dec : DecInv d
  start : 257 ≤ d.eng.nextCode.toNat
  maxCode : d.eng.aMc = s.eng.aMc
  next : (decodeInsert first d).eng.nextCode = s.eng.nextCode
  entries : ∀ p c k, encLookup p c s = some k → Memory.read (decodeInsert first d).tabs.dec k.toNat = some (p, c)
  str : StrOf (decodeInsert first d).tabs.dec s.eng.cur (first :: rest)

section InStep

variable {s t d : State} {first : Byte} {rest : List Byte}

/-- Of the compress operation only its dictionary matters. -/
theorem InStep.of_dictionary (h : InStep s d first rest) (e : t.dictionary = s.dictionary) : InStep t d first rest := by
  have hs : InStep s.dictionary d first rest := ⟨h.dec, h.start, h.maxCode, h.next, h.entries, h.str⟩
  rw [← e] at hs
  exact ⟨hs.dec, hs.start, hs.maxCode, hs.next, hs.entries, hs.str⟩

/-- The first byte starts a match, from two fresh dictionaries (42_compress.md R171). -/
theorem InStep.firstByte (he : EncInv s) (hn : s.eng.nextCode.toNat = 257) (hd : DecInv d)
    (hv : d.eng.prevValid = false) (hm : d.eng.aMc = s.eng.aMc) {c : Byte} :
    InStep { s with eng.cur := BitVec.ofNat 16 c.toNat, eng.curValid := true } d c [] := by
  have hins : decodeInsert c d = d := by
    rw [decodeInsert_eq_ite, if_neg (by simp [hv])]
  have hdn := hd.first hv
  refine ⟨hd, hdn.ge, hm, ?_, fun p c' k hk => ?_, .literal _ c ?_⟩
  · rw [hins]
    exact BitVec.eq_of_toNat_eq (hdn.trans hn.symm)
  · obtain ⟨h1, h2, -⟩ := he.entry p c' k hk
    omega
  · rw [BitVec.toNat_ofNat]
    omega

/-- A hit extends the match by an entry that both dictionaries hold (42_compress.md R171). -/
theorem InStep.hit (h : InStep s d first rest) (he : EncInv s) {c : Byte} {k : Code}
    (hk : encLookup s.eng.cur c s = some k) : InStep { s with eng.cur := k } d first (rest ++ [c]) :=
  ⟨h.dec, h.start, h.maxCode, h.next, h.entries,
    .entry k s.eng.cur c (first :: rest) (he.entry _ _ _ hk).1 (h.entries _ _ _ hk) h.str⟩

/-- The written code is defined in the decompress dictionary (42_compress.md R178). -/
theorem InStep.cur_lt (h : InStep s d first rest) (he : EncInv s) (hv : s.eng.curValid = true) :
    s.eng.cur.toNat < (decodeInsert first d).eng.nextCode.toNat ∧ s.eng.cur.toNat ≠ 256 := by
  rw [h.next]
  exact he.cur hv

/-- Once the written match is run, its code is the previous one, and the decompress dictionary is in order. -/
theorem InStep.dec_accepted (h : InStep s d first rest) (he : EncInv s) (hv : s.eng.curValid = true) :
    DecInv (setPrevious s.eng.cur first (decodeInsert first d)) :=
  h.dec.setPrevious h.start (h.cur_lt he hv).1 (h.cur_lt he hv).2 h.str

/-- A miss with a full dictionary writes the match, and neither side inserts (42_compress.md R172; 43_decompress.md
R189). -/
theorem InStep.full (h : InStep s d first rest) (he : EncInv s) (hv : s.eng.curValid = true)
    (hr : s.eng.aMc.toNat < s.eng.nextCode.toNat) {c : Byte} :
    InStep { s with eng.cur := BitVec.ofNat 16 c.toNat }
      (setPrevious s.eng.cur first (decodeInsert first d)) c [] := by
  have hmc : (decodeInsert first d).eng.aMc = s.eng.aMc := (decodeInsert_frame first d).aMc.trans h.maxCode
  have hins : decodeInsert c (setPrevious s.eng.cur first (decodeInsert first d)) =
      setPrevious s.eng.cur first (decodeInsert first d) := by
    rw [decodeInsert_eq_ite, if_neg]
    rintro ⟨-, hroom⟩
    rw [setPrevious_nextCode, setPrevious_aMc, h.next, hmc] at hroom
    omega
  refine ⟨h.dec_accepted he hv, h.start.trans (decodeInsert_nextCode first d).1, hmc, ?_, ?_, .literal _ c ?_⟩
  · rw [hins]
    exact h.next
  · rw [hins]
    exact h.entries
  · rw [BitVec.toNat_ofNat]
    omega

/-- A miss with room writes the match; the entry that the compress side inserts is the one that the decompress side is
to insert when it is told the first byte of the next match (42_compress.md R171; 43_decompress.md R189). -/
theorem InStep.insert (h : InStep s d first rest) (he : EncInv s) (hv : s.eng.curValid = true)
    (hr : s.eng.nextCode.toNat ≤ s.eng.aMc.toNat) {c : Byte} :
    InStep { encInsertNext s.eng.cur c s with eng.cur := BitVec.ofNat 16 c.toNat }
      (setPrevious s.eng.cur first (decodeInsert first d)) c [] := by
  have hmc : (decodeInsert first d).eng.aMc = s.eng.aMc := (decodeInsert_frame first d).aMc.trans h.maxCode
  have hins : decodeInsert c (setPrevious s.eng.cur first (decodeInsert first d)) =
      decWriteNext s.eng.cur c (setPrevious s.eng.cur first (decodeInsert first d)) := by
    refine decodeInsert_of_room c rfl ?_
    rw [setPrevious_nextCode, setPrevious_aMc, h.next, hmc]
    exact hr
  have hnew : (BitVec.ofNat 16 s.eng.nextCode.toNat).toNat = s.eng.nextCode.toNat := by
    have := s.eng.aMc.isLt
    rw [BitVec.toNat_ofNat]
    omega
  refine ⟨h.dec_accepted he hv, h.start.trans (decodeInsert_nextCode first d).1, hmc, ?_, fun p c' k hk => ?_,
    .literal _ c ?_⟩
  · rw [hins, decWriteNext_nextCode, setPrevious_nextCode, h.next]
    rfl
  · change encLookup p c' (encInsertNext s.eng.cur c s) = some k at hk
    rw [hins, decWriteNext_dec, setPrevious_tabs, setPrevious_nextCode, h.next, Memory.read_write]
    rw [encLookup_insert] at hk
    split_ifs at hk with hkey
    · obtain rfl := Option.some.inj hk
      rw [if_pos hnew, hkey.1, hkey.2]
    · have hlt := (he.entry p c' k hk).2.1
      rw [if_neg (by omega)]
      exact h.entries p c' k hk
  · rw [BitVec.toNat_ofNat]
    omega

/-- Writing the pending match spells its string, whatever is spelt after it. -/
theorem InStep.spells (h : InStep s d first rest) (he : EncInv s) (hv : s.eng.curValid = true) {ks : List Code}
    {out : List Byte} (ht : Spells (setPrevious s.eng.cur first (decodeInsert first d)) ks out) :
    Spells d (s.eng.cur :: ks) (first :: rest ++ out) :=
  .code d s.eng.cur first rest ks out (h.cur_lt he hv).1 (h.cur_lt he hv).2 h.str ht

end InStep

end Sys2Proof.Machine
end

section
/-! PROOFS. Round trip (42_compress.md R180): a compress operation delivers the stream of codes that spell its input,
and a decompress operation that reads codes delivers what they spell. -/

namespace Sys2Proof.Machine

open Sys2Proof

/-! ### What one byte of a compress operation writes -/

/-- The byte extends the pending match, and nothing is written (42_compress.md R171). -/
structure ExtendsMatch (c : Byte) (s t : State) : Prop where
  cs : t.cs = s.cs
  obuf : t.eng.obuf = s.eng.obuf
  inStep : ∀ d first rest, InStep s d first rest → InStep t d first (rest ++ [c])

/-- The byte ends the pending match, which is written, and starts the next one (42_compress.md R171). -/
structure WritesMatch (c : Byte) (s t : State) : Prop where
  cs : t.cs = (writeCode s.eng.aStrat s.eng.aMc s.eng.cur s.cs).2
  obuf : t.eng.obuf = s.eng.obuf ++ (writeCode s.eng.aStrat s.eng.aMc s.eng.cur s.cs).1.map .byte
  inStep : ∀ d first rest, InStep s d first rest →
    InStep t (setPrevious s.eng.cur first (decodeInsert first d)) c []

theorem ByteMove.curValid {c : Byte} {s t : State} (m : ByteMove c s t) (hv : s.eng.curValid = true) :
    t.eng.curValid = true := by
  cases m with
  | first => rfl
  | hit | insert | full => exact hv

/-- With a pending match, a byte extends it or writes it (42_compress.md R171). -/
theorem ByteMove.extends_or_writes {c : Byte} {s t : State} (m : ByteMove c s t) (he : EncInv s)
    (hv : s.eng.curValid = true) : ExtendsMatch c s t ∨ WritesMatch c s t := by
  cases m with
  | first hf => simp [hv] at hf
  | hit k hk => exact .inl ⟨rfl, rfl, fun _ _ _ h => h.hit he hk⟩
  | insert _ _ hr => exact .inr ⟨rfl, rfl, fun _ _ _ h => (h.insert he hv hr).of_dictionary rfl⟩
  | full hr => exact .inr ⟨rfl, rfl, fun _ _ _ h => (h.full he hv hr).of_dictionary rfl⟩

/-! ### Written codes fit their widths -/

variable {st : Strategy} {mc : Code} {i : Nat}

/-- Each code fits the width in force when it is written, the first as code number `i` (41_code_stream.md R149). -/
def FitsFrom (st : Strategy) (mc : Code) (i : Nat) (ks : List Code) : Prop :=
  ∀ (j : Nat) (k : Code), ks[j]? = some k → k.toNat < 2 ^ codeWidth st mc (i + j)

theorem FitsFrom.cons {k : Code} {ks : List Code} (hk : k.toNat < 2 ^ codeWidth st mc i)
    (h : FitsFrom st mc (i + 1) ks) : FitsFrom st mc i (k :: ks) := by
  intro j k' hj
  cases j with
  | zero =>
    obtain rfl := Option.some.inj hj
    exact hk
  | succ j =>
    have := h j k' hj
    rwa [add_right_comm] at this

/-- No width is below 9, so EOF fits every one (41_code_stream.md R141, R142). -/
theorem FitsFrom.eof (hfw : st = .fixedw → 256 ≤ mc.toNat) : FitsFrom st mc i [eofCode] := by
  have hw : 9 ≤ codeWidth st mc i := by
    cases st with
    | text | fixed16 => simp [codeWidth]
    | fixedw => exact (bitlen_code mc (hfw rfl)).1
    | adaptive => exact le_max_left _ _
  refine .cons (lt_of_lt_of_le ?_ (Nat.pow_le_pow_right (by norm_num) hw)) (fun j k hj => nomatch hj)
  decide

/-- A written code takes the session to the next code number (41_code_stream.md R131, R142). -/
theorem CodeStream.AtCode.writeCode {c : CodeStream} (h : c.AtCode st mc i) (k : Code) :
    (writeCode st mc k c).2.AtCode st mc (i + 1) := by
  intro hst
  have hc := h hst
  rw [writeCode_currentCode hst]
  split_ifs <;> omega

/-- The pending match fits the width of its code number (41_code_stream.md R149). -/
theorem Consuming.cur_fits {s : State} {q : List Beat} (h : Consuming .compress st mc s q) (hat : s.cs.AtCode st mc i)
    (hv : s.eng.curValid = true) : s.eng.cur.toNat < 2 ^ codeWidth st mc i := by
  by_cases hst : st = .fixedw ∨ st = .adaptive
  · rw [← h.session.width_atCode (packed_iff.mpr ⟨hst, h.fixedw⟩) hat]
    have hfit := writtenCodeFitsWidth s h.inv.engine h.inv.session h.inv.fit h.phase h.aDir (h.aStrat.symm ▸ hst)
    exact (hfit.2 hv).1
  · have hw : codeWidth st mc i = 16 := by
      cases st with
      | text | fixed16 => rfl
      | fixedw | adaptive => simp at hst
    rw [hw]
    exact s.eng.cur.isLt

/-! ### Compress -/

section Compress

variable {s : State} {b : Beat} {q : List Beat}

theorem Consuming.encInv (h : Consuming .compress st mc s q) : EncInv s := h.inv.engine.compress h.busy h.aDir

theorem Consuming.step_compress (h : Consuming .compress st mc s (b :: q)) :
    step s = .next (consumeCompress b { s with env.inq := q }) := by
  rw [h.step_eq, consumeBeat, h.aDir]
  rfl

/-- The codes written at End: the pending match, if there is one, and EOF (42_compress.md R173). -/
def State.lastCodes (s : State) : List Code := if s.eng.curValid then [s.eng.cur, eofCode] else [eofCode]

theorem compressEnd_obuf (ho : s.eng.obuf = []) :
    (compressEnd s).eng.obuf =
      (finishCodes s.eng.aStrat s.eng.aMc s.lastCodes s.cs).map .byte ++ [.endMark] := by
  cases hv : s.eng.curValid with
  | true =>
    rw [compressEnd_pending hv, csWrite_of_obuf_nil ho, raiseStop_csFinalize rfl, State.lastCodes, if_pos hv,
      finishCodes_cons, finishCodes_cons, finishCodes_nil, ← List.append_assoc]
    rfl
  | false =>
    rw [compressEnd_empty hv, raiseStop_csFinalize (q := []) ho, State.lastCodes, if_neg (by simp [hv]),
      finishCodes_cons, finishCodes_nil]
    rfl

/-- The End beat completes the operation with IN_END (42_compress.md R173). -/
theorem Consuming.end_delivers (h : Consuming .compress st mc s [.endMark]) :
    Delivers s .inEnd (finishCodes st mc s.lastCodes s.cs) := by
  have hstep := h.step_compress
  have f := consumeCompress_frame .endMark { s with env.inq := [] }
  have hobuf := compressEnd_obuf (s := { s with env.inq := [] }) h.obuf
  dsimp only at hobuf
  rw [h.aStrat, h.aMc] at hobuf
  have hdel := (h.undisturbed.of_env f.cfg f.env).delivers rfl hobuf
  exact hdel.of_silent (.head hstep (.refl _)) (by rw [f.env])

/-- With a pending match a byte extends it and delivers nothing, or ends it and delivers the written code
(42_compress.md R171). -/
theorem Consuming.match_byte {c : Byte} (h : Consuming .compress st mc s (.byte c :: q)) (hv : s.eng.curValid = true) :
    ∃ v, Reaches s v ∧ Consuming .compress st mc v q ∧ v.eng.curValid = true ∧
      ((v.env.delivered = s.env.delivered ∧ v.cs = s.cs ∧
          ∀ d first rest, InStep s d first rest → InStep v d first (rest ++ [c])) ∨
        (v.env.delivered = s.env.delivered ++ (writeCode st mc s.eng.cur s.cs).1.map .byte ∧
          v.cs = (writeCode st mc s.eng.cur s.cs).2 ∧
          ∀ d first rest, InStep s d first rest →
            InStep v (setPrevious s.eng.cur first (decodeInsert first d)) c [])) := by
  let u := countByteIn { s with env.inq := q }
  have hstep : step s = .next (compressByte c u) := h.step_compress
  have hm : ByteMove c u (compressByte c u) := compressByte_move c u
  have f := (countByteIn_frame _).trans hm.frame
  have hphase := hm.pushes.phase.trans h.phase
  have hcur := hm.curValid hv
  have hu : ∀ {d first rest}, InStep s d first rest → InStep u d first rest := fun g => g.of_dictionary rfl
  rcases hm.extends_or_writes (h.encInv.of_dictionary rfl) hv with g | g
  · obtain ⟨v, hreach, hcons, hdel, hdict, hcs⟩ := h.silent_round hstep f hphase (g.obuf.trans h.obuf)
    exact ⟨v, hreach, hcons, (congrArg (·.eng.curValid) hdict).trans hcur, .inl ⟨hdel, hcs.trans g.cs,
      fun d first rest hin => (g.inStep d first rest (hu hin)).of_dictionary hdict⟩⟩
  · have hobuf : u.eng.obuf = [] := h.obuf
    have hw : writeCode u.eng.aStrat u.eng.aMc u.eng.cur u.cs = writeCode st mc s.eng.cur s.cs := by
      rw [← h.aStrat, ← h.aMc]
      rfl
    obtain ⟨hcs', hobuf', hin'⟩ := g
    rw [hw] at hcs' hobuf'
    rw [hobuf, List.nil_append] at hobuf'
    obtain ⟨v, hreach, hcons, hdel, hdict, hcs⟩ := h.round hstep f hphase hobuf'
    exact ⟨v, hreach, hcons, (congrArg (·.eng.curValid) hdict).trans hcur, .inr ⟨hdel, hcs.trans hcs',
      fun d first rest hin => (hin' d first rest (hu hin)).of_dictionary hdict⟩⟩

/-- A compress operation with a pending match delivers the stream of some codes that fit. On every decompress
operation in step with it the codes spell the match and the bytes to come (42_compress.md R177, R180). -/
theorem Consuming.compress_delivers (bytes : List Byte) (h : Consuming .compress st mc s (sourceOf bytes))
    (hat : s.cs.AtCode st mc i) (hv : s.eng.curValid = true) :
    ∃ ks, Delivers s .inEnd (finishCodes st mc ks s.cs) ∧ FitsFrom st mc i ks ∧
      ∀ d first rest, InStep s d first rest → Spells d ks (first :: rest ++ bytes) := by
  induction bytes generalizing s i with
  | nil =>
    have hdel := h.end_delivers
    rw [State.lastCodes, if_pos hv] at hdel
    exact ⟨_, hdel, .cons (h.cur_fits hat hv) (.eof h.fixedw), fun d first rest hin => hin.spells h.encInv hv (.eof _)⟩
  | cons c bytes ih =>
    obtain ⟨v, hreach, hcons, hcur, ⟨hdel, hcs, hin⟩ | ⟨hdel, hcs, hin⟩⟩ := h.match_byte hv
    · obtain ⟨ks, hrest, hfits, hspell⟩ := ih hcons (hcs ▸ hat) hcur
      rw [hcs] at hrest
      refine ⟨ks, hrest.of_silent hreach hdel, hfits, fun d first rest hs => ?_⟩
      have hlonger := hspell d first (rest ++ [c]) (hin d first rest hs)
      rwa [List.cons_append, List.append_assoc] at hlonger
    · obtain ⟨ks, hrest, hfits, hspell⟩ := ih hcons (hcs ▸ hat.writeCode s.eng.cur) hcur
      rw [hcs] at hrest
      exact ⟨s.eng.cur :: ks, finishCodes_cons .. ▸ hrest.of_reaches hreach hdel, .cons (h.cur_fits hat hv) hfits,
        fun d first rest hs => hs.spells h.encInv hv (hspell _ c [] (hin d first rest hs))⟩

/-- A fresh compress operation delivers the stream of codes that spell its input on every fresh decompress operation
with its `max_code` (42_compress.md R180). -/
theorem Consuming.compress_stream {bytes : List Byte} (h : Consuming .compress st mc s (sourceOf bytes))
    (hv : s.eng.curValid = false) (hn : s.eng.nextCode.toNat = 257) (hcs : s.cs = sessionInit st mc) :
    ∃ ks, Delivers s .inEnd (codeStreamOf st mc ks) ∧ FitsFrom st mc 0 ks ∧
      ∀ d, DecInv d → d.eng.prevValid = false → d.eng.aMc = mc → Spells d ks bytes := by
  cases bytes with
  | nil =>
    have hdel := h.end_delivers
    rw [State.lastCodes, if_neg (by simp [hv]), hcs] at hdel
    exact ⟨[eofCode], hdel, .eof h.fixedw, fun d _ _ _ => .eof d⟩
  | cons c bytes =>
    let u := countByteIn { s with env.inq := sourceOf bytes }
    have hstep : step s = .next (compressByte c u) := h.step_compress
    rw [compressByte_first (s := u) hv, ← BitVec.ofNat_toNat] at hstep
    obtain ⟨v, hreach, hcons, hdel, hdict, hvcs⟩ := h.silent_round hstep ⟨.inl rfl, rfl⟩ h.phase h.obuf
    have hfresh : v.cs = sessionInit st mc := hvcs.trans hcs
    obtain ⟨ks, hrest, hfits, hspell⟩ := hcons.compress_delivers bytes (hfresh ▸ sessionInit_atCode st mc)
      (congrArg (·.eng.curValid) hdict)
    rw [hfresh] at hrest
    exact ⟨ks, hrest.of_silent hreach hdel, hfits, fun d hdec hpv hdmc =>
      hspell d c [] ((InStep.firstByte h.encInv hn hdec hpv (hdmc.trans h.aMc.symm)).of_dictionary hdict)⟩

end Compress

/-! ### Decompress -/

section Decompress

variable {u : State} {b : Byte} {bytes : List Byte} {k : Code} {ks : List Code} {out : List Byte} {c : CodeStream}

theorem Consuming.decInv {q : List Beat} (h : Consuming .decompress st mc u q) : DecInv u :=
  h.inv.engine.decompress h.busy h.aDir

theorem Consuming.step_decompress {q : List Beat} (h : Consuming .decompress st mc u (.byte b :: q)) :
    step u = runFetch (fetchBeat (.byte b) { u with env.inq := q }) := by
  rw [h.step_eq, consumeBeat, h.aDir]

/-- A byte that completes a code runs it (43_decompress.md R186). -/
theorem Consuming.step_code {q : List Beat} (h : Consuming .decompress st mc u (.byte b :: q))
    (hread : readByte st b u.cs = .code k c) :
    let w := codeCompleted c (countByteIn { u with env.inq := q })
    step u = exec (classify w.codeCtx k) w := by
  rw [h.step_decompress, fetchBeat_completed (s := { u with env.inq := q }) (h.aStrat.symm ▸ hread)]
  rfl

/-- A byte that completes no code leaves the next byte to be consumed (41_code_stream.md R132). -/
theorem Consuming.read_noCode {q : List Beat} (h : Consuming .decompress st mc u (.byte b :: q))
    (hread : readByte st b u.cs = .noCode c) :
    ∃ v, Reaches u v ∧ Consuming .decompress st mc v q ∧ v.env.delivered = u.env.delivered ∧
      v.dictionary = u.dictionary ∧ v.cs = c := by
  have hstep := h.step_decompress
  rw [fetchBeat_noCode (s := { u with env.inq := q }) (h.aStrat.symm ▸ hread)] at hstep
  exact h.silent_round hstep ⟨.inl rfl, rfl⟩ h.phase h.obuf

/-- A byte that completes EOF completes the operation with EOF_CODE (41_code_stream.md R133). -/
theorem Consuming.read_eof {q : List Beat} (h : Consuming .decompress st mc u (.byte b :: q))
    (hread : readByte st b u.cs = .code eofCode c) : Delivers u .eofCode [] := by
  let w := codeCompleted c (countByteIn { u with env.inq := q })
  have hstep : step u = .next (raiseStop .eofCode 0 w) := h.step_code hread
  have ht : Undisturbed (raiseStop .eofCode 0 w) := h.undisturbed.of_env rfl rfl
  have hdel := ht.delivers (out := []) rfl (congrArg (· ++ [OutBeat.endMark]) h.obuf)
  exact hdel.of_silent (.head hstep (.refl _)) rfl

/-- A byte that completes a code of a known string delivers the string, inserts and updates (43_decompress.md R187). -/
theorem Consuming.read_string {q : List Beat} (h : Consuming .decompress st mc u (.byte b :: q))
    (hread : readByte st b u.cs = .code k c) {first : Byte} {rest : List Byte}
    (hk : k.toNat < (decodeInsert first u).eng.nextCode.toNat) (h256 : k.toNat ≠ 256)
    (hs : StrOf (decodeInsert first u).tabs.dec k (first :: rest)) :
    ∃ v, Reaches u v ∧ Consuming .decompress st mc v q ∧
      v.env.delivered = u.env.delivered ++ (first :: rest).map .byte ∧
      v.dictionary = (setPrevious k first (decodeInsert first u)).dictionary ∧ v.cs = bumpFor st mc c := by
  let w := codeCompleted c (countByteIn { u with env.inq := q })
  have hins : (decodeInsert first w).dictionary = (decodeInsert first u).dictionary :=
    (decodeInsert_dictionary first w).trans (decodeInsert_dictionary first u).symm
  have hnext : (decodeInsert first w).eng.nextCode = (decodeInsert first u).eng.nextCode :=
    congrArg (·.eng.nextCode) hins
  have hdec : (decodeInsert first w).tabs.dec = (decodeInsert first u).tabs.dec := congrArg (·.tabs.dec) hins
  obtain ⟨stack, hexec⟩ := exec_classify_accept (u := w) (h.decInv.of_dictionary rfl) (h.inv.engine.next h.busy).1
    (hnext ▸ hk) h256 (hdec ▸ hs)
  let x : State := { w with tabs.stack := stack }
  have hobuf : x.eng.obuf = [] := h.obuf
  have f : OpFrame { u with env.inq := q } x := ⟨.inl rfl, rfl⟩
  obtain ⟨v, hreach, hcons, hdel, hdict, hcs⟩ := h.round ((h.step_code hread).trans hexec)
    (f.trans (acceptCode_frame k first rest x)) ((acceptCode_pushes k first rest x).phase.trans h.phase)
    ((acceptCode_obuf k first rest x).trans (by rw [hobuf, List.nil_append]))
  refine ⟨v, hreach, hcons, hdel, ?_, ?_⟩
  · rw [hdict, acceptCode_dictionary]
    exact congrArg (setPrevious k first)
      ((decodeInsert_dictionary first x).trans (decodeInsert_dictionary first u).symm)
  · rw [hcs, acceptCode_cs, ← h.aStrat, ← h.aMc]
    rfl

/-- A decompress operation delivers what the codes that it reads spell (43_decompress.md R187; 42_compress.md R180). -/
theorem Consuming.decompress_delivers (bytes : List Byte) (h : Consuming .decompress st mc u (bytes.map .byte))
    (hr : readCodes st mc bytes u.cs = some (ks, c)) (hs : Spells u ks out) : Delivers u .eofCode out := by
  induction bytes generalizing u ks out with
  | nil =>
    obtain ⟨rfl, -⟩ := Prod.mk.inj (Option.some.inj hr)
    cases hs
  | cons b bytes ih =>
    cases hread : readByte st b u.cs with
    | noCode c' =>
      rw [readCodes_noCode hread] at hr
      obtain ⟨v, hreach, hcons, hdel, hdict, hcs⟩ := h.read_noCode hread
      exact (ih hcons (hcs ▸ hr) (hs.of_dictionary hdict)).of_silent hreach hdel
    | code k c' =>
      obtain ⟨⟨ks', c''⟩, hrest, heq⟩ := Option.map_eq_some_iff.mp ((readCodes_code hread bytes).symm.trans hr)
      obtain ⟨rfl, rfl⟩ := Prod.mk.inj heq
      cases hs with
      | eof => exact h.read_eof hread
      | code _ _ first rest _ out hk h256 hstr ht =>
        obtain ⟨v, hreach, hcons, hdel, hdict, hcs⟩ := h.read_string hread hk h256 hstr
        exact (ih hcons (hcs ▸ hrest) (ht.of_dictionary hdict)).of_reaches hreach hdel
    | formatError => simp [readCodes, hread] at hr

end Decompress

/-! ### Both operations -/

/-- Settles O60: the compress operation delivers the stream of codes that spell its input; the reader takes these codes
off the stream, and the decompress operation delivers what they spell. -/
theorem roundTrip : Obligations.RoundTrip := by
  unfold Obligations.RoundTrip
  intro st s u bytes hs hu hm hls hlu hso hsd hsi hss huo hud hus
  have hc := consuming_start hs hls hso hss
  rw [hsi] at hc
  obtain ⟨ks, ⟨t, hreach, hdone, herr, hreason, hdel⟩, hfits, hspell⟩ := hc.compress_stream rfl rfl rfl
  obtain ⟨n, hn⟩ := Reaches.head (step_start hs hls hss) hreach
  refine ⟨codeStreamOf st _ ks, n, t, hn, hdone, herr, hreason, hdel.trans (congrArg (· ++ sinkOf _) hsd),
    fun hui => ?_⟩
  have hd := consuming_start hu hlu huo hus
  rw [hui, ← hm] at hd
  obtain ⟨c, hread⟩ := codeStreamRoundTrip st _ ks hc.fixedw
    (fun i k hk => by simpa only [Nat.zero_add] using hfits i k hk)
  obtain ⟨v, hvreach, hvdone, hverr, hvreason, hvdel⟩ :=
    hd.decompress_delivers _ hread (hspell _ hd.decInv rfl hd.aMc)
  obtain ⟨m, hmv⟩ := Reaches.head (step_start hu hlu hus) (hm ▸ hvreach)
  exact ⟨m, v, hmv, hvdone, hverr, hvreason, hvdel.trans (congrArg (· ++ sinkOf _) hud)⟩

end Sys2Proof.Machine
end

section
/-! PROOFS. The physical mapping tables answer as the abstract maps do (44_dictionary_tables.md R206): the hash RAM with its
linear probe (R210 to R214, R217), the CAM (R215) and the decode RAM (R216), after any inserts within the capacity. -/

namespace Sys2Proof.Machine

open Sys2Proof

/-! ### Memories by their cells -/

theorem Memory.mem_addresses_of_read {α : Type} {m : Memory α} {i : Nat} (h : Memory.read m i ≠ none) :
    i ∈ m.map Prod.fst := by
  induction m with
  | nil => exact absurd rfl h
  | cons cell m ih =>
    rw [Memory.read] at h
    split_ifs at h with ha
    · exact ha ▸ List.mem_cons_self
    · exact List.mem_cons_of_mem _ (ih h)

/-- A memory that has a value at each of `n` addresses lists at least `n` cells. -/
theorem Memory.le_length_of_read {α : Type} {m : Memory α} {n : Nat} (h : ∀ i < n, Memory.read m i ≠ none) :
    n ≤ m.length := by
  have hsub : List.range n ⊆ m.map Prod.fst := fun i hi => Memory.mem_addresses_of_read (h i (List.mem_range.mp hi))
  simpa using (List.nodup_range.subperm hsub).length_le

theorem Memory.length_write_le {α : Type} (m : Memory α) (k : Nat) (v : α) :
    (Memory.write m k v).length ≤ m.length + 1 := by
  induction m with
  | nil => exact le_rfl
  | cons cell m ih =>
    rw [Memory.write]
    split_ifs
    · exact le_rfl
    · exact Nat.le_succ _
    · exact Nat.succ_le_succ ih

/-- A write above every listed address goes last. -/
theorem Memory.write_of_above {α : Type} {m : Memory α} {k : Nat} (v : α) (h : ∀ cell ∈ m, cell.1 < k) :
    Memory.write m k v = m ++ [(k, v)] := by
  induction m with
  | nil => rfl
  | cons cell m ih =>
    have hlt := h cell List.mem_cons_self
    rw [Memory.write, if_neg (by omega), if_neg (by omega), ih fun d hd => h d (List.mem_cons_of_mem _ hd)]
    rfl

/-! ### The abstract encode table -/

theorem encKey_eq_iff {p p' : Code} {c c' : Byte} : encKey p c = encKey p' c' ↔ p = p' ∧ c = c' :=
  ⟨encKey_inj, fun h => by rw [h.1, h.2]⟩

/-- The newest key answers its code, every other key what it answered before (44_dictionary_tables.md R208, R209). -/
theorem read_encAfterInserts_cons (p p' : Code) (c c' : Byte) (earlier : List (Code × Byte)) :
    Memory.read (encAfterInserts ((p', c') :: earlier)) (encKey p c) =
      if p = p' ∧ c = c' then some (BitVec.ofNat 16 (257 + earlier.length))
      else Memory.read (encAfterInserts earlier) (encKey p c) := by
  simp only [encAfterInserts, Memory.read_write, encKey_eq_iff]

theorem read_encAfterInserts_eq_none_iff (keys : List (Code × Byte)) (p : Code) (c : Byte) :
    Memory.read (encAfterInserts keys) (encKey p c) = none ↔ (p, c) ∉ keys := by
  induction keys with
  | nil => simp [encAfterInserts]
  | cons key earlier ih =>
    rw [read_encAfterInserts_cons, List.mem_cons, Prod.ext_iff]
    split_ifs with h
    · simp [h]
    · simp [h, ih]

/-! ### The linear probe (44_dictionary_tables.md R212) -/

section Probe

variable {slots : Nat} {ram : EncRam} {p : Code} {c : Byte} {fuel i : Nat}

theorem probeFrom_of_empty (hr : Memory.read ram i = none) : probeFrom slots ram p c (fuel + 1) i = .miss i := by
  rw [probeFrom, hr]

theorem probeFrom_of_slot {x : EncSlot} (hr : Memory.read ram i = some x) :
    probeFrom slots ram p c (fuel + 1) i =
      if x.kp = p ∧ x.kc = c then .hit x.code else probeFrom slots ram p c fuel ((i + 1) % slots) := by
  rw [probeFrom, hr]

/-- A probe is endless only over slots that are all in use. -/
theorem probeFrom_endless (h : probeFrom slots ram p c fuel i = .endless) (hi : i < slots) :
    ∀ j < fuel, Memory.read ram ((i + j) % slots) ≠ none := by
  induction fuel generalizing i with
  | zero => intro j hj; omega
  | succ fuel ih =>
    cases hr : Memory.read ram i with
    | none => rw [probeFrom_of_empty hr] at h; cases h
    | some x =>
      rw [probeFrom_of_slot hr] at h
      split_ifs at h
      intro j hj
      cases j with
      | zero => simp [Nat.mod_eq_of_lt hi, hr]
      | succ j =>
        have := ih h (Nat.mod_lt _ (by omega)) j (by omega)
        rwa [Nat.mod_add_mod, Nat.add_assoc, Nat.add_comm 1 j] at this

/-- A probe that hits has met a slot with its key. -/
theorem probeFrom_hit {k : Code} (h : probeFrom slots ram p c fuel i = .hit k) :
    ∃ j x, Memory.read ram j = some x ∧ x.kp = p ∧ x.kc = c := by
  induction fuel generalizing i with
  | zero => cases h
  | succ fuel ih =>
    cases hr : Memory.read ram i with
    | none => rw [probeFrom_of_empty hr] at h; cases h
    | some x =>
      rw [probeFrom_of_slot hr] at h
      split_ifs at h with hx
      · exact ⟨i, x, hr, hx⟩
      · exact ih h

/-- The slot at which a probe misses is empty. -/
theorem probeFrom_miss {e : Nat} (h : probeFrom slots ram p c fuel i = .miss e) : Memory.read ram e = none := by
  induction fuel generalizing i with
  | zero => cases h
  | succ fuel ih =>
    cases hr : Memory.read ram i with
    | none =>
      rw [probeFrom_of_empty hr] at h
      exact Probe.miss.inj h ▸ hr
    | some x =>
      rw [probeFrom_of_slot hr] at h
      split_ifs at h
      exact ih h

/-- A slot in use is not the one written when an empty slot is filled. -/
theorem read_write_of_slot {e : Nat} {x y : EncSlot} (he : Memory.read ram e = none) (hr : Memory.read ram i = some y) :
    Memory.read (Memory.write ram e x) i = some y := by
  rw [Memory.read_write_other _ _ _ _ (by rintro rfl; simp [he] at hr), hr]

/-- Filling an empty slot leaves a probe that hits as it was: it met no empty slot (44_dictionary_tables.md R213). -/
theorem probeFrom_hit_write {k : Code} {e : Nat} (x : EncSlot) (he : Memory.read ram e = none)
    (h : probeFrom slots ram p c fuel i = .hit k) :
    probeFrom slots (Memory.write ram e x) p c fuel i = .hit k := by
  induction fuel generalizing i with
  | zero => cases h
  | succ fuel ih =>
    cases hr : Memory.read ram i with
    | none => rw [probeFrom_of_empty hr] at h; cases h
    | some y =>
      rw [probeFrom_of_slot hr] at h
      rw [probeFrom_of_slot (read_write_of_slot he hr)]
      split_ifs at h ⊢
      · exact h
      · exact ih h

/-- A key put at the slot where its probe missed is found by the same probe (44_dictionary_tables.md R213). -/
theorem probeFrom_write_same {e : Nat} (k : Code) (h : probeFrom slots ram p c fuel i = .miss e) :
    probeFrom slots (Memory.write ram e { kp := p, kc := c, code := k }) p c fuel i = .hit k := by
  have he := probeFrom_miss h
  induction fuel generalizing i with
  | zero => cases h
  | succ fuel ih =>
    cases hr : Memory.read ram i with
    | none =>
      rw [probeFrom_of_empty hr] at h
      obtain rfl := Probe.miss.inj h
      rw [probeFrom_of_slot (Memory.read_write_same _ _ _), if_pos ⟨rfl, rfl⟩]
    | some y =>
      rw [probeFrom_of_slot hr] at h
      rw [probeFrom_of_slot (read_write_of_slot he hr)]
      split_ifs at h ⊢
      exact ih h

end Probe

/-! ### The encode RAM after a run of inserts -/

theorem encHash_lt (cfg : Config) (p : Code) (c : Byte) : encHash cfg p c < cfg.hashSlots :=
  Nat.mod_lt _ (Nat.two_pow_pos _)

/-- While fewer slots are in use than there are, every probe ends (44_dictionary_tables.md R217). -/
theorem EncRam.probe_ne_endless {cfg : Config} {ram : EncRam} (h : ram.length < cfg.hashSlots) (p : Code) (c : Byte) :
    EncRam.probe cfg ram p c ≠ .endless := by
  intro hend
  have hfull := probeFrom_endless hend (encHash_lt cfg p c)
  have hall : ∀ i < cfg.hashSlots, Memory.read ram i ≠ none := by
    intro i hi
    have hh := encHash_lt cfg p c
    by_cases hle : encHash cfg p c ≤ i
    · have := hfull (i - encHash cfg p c) (by omega)
      rwa [Nat.add_sub_cancel' hle, Nat.mod_eq_of_lt hi] at this
    · have := hfull (cfg.hashSlots + i - encHash cfg p c) (by omega)
      rwa [show encHash cfg p c + (cfg.hashSlots + i - encHash cfg p c) = cfg.hashSlots + i by omega,
        Nat.add_mod_left, Nat.mod_eq_of_lt hi] at this
  have := Memory.le_length_of_read hall
  omega

/-- The RAM holds a run of inserts: one slot for a key at most, no other key, and every probe of a key hits its code. -/
structure EncRam.Holds (cfg : Config) (keys : List (Code × Byte)) (ram : EncRam) : Prop where
  size : ram.length ≤ keys.length
  stored : ∀ i x, Memory.read ram i = some x → (x.kp, x.kc) ∈ keys
  found : ∀ p c k, Memory.read (encAfterInserts keys) (encKey p c) = some k → EncRam.probe cfg ram p c = .hit k

theorem EncRam.Holds.nil (cfg : Config) : EncRam.Holds cfg [] [] :=
  ⟨le_rfl, fun _ _ h => by simp at h, fun _ _ _ h => by simp [encAfterInserts] at h⟩

/-- A probe of a key that was never inserted misses. -/
theorem EncRam.Holds.probe_miss {cfg : Config} {keys : List (Code × Byte)} {ram : EncRam} (h : EncRam.Holds cfg keys ram)
    (hcap : keys.length < cfg.hashSlots) {p : Code} {c : Byte} (hnew : (p, c) ∉ keys) :
    ∃ e, EncRam.probe cfg ram p c = .miss e := by
  cases hpr : EncRam.probe cfg ram p c with
  | hit k =>
    obtain ⟨j, x, hx, rfl, rfl⟩ := probeFrom_hit hpr
    exact absurd (h.stored j x hx) hnew
  | miss e => exact ⟨e, rfl⟩
  | endless => exact absurd hpr (EncRam.probe_ne_endless (h.size.trans_lt hcap) p c)

/-- What a RAM that holds a run of inserts answers is what the abstract map answers (44_dictionary_tables.md R206). -/
theorem EncRam.Holds.lookup {cfg : Config} {keys : List (Code × Byte)} {ram : EncRam} (h : EncRam.Holds cfg keys ram)
    (hcap : keys.length < cfg.hashSlots) (p : Code) (c : Byte) :
    EncRam.lookup cfg ram p c = Memory.read (encAfterInserts keys) (encKey p c) := by
  cases hr : Memory.read (encAfterInserts keys) (encKey p c) with
  | none =>
    obtain ⟨e, he⟩ := h.probe_miss hcap ((read_encAfterInserts_eq_none_iff keys p c).mp hr)
    rw [EncRam.lookup, he]
  | some k => rw [EncRam.lookup, h.found p c k hr]

/-- An insert of a new key (44_dictionary_tables.md R213). -/
theorem EncRam.Holds.insert {cfg : Config} {keys : List (Code × Byte)} {ram : EncRam} (h : EncRam.Holds cfg keys ram)
    (hcap : keys.length < cfg.hashSlots) {p : Code} {c : Byte} (hnew : (p, c) ∉ keys) :
    EncRam.Holds cfg ((p, c) :: keys) (EncRam.insert cfg ram p c (BitVec.ofNat 16 (257 + keys.length))) := by
  obtain ⟨e, he⟩ := h.probe_miss hcap hnew
  simp only [EncRam.insert, he]
  refine ⟨(Memory.length_write_le _ _ _).trans (Nat.succ_le_succ h.size), fun i x hx => ?_, fun p' c' k hk => ?_⟩
  · rw [Memory.read_write] at hx
    split_ifs at hx
    · rw [← Option.some.inj hx]
      exact List.mem_cons_self
    · exact List.mem_cons_of_mem _ (h.stored i x hx)
  · rw [read_encAfterInserts_cons] at hk
    split_ifs at hk with hkey
    · obtain ⟨rfl, rfl⟩ := hkey
      rw [← Option.some.inj hk]
      exact probeFrom_write_same _ he
    · exact probeFrom_hit_write _ (probeFrom_miss he) (h.found p' c' k hk)

/-! ### The CAM after a run of inserts (44_dictionary_tables.md R215) -/

theorem Cam.lookup_append (m : Cam) (i : Nat) (x : CamEntry) (p : Code) (c : Byte) :
    Cam.lookup (m ++ [(i, x)]) p c =
      (Cam.lookup m p c).or (if x.kp = p ∧ x.kc = c then some (BitVec.ofNat 16 (257 + i)) else none) := by
  induction m with
  | nil => simp [Cam.lookup]
  | cons cell m ih =>
    obtain ⟨j, y⟩ := cell
    rw [List.cons_append, Cam.lookup, Cam.lookup, ih]
    by_cases hy : y.kp = p ∧ y.kc = c
    · rw [if_pos hy, if_pos hy, Option.some_or]
    · rw [if_neg hy, if_neg hy]

/-- The CAM holds a run of inserts: its entries lie below the next index, and it answers as the abstract map does. -/
structure Cam.Holds (keys : List (Code × Byte)) (m : Cam) : Prop where
  below : ∀ cell ∈ m, cell.1 < keys.length
  lookup : ∀ p c, Cam.lookup m p c = Memory.read (encAfterInserts keys) (encKey p c)

theorem Cam.Holds.nil : Cam.Holds [] [] := ⟨fun _ h => by simp at h, fun _ _ => rfl⟩

/-- An insert of a new key, while its code has 16 bits. -/
theorem Cam.Holds.insert {keys : List (Code × Byte)} {m : Cam} (h : Cam.Holds keys m)
    (hcap : 257 + keys.length < 2 ^ 16) {p : Code} {c : Byte} (hnew : (p, c) ∉ keys) :
    Cam.Holds ((p, c) :: keys) (Cam.insert m p c (BitVec.ofNat 16 (257 + keys.length))) := by
  have hidx : (BitVec.ofNat 16 (257 + keys.length)).toNat - 257 = keys.length := by
    rw [BitVec.toNat_ofNat, Nat.mod_eq_of_lt hcap, Nat.add_sub_cancel_left]
  rw [Cam.insert, hidx, Memory.write_of_above _ h.below]
  refine ⟨fun cell hc => ?_, fun p' c' => ?_⟩
  · rw [List.length_cons]
    rcases List.mem_append.mp hc with hm | hl
    · exact Nat.lt_succ_of_lt (h.below cell hm)
    · simp [List.mem_singleton.mp hl]
  · rw [Cam.lookup_append, h.lookup, read_encAfterInserts_cons]
    by_cases hkey : p' = p ∧ c' = c
    · obtain ⟨rfl, rfl⟩ := hkey
      simp [(read_encAfterInserts_eq_none_iff keys p' c').mpr hnew]
    · rw [if_neg hkey, if_neg fun hk => hkey ⟨hk.1.symm, hk.2.symm⟩, Option.or_none]

/-! ### Either organisation -/

/-- The physical encode table of either organisation holds a run of inserts. -/
def PhysEnc.Holds (cfg : Config) (keys : List (Code × Byte)) : PhysEnc → Prop
  | .ram m => EncRam.Holds cfg keys m
  | .cam m => Cam.Holds keys m

theorem Config.legal_capacity {cfg : Config} (h : cfg.legal = true) :
    256 ≤ cfg.maxCodeCap.toNat ∧ cfg.maxCodeCap.toNat - 256 < cfg.hashSlots := by
  simp only [Config.legal, Bool.and_eq_true, decide_eq_true_eq] at h
  obtain ⟨⟨⟨⟨hcap, -⟩, -⟩, hslots⟩, -⟩ := h
  exact ⟨hcap, hslots⟩

/-- Every run of inserts of distinct keys within the capacity is held (44_dictionary_tables.md R217). -/
theorem PhysEnc.afterInserts_holds {cfg : Config} (hl : cfg.legal = true) {keys : List (Code × Byte)} (hnd : keys.Nodup)
    (hcap : keys.length ≤ cfg.maxCodeCap.toNat - 256) : PhysEnc.Holds cfg keys (PhysEnc.afterInserts cfg keys) := by
  obtain ⟨h256, hslots⟩ := Config.legal_capacity hl
  induction keys with
  | nil =>
    unfold PhysEnc.afterInserts PhysEnc.cleared
    cases cfg.lookupImpl with
    | hashProbe => exact EncRam.Holds.nil cfg
    | cam => exact Cam.Holds.nil
  | cons key earlier ih =>
    obtain ⟨hnew, hnd⟩ := List.nodup_cons.mp hnd
    rw [List.length_cons] at hcap
    have hearlier := ih hnd (by omega)
    unfold PhysEnc.afterInserts
    cases ht : PhysEnc.afterInserts cfg earlier with
    | ram m =>
      rw [ht] at hearlier
      exact EncRam.Holds.insert hearlier (by omega) hnew
    | cam m =>
      rw [ht] at hearlier
      exact Cam.Holds.insert hearlier (by have := cfg.maxCodeCap.isLt; omega) hnew

/-- A physical table that holds a run of inserts answers as the abstract map does (44_dictionary_tables.md R206). -/
theorem PhysEnc.lookup_afterInserts {cfg : Config} (hl : cfg.legal = true) {keys : List (Code × Byte)} (hnd : keys.Nodup)
    (hcap : keys.length ≤ cfg.maxCodeCap.toNat - 256) (p : Code) (c : Byte) :
    PhysEnc.lookup cfg (PhysEnc.afterInserts cfg keys) p c = Memory.read (encAfterInserts keys) (encKey p c) := by
  have hholds := PhysEnc.afterInserts_holds hl hnd hcap
  cases ht : PhysEnc.afterInserts cfg keys with
  | ram m =>
    rw [ht] at hholds
    exact EncRam.Holds.lookup hholds (hcap.trans_lt (Config.legal_capacity hl).2) p c
  | cam m =>
    rw [ht] at hholds
    exact Cam.Holds.lookup hholds p c

/-! ### The decode RAM (44_dictionary_tables.md R216) -/

/-- A read of a code after a write of a code: the index `k − 257` keeps codes of at least 257 apart. -/
theorem DecRam.readCode_writeCode (m : DecRam) {j k : Nat} (hj : 257 ≤ j) (hk : 257 ≤ k) (p : Code) (c : Byte) :
    DecRam.readCode (DecRam.writeCode m j p c) k = if k = j then some (p, c) else DecRam.readCode m k := by
  unfold DecRam.readCode DecRam.writeCode
  rw [Memory.read_write]
  exact if_congr (by omega) rfl rfl

/-- A code written reads in the RAM as in the abstract map, whatever both held before. -/
theorem DecRam.readCode_afterWrites (ram : DecRam) (dec : Memory (Code × Byte)) {entries : List (Code × Byte)} {k : Nat}
    (hk : 257 ≤ k) (hw : k < 257 + entries.length) :
    DecRam.readCode (DecRam.afterWrites ram entries) k = Memory.read (decAfterWrites dec entries) k := by
  induction entries with
  | nil => rw [List.length_nil] at hw; omega
  | cons entry earlier ih =>
    rw [List.length_cons] at hw
    rw [DecRam.afterWrites, decAfterWrites, DecRam.readCode_writeCode _ (by omega) hk, Memory.read_write]
    split_ifs
    · rfl
    · exact ih (by omega)

/-- Settles O43: the physical encode table holds every run of inserts within the capacity, so that it answers as the
map and leaves a slot empty; the decode RAM reads every written code as the map does. -/
theorem lookupEngineMatchesMap : Obligations.LookupEngineMatchesMap := by
  unfold Obligations.LookupEngineMatchesMap
  refine ⟨fun cfg keys hl hnd hcap p c => ⟨PhysEnc.lookup_afterInserts hl hnd hcap p c, fun m hm => ?_⟩,
    fun cfg ram dec entries hl hcap k hk hw => ⟨by omega, DecRam.readCode_afterWrites ram dec hk hw⟩⟩
  have hholds := PhysEnc.afterInserts_holds hl hnd hcap
  rw [hm] at hholds
  exact EncRam.probe_ne_endless ((EncRam.Holds.size hholds).trans_lt
    (hcap.trans_lt (Config.legal_capacity hl).2)) p c

end Sys2Proof.Machine
end

section
/-! PROOFS. The machine's tables are what a physical table holds (10_state.md R53; 44_dictionary_tables.md R206): from the
dictionary invariants, the run of inserts that built the table. -/

namespace Sys2Proof.Machine

open Sys2Proof

/-- The codes `257..257 + n − 1` of a compress dictionary are those of `n` inserts of distinct keys. -/
theorem EncInv.exists_inserts {s : State} (h : EncInv s) (n : Nat) (hn : 257 + n ≤ s.eng.nextCode.toNat)
    (hcap : 257 + n ≤ 2 ^ 16) :
    ∃ keys : List (Code × Byte), keys.Nodup ∧ keys.length = n ∧ ∀ p c k,
      Memory.read (encAfterInserts keys) (encKey p c) = some k ↔ encLookup p c s = some k ∧ k.toNat < 257 + n := by
  induction n with
  | zero =>
    refine ⟨[], List.nodup_nil, rfl, fun p c k => ?_⟩
    simp only [encAfterInserts, Memory.read_nil, reduceCtorEq, false_iff, not_and]
    intro hk
    have := (h.entry p c k hk).1
    omega
  | succ n ih =>
    obtain ⟨keys, hnd, rfl, hread⟩ := ih (by omega) (by omega)
    have hcode : (BitVec.ofNat 16 (257 + keys.length)).toNat = 257 + keys.length := by
      rw [BitVec.toNat_ofNat]; omega
    obtain ⟨p, c, hpc⟩ := h.onto (BitVec.ofNat 16 (257 + keys.length)) (by omega) (by omega)
    have hnew : (p, c) ∉ keys := by
      rw [← read_encAfterInserts_eq_none_iff, Option.eq_none_iff_forall_ne_some]
      intro k hk
      obtain ⟨hk, hlt⟩ := (hread p c k).mp hk
      rw [hpc] at hk
      rw [← Option.some.inj hk] at hlt
      omega
    refine ⟨(p, c) :: keys, List.nodup_cons.mpr ⟨hnew, hnd⟩, rfl, fun p' c' k => ?_⟩
    rw [read_encAfterInserts_cons]
    split_ifs with hkey
    · obtain ⟨rfl, rfl⟩ := hkey
      rw [hpc, Option.some.injEq, iff_self_and]
      rintro rfl
      omega
    · rw [hread, and_congr_right_iff]
      intro hk
      have hne : k.toNat ≠ 257 + keys.length := fun he => by
        obtain rfl : k = BitVec.ofNat 16 (257 + keys.length) := BitVec.eq_of_toNat_eq (he.trans hcode.symm)
        exact hkey (h.injective p' c' p c _ hk hpc)
      omega

/-- The first `n` entries of a decompress dictionary are those of `n` writes, whatever the RAM held before. -/
theorem DecDefined.exists_writes {dec : Memory (Code × Byte)} (n : Nat) (h : DecDefined dec (257 + n)) :
    ∃ entries : List (Code × Byte), entries.length = n ∧ ∀ (ram : DecRam) (k : Nat), 257 ≤ k → k < 257 + n →
      Memory.read dec k = DecRam.readCode (DecRam.afterWrites ram entries) k := by
  induction n with
  | zero => exact ⟨[], rfl, fun _ k hk hlt => by omega⟩
  | succ n ih =>
    obtain ⟨entries, rfl, hread⟩ := ih fun k hk hlt => h k hk (by omega)
    obtain ⟨p, c, hpc, -⟩ := h (257 + entries.length) (by omega) (by omega)
    refine ⟨(p, c) :: entries, rfl, fun ram k hk hlt => ?_⟩
    rw [DecRam.afterWrites, DecRam.readCode_writeCode _ (by omega) hk]
    split_ifs with hkn
    · rw [hkn, hpc]
    · exact hread ram k hk (by omega)

/-- The entries of an operation are within the capacity (44_dictionary_tables.md R217; 45_host_commands.md R229). -/
theorem EngineInv.next_capacity {s : State} (h : EngineInv s) (hl : s.cfg.legal = true) (hp : s.eng.phase ≠ .idle) :
    257 ≤ s.eng.nextCode.toNat ∧ s.eng.nextCode.toNat - 257 ≤ s.cfg.maxCodeCap.toNat - 256 := by
  obtain ⟨hlo, hhi⟩ := h.next hp
  have hmc := h.bound hp
  have hcap := (Config.legal_capacity hl).1
  omega

/-- Settles O44: by the run of inserts, or of writes, that the dictionary invariants give. -/
theorem machineLookupsArePhysical : Obligations.MachineLookupsArePhysical := by
  unfold Obligations.MachineLookupsArePhysical
  intro s hl h hp
  obtain ⟨h257, hcap⟩ := h.next_capacity hl hp
  have hnext : 257 + (s.eng.nextCode.toNat - 257) = s.eng.nextCode.toNat := by omega
  refine ⟨fun hd => ?_, fun hd => ?_⟩
  · have he := h.compress hp hd
    obtain ⟨keys, hnd, hlen, hread⟩ := he.exists_inserts (s.eng.nextCode.toNat - 257) hnext.le
      (by have := s.cfg.maxCodeCap.isLt; have := (Config.legal_capacity hl).1; omega)
    refine ⟨keys, hnd, by omega, by omega, fun p c => ?_⟩
    rw [PhysEnc.lookup_afterInserts hl hnd (by omega)]
    refine Option.ext fun k => ?_
    rw [hread, hnext, iff_self_and]
    exact fun hk => (he.entry p c k hk).2.1
  · obtain ⟨entries, hlen, hread⟩ := DecDefined.exists_writes (s.eng.nextCode.toNat - 257)
      (hnext.symm ▸ (h.decompress hp hd).entry)
    rw [hnext] at hread
    exact ⟨entries, by omega, by omega, hread⟩

end Sys2Proof.Machine
end

section
/-! PROOFS. A step stops only at an access refused by name (assumption 8): every other pending move answers a next state. -/

namespace Sys2Proof.Machine

open Sys2Proof

/-- A write in the window with some byte strobe active answers a next state: a command word's meaning does, a store does,
and in reset the write is ignored (20_memory.md R62; 70_reset_and_hazards.md R270). -/
theorem hostStep_regWrite_answers {off : Nat} {m : BitVec 4} (d : Word) (s : State) (hw : off < 64) (hm : m ≠ 0) :
    ∃ t, hostStep (.regWrite off m d) s = .next t := by
  cases hr : s.env.rstN with
  | false =>
    have hreg : regWrite off m d s = .done s := by
      rw [regWrite, if_neg (by simp [inWindow, hw]), if_neg hm, if_pos (by simp [hr])]
    exact ⟨s, by simp only [hostStep, hostMove, hreg]⟩
  | true =>
    rw [hostStep_regWrite d hr hm (by omega)]
    split_ifs
    · obtain ⟨t, ht, -⟩ := exec_command (decodeCmd d) (decodeCmd_format d) s
      exact ⟨t, ht⟩
    · exact ⟨_, rfl⟩

/-- An admissible move of the host, or the engine's, answers a next state. -/
theorem hostStep_answers {turn : HostTurn} {s : State} (h : EngineInv s) (ha : turn.admissible = true) :
    ∃ t, hostStep turn s = .next t := by
  cases turn with
  | engine => exact engineStep_answers h
  | regWrite off m d =>
    simp only [HostTurn.admissible, inWindow, Bool.and_eq_true, decide_eq_true_eq] at ha
    exact hostStep_regWrite_answers d s ha.1 ha.2
  | regRead off =>
    have hin : inWindow off = true := ha
    exact ⟨_, by simp only [hostStep, hostMove, regRead, hin]; rfl⟩
  | offer kind data => exact ⟨_, rfl⟩
  | withdraw => exact ⟨_, rfl⟩
  | sinkReady level => exact ⟨_, rfl⟩
  | rst level => exact ⟨_, rfl⟩

/-- Settles O50: the dictionary invariant lets every string walk end, and no other move but a refused access stops. -/
theorem noStepStops : Obligations.NoStepStops := by
  unfold Obligations.NoStepStops
  intro s h
  refine ⟨fun ha => ?_, fun off rest hs ho => ?_, fun off m d rest hs ho => ?_, fun off d rest hs ho => ?_⟩
  · cases hs : s.env.script with
    | nil => rw [step_of_nil h.legal hs]; exact engineStep_answers h.engine.popTurn
    | cons turn rest =>
      rw [step_of_cons h.legal hs]
      exact hostStep_answers h.engine.popTurn (ha turn (by rw [hs]; rfl))
  · rw [step_of_cons h.legal hs]
    simp [hostStep, hostMove, regRead, inWindow, ho]
  · rw [step_of_cons h.legal hs]
    simp [hostStep, hostMove, regWrite, inWindow, ho]
  · rw [step_of_cons h.legal hs]
    simp [hostStep, hostMove, regWrite, inWindow, ho]

end Sys2Proof.Machine
end

section
/-! PROOFS. What each command does to the whole state, and what every command leaves alone (45_host_commands.md R226 to
R235). -/

namespace Sys2Proof.Machine

open Sys2Proof

/-! ### START -/

/-- START's legality check in the words of R229. -/
theorem startLegal_iff {cfg : Config} {st : Strategy} {m : Word} :
    startLegal cfg st m = true ↔ m.toNat ≤ cfg.maxCodeCap.toNat ∧ (st = .fixedw → 256 ≤ m.toNat) := by
  simp only [startLegal, Bool.and_eq_true, Bool.or_eq_true, decide_eq_true_eq, ne_eq, ← imp_iff_not_or]

/-- START of a busy block is rejected (45_host_commands.md R228). -/
theorem start_of_busy (d : Dir) (st : Strategy) {s : State} (hb : s.eng.phase ≠ .idle) :
    start d st s = rejectCommand s := by
  rw [start, if_pos (State.busy_eq_true.mpr hb)]

/-- START of an idle block goes by the legality of MAX_CODE (45_host_commands.md R229). -/
theorem start_of_idle (d : Dir) (st : Strategy) {s : State} (hi : s.eng.phase = .idle) :
    start d st s = startIdle d st s := by
  rw [start, State.busy_eq_false.mpr hi]
  rfl

/-- START of an idle block with a legal MAX_CODE begins the operation (45_host_commands.md R229). -/
theorem start_of_legal {d : Dir} {st : Strategy} {s : State} (hi : s.eng.phase = .idle)
    (hl : startLegal s.cfg st s.regs.maxCode = true) :
    start d st s = startOperation d st s.regs.maxCode (startReport d st s) := by
  rw [start_of_idle d st hi, startIdle, if_pos hl]

/-- START of an idle block with a refused MAX_CODE completes with CFG_ERROR (45_host_commands.md R230). -/
theorem start_of_refused {d : Dir} {st : Strategy} {s : State} (hi : s.eng.phase = .idle)
    (hl : ¬ startLegal s.cfg st s.regs.maxCode = true) :
    start d st s = cfgError s.regs.maxCode (startReport d st s) := by
  rw [start_of_idle d st hi, startIdle, if_neg hl]

/-- Whatever the state, START answers by one of the three (45_host_commands.md R227). -/
theorem start_cases (d : Dir) (st : Strategy) (s : State) :
    start d st s = rejectCommand s ∨ start d st s = startOperation d st s.regs.maxCode (startReport d st s) ∨
      start d st s = cfgError s.regs.maxCode (startReport d st s) := by
  by_cases hi : s.eng.phase = .idle
  · by_cases hl : startLegal s.cfg st s.regs.maxCode = true
    · exact .inr (.inl (start_of_legal hi hl))
    · exact .inr (.inr (start_of_refused hi hl))
  · exact .inl (start_of_busy d st hi)

/-- What beginning an operation writes, MAX_CODE latched at its 16 bits (45_host_commands.md R229). -/
theorem startOperation_eq (d : Dir) (st : Strategy) (m : Word) (s : State) :
    startOperation d st m s =
      { s with
        eng.aDir := d
        eng.aStrat := st
        eng.aMc := m.setWidth 16
        eng.curValid := false
        eng.prevValid := false
        eng.phase := .run
        tabs.enc := []
        cs := sessionInit st (m.setWidth 16) } := by
  rw [← BitVec.ofNat_toNat]
  rfl

/-- Settles O21: a legal START latches MAX_CODE whole, so FIXEDW's width is that of MAX_CODE itself. -/
theorem startBeginsOperation : Obligations.StartBeginsOperation := by
  unfold Obligations.StartBeginsOperation
  intro d st s hi hcap hfw
  have hl : startLegal s.cfg st s.regs.maxCode = true := startLegal_iff.mpr ⟨hcap, hfw⟩
  have hm : (s.regs.maxCode.setWidth 16).toNat = s.regs.maxCode.toNat := by
    rw [← BitVec.ofNat_toNat]
    exact (startLegal_bounds hl).1
  rw [exec_start, start_of_legal hi hl, startOperation_eq]
  cases st with
  | text | fixed16 | adaptive => rfl
  | fixedw =>
    rw [sessionInit, initialWidth, hm]
    rfl

/-- Settles O22: either clause makes the legality check fail. -/
theorem startConfigError : Obligations.StartConfigError := by
  unfold Obligations.StartConfigError
  intro d st s hi hbad
  have hl : ¬ startLegal s.cfg st s.regs.maxCode = true := by
    rw [startLegal_iff]
    rintro ⟨hcap, hfw⟩
    rcases hbad with hgt | ⟨hst, hlt⟩
    · exact absurd hcap (Nat.not_le.mpr hgt)
    · exact absurd (hfw hst) (Nat.not_le.mpr hlt)
  rw [exec_start, start_of_refused hi hl]
  rfl

/-- Settles O23: the rejection raises CMD_IRQ and nothing else. -/
theorem startWhileBusyRejected : Obligations.StartWhileBusyRejected := by
  unfold Obligations.StartWhileBusyRejected
  intro d st s hb
  rw [exec_start, start_of_busy d st hb]
  rfl

/-! ### NOP, ABORT and CLEAR -/

/-- Settles O20: NOP's meaning is the state it is run in. -/
theorem nopChangesNothing : Obligations.NopChangesNothing := by
  unfold Obligations.NopChangesNothing
  intro s
  rfl

/-- ABORT of an idle block (45_host_commands.md R231). -/
theorem exec_abort_of_idle {s : State} (hi : s.eng.phase = .idle) : exec .abort s = .next s := by
  rw [exec, execAbort, State.busy_eq_false.mpr hi]
  rfl

/-- ABORT of a busy block (45_host_commands.md R232). -/
theorem exec_abort_of_busy {s : State} (hb : s.eng.phase ≠ .idle) : exec .abort s = .next (abortBusy s) := by
  rw [exec, execAbort, if_pos (State.busy_eq_true.mpr hb)]

/-- CLEAR of an idle block (45_host_commands.md R233). -/
theorem exec_clear_of_idle {s : State} (hi : s.eng.phase = .idle) : exec .clear s = .next (clearIdle s) := by
  rw [exec, execClear, State.busy_eq_false.mpr hi]
  rfl

/-- CLEAR of a busy block (45_host_commands.md R234). -/
theorem exec_clear_of_busy {s : State} (hb : s.eng.phase ≠ .idle) : exec .clear s = .next (rejectCommand s) := by
  rw [exec, execClear, if_pos (State.busy_eq_true.mpr hb)]

/-- What ABORT of a busy block writes (45_host_commands.md R232); the tables and the session are its own draws
(assumption 5). -/
theorem abortBusy_eq (s : State) :
    abortBusy s =
      let r := if s.eng.phase = .run then Reason.aborted else s.regs.reason
      { s with
        eng.obuf := []
        eng.phase := .idle
        regs.reason := r
        regs.errInfo := if s.eng.phase = .run then 0 else s.regs.errInfo
        regs.done := true
        regs.err := r.isErr
        regs.irqStatus := s.regs.irqStatus ||| completionIrq r.isErr
        tabs := (abortBusy s).tabs
        cs := (abortBusy s).cs } := by
  unfold abortBusy
  split_ifs <;> rfl

/-- Settles O24: the busy case is `abortBusy`, whose tables and session are the witnesses. -/
theorem abortEndsOperation : Obligations.AbortEndsOperation := by
  unfold Obligations.AbortEndsOperation
  refine fun s => ⟨exec_abort_of_idle, fun hb => ⟨(abortBusy s).tabs, (abortBusy s).cs, ?_⟩⟩
  intro r
  exact (exec_abort_of_busy hb).trans (congrArg Host.Outcome.next (abortBusy_eq s))

/-- Settles O25: `clearIdle` while idle, the rejection while busy. -/
theorem clearResetsReport : Obligations.ClearResetsReport := by
  unfold Obligations.ClearResetsReport
  exact fun s => ⟨exec_clear_of_idle, exec_clear_of_busy⟩

/-! ### What every command leaves alone -/

/-- A command other than START and ABORT writes STATUS, ERR_INFO and IRQ_STATUS at most (45_host_commands.md R226, R228,
R233 to R235). -/
theorem exec_writes_report {i : Instr} (hf : i.format = .cmd32) (hstart : ∀ d st, i ≠ Instr.start d st)
    (habort : i ≠ .abort) {s t : State} (h : exec i s = .next t) :
    ∃ done err reason info irq, t =
      { s with
        regs.done := done, regs.err := err, regs.reason := reason, regs.errInfo := info, regs.irqStatus := irq } := by
  rcases command_cases hf with ⟨d, st, rfl⟩ | rfl | rfl | rfl | ⟨w, rfl⟩
  · exact absurd rfl (hstart d st)
  · obtain rfl := Host.Outcome.next.inj h
    exact ⟨_, _, _, _, _, rfl⟩
  · exact absurd rfl habort
  · by_cases hi : s.eng.phase = .idle
    · obtain rfl := Host.Outcome.next.inj ((exec_clear_of_idle hi).symm.trans h)
      exact ⟨_, _, _, _, s.regs.irqStatus, rfl⟩
    · obtain rfl := Host.Outcome.next.inj ((exec_clear_of_busy hi).symm.trans h)
      exact ⟨_, _, _, _, _, rfl⟩
  · obtain rfl := Host.Outcome.next.inj h
    exact ⟨_, _, _, _, _, rfl⟩

/-- ABORT writes the report, the phase, the output buffer, the tables and the session at most (45_host_commands.md R231,
R232). -/
theorem exec_abort_writes {s t : State} (h : exec .abort s = .next t) :
    ∃ done err reason info irq obuf phase tabs cs, t =
      { s with
        regs.done := done, regs.err := err, regs.reason := reason, regs.errInfo := info, regs.irqStatus := irq
        eng.obuf := obuf, eng.phase := phase, tabs := tabs, cs := cs } := by
  by_cases hi : s.eng.phase = .idle
  · obtain rfl := Host.Outcome.next.inj ((exec_abort_of_idle hi).symm.trans h)
    exact ⟨_, _, _, _, _, _, _, _, _, rfl⟩
  · obtain rfl := Host.Outcome.next.inj ((exec_abort_of_busy hi).symm.trans h)
    exact ⟨_, _, _, _, _, _, _, _, _, abortBusy_eq s⟩

/-- Settles O26: START by its three cases, ABORT and the other commands by what they write at most. -/
theorem commandFrames : Obligations.CommandFrames := by
  unfold Obligations.CommandFrames
  intro i s t hf h
  by_cases hstart : ∃ d st, i = Instr.start d st
  · obtain ⟨d, st, rfl⟩ := hstart
    rw [exec_start] at h
    obtain rfl := Host.Outcome.next.inj h
    rcases start_cases d st s with e | e | e <;> rw [e] <;>
      exact ⟨rfl, rfl, rfl, rfl, rfl, rfl, rfl, fun hne => absurd rfl (hne d st), fun _ => ⟨rfl, rfl, rfl⟩,
        fun _ hne => absurd rfl (hne d st)⟩
  · by_cases habort : i = .abort
    · subst habort
      obtain ⟨done, err, reason, info, irq, obuf, phase, tabs, cs, rfl⟩ := exec_abort_writes h
      exact ⟨rfl, rfl, rfl, rfl, rfl, rfl, rfl, fun _ => ⟨rfl, rfl, rfl, rfl, rfl, rfl, rfl, rfl, rfl, rfl, rfl⟩,
        fun hne => absurd rfl hne, fun hne => absurd rfl hne⟩
    · have hne : ∀ d st, i ≠ Instr.start d st := fun d st e => hstart ⟨d, st, e⟩
      obtain ⟨done, err, reason, info, irq, rfl⟩ := exec_writes_report hf hne habort h
      exact ⟨rfl, rfl, rfl, rfl, rfl, rfl, rfl, fun _ => ⟨rfl, rfl, rfl, rfl, rfl, rfl, rfl, rfl, rfl, rfl, rfl⟩,
        fun _ => ⟨rfl, rfl, rfl⟩, fun _ _ => ⟨rfl, rfl, rfl⟩⟩

end Sys2Proof.Machine
end

section
/-! SUPPORT. When the engine waits (60_exceptions.md R268), and how a stopped operation comes to its end (R248, R250). -/

namespace Sys2Proof.Machine

open Sys2Proof

/-! ### The engine waits -/

/-- The engine waits when it has no beat to consume in RUN and none that the sink accepts (60_exceptions.md R268;
20_memory.md R66, R68). -/
theorem engineStep_wait {s : State} (hdrain : s.eng.obuf ≠ [] → s.env.outReady = false)
    (hconsume : s.eng.obuf = [] → s.eng.phase = .run → s.env.inq = []) : engineStep s = .next s := by
  rw [engineStep]
  rcases engineMove_cases s with hw | ⟨b, rest, -, ho, hs, -⟩ | ⟨b, rest, -, ho, hp, hi, -⟩
  · rw [hw, runFetch]
  · simp [hdrain (by simp [ho])] at hs
  · simp [hconsume ho hp] at hi

/-- Settles O11: each of the three cases leaves the engine nothing to drain and nothing to consume. -/
theorem stepWaits : Obligations.StepWaits := by
  unfold Obligations.StepWaits
  intro s hl hn h
  rw [step_engine hl hn]
  refine engineStep_wait (s := s.popTurn) (fun ho => ?_) (fun ho hp => ?_)
  · rcases h with ⟨-, he⟩ | ⟨-, hs⟩ | ⟨he, -⟩
    · exact absurd he ho
    · exact hs
    · exact absurd he ho
  · rcases h with ⟨hne, -⟩ | ⟨hne, -⟩ | ⟨-, hi⟩
    · exact absurd hp hne
    · exact absurd ho hne
    · exact hi

/-! ### A stopped operation completes -/

/-- The state in which the operation of `s` has completed, every beat left delivered; `n` is the BYTES_OUT it comes to
(60_exceptions.md R250). -/
def completedFrom (s : State) (n : Word) : State :=
  complete { s with eng.obuf := [], env.delivered := s.env.delivered ++ s.eng.obuf, regs.bytesOut := n }

theorem drainBeat_endMark_eq_completedFrom {s : State} (ho : s.eng.obuf = [.endMark]) :
    drainBeat .endMark [] s = completedFrom s s.regs.bytesOut := by
  rw [completedFrom, ho]
  rfl

/-- A byte delivered first leaves the same end of the operation. -/
theorem completedFrom_drainBeat {s : State} {x : Byte} {rest : List OutBeat} (ho : s.eng.obuf = .byte x :: rest)
    (n : Word) : completedFrom (drainBeat (.byte x) rest s) n = completedFrom s n := by
  simp [completedFrom, drainBeat, ho]

/-- Data bytes and one End take one step each, and the last of them completes the operation (20_memory.md R67;
60_exceptions.md R250). -/
theorem Undisturbed.run_completes {s : State} (h : Undisturbed s) (hq : endsOnce s.eng.obuf = true) :
    ∃ n : Word, Host.Core.run Sys2Proof.core s.eng.obuf.length s = .next (completedFrom s n) := by
  generalize ho : s.eng.obuf = q at hq
  induction q generalizing s with
  | nil => simp [endsOnce] at hq
  | cons b rest ih =>
    rw [List.length_cons, run_succ_of_step (h.step_drain ho)]
    cases b with
    | byte x =>
      have hnext : Undisturbed (drainBeat (.byte x) rest s) := ⟨h.legal, h.rstN, h.outReady, h.script⟩
      obtain ⟨n, hn⟩ := ih hnext rfl (endsOnce_tail hq)
      exact ⟨n, hn.trans (congrArg _ (completedFrom_drainBeat ho n))⟩
    | endMark =>
      obtain rfl := endsOnce_endMark hq
      exact ⟨s.regs.bytesOut, congrArg _ (drainBeat_endMark_eq_completedFrom ho)⟩

/-- DONE_IRQ is set at every completion (60_exceptions.md R250). -/
theorem completionIrq_doneIrq (e : Bool) : (completionIrq e).getLsbD 0 = true := by
  cases e <;> decide

/-- Settles O58: by `Undisturbed.run_completes`, since a consistent report in DRAIN says that the output buffer ends
with its one End. -/
theorem drainCompletes : Obligations.DrainCompletes := by
  unfold Obligations.DrainCompletes
  intro s hl hinv hd hr hs hscript
  obtain ⟨hq, -⟩ := hinv.drain hd
  obtain ⟨n, hn⟩ := Undisturbed.run_completes ⟨hl, hr, hs, hscript⟩ hq
  have hirq : (completedFrom s n).regs.irqStatus.getLsbD 0 = true := by
    rw [completedFrom, complete_irqStatus, BitVec.getLsbD_or, completionIrq_doneIrq, Bool.or_true]
  exact ⟨completedFrom s n, hn, rfl, rfl, rfl, rfl, rfl, rfl, rfl, rfl, hirq, rfl, rfl⟩

end Sys2Proof.Machine
end

section
/-! PROOFS. Reset: what a change of `rst_n` does, and what the block does while `rst_n` is 0 (70_reset_and_hazards.md
R270 to R273). -/

namespace Sys2Proof.Machine

open Sys2Proof

/-! ### A change of `rst_n` -/

/-- A pending move of `rst_n` is the whole step (70_reset_and_hazards.md R271, assumption 11). -/
theorem step_rst {s : State} {level : Bool} {rest : List HostTurn} (hl : s.cfg.legal = true)
    (hs : s.env.script = .rst level :: rest) : step s = .next (driveReset level { s with env.script := rest }) := by
  rw [step_of_cons hl hs, popTurn_of_script hs]
  rfl

/-- An assertion of `rst_n`, and its return to 1, reset the block (70_reset_and_hazards.md R270). -/
theorem driveReset_of_change {level : Bool} {s : State} (h : level = false ∨ s.env.rstN = false) :
    driveReset level s = { resetBlock s with env.rstN := level } := by
  rw [driveReset, if_neg]
  rcases h with h | h <;> simp [h]

/-- Driving `rst_n` to the 1 it has is no change (70_reset_and_hazards.md R270). -/
theorem driveReset_of_same {s : State} (h : s.env.rstN = true) : driveReset true s = s := by
  rw [driveReset, if_pos (by simp [h])]

/-! ### While `rst_n` is 0 -/

/-- `in_ready` is 0 in reset (70_reset_and_hazards.md R270). -/
theorem State.inReady_inReset {s : State} (hr : s.env.rstN = false) : s.inReady = false := by
  simp [State.inReady, hr]

/-- `out_valid` is 0 in reset (70_reset_and_hazards.md R270). -/
theorem State.outValid_inReset {s : State} (hr : s.env.rstN = false) : s.outValid = false := by
  simp [State.outValid, hr]

/-- `irq` is 0 in reset (70_reset_and_hazards.md R270). -/
theorem State.irq_inReset {s : State} (hr : s.env.rstN = false) : s.irq = false := by
  simp [State.irq, hr]

/-- The engine takes no step in reset (70_reset_and_hazards.md R270). -/
theorem engineStep_inReset {s : State} (hr : s.env.rstN = false) : engineStep s = .next s := by
  rw [engineStep, engineMove, if_neg (by simp [hr]), runFetch]

/-- A register write, a command word included, is ignored in reset (70_reset_and_hazards.md R270). -/
theorem hostStep_regWrite_inReset {s : State} {off : Nat} {m : BitVec 4} (d : Word) (hr : s.env.rstN = false)
    (hw : off < 64) (hm : m ≠ 0) : hostStep (.regWrite off m d) s = .next s := by
  have hreg : regWrite off m d s = .done s := by
    rw [regWrite, if_neg (by simp [inWindow, hw]), if_neg hm, if_pos (by simp [hr])]
  simp only [hostStep, hostMove, hreg]

/-- CAPS alone shows what a reset leaves as it was, the parameters: every other word reads as it does right after reset
(10_state.md R22, R52). -/
theorem readWord_resetBlock (s : State) {i : Nat} (hi : i ≠ 12) :
    readWord (resetBlock s) i = readWord State.reset i := by
  unfold readWord
  split
  case h_12 => exact absurd rfl hi
  all_goals rfl

/-- A read in reset returns the word the reset state returns (70_reset_and_hazards.md R270). -/
theorem readReg_inReset {s : State} {off : Nat} (hr : s.env.rstN = false) (hw : off < 64) (ho : off / 4 ≠ 12) :
    readReg s off = readReg State.reset off := by
  have hindex : wordIndex off = off / 4 := wordIndex_of_inWindow (decide_eq_true hw)
  calc readReg s off = readWord (resetBlock s) (off / 4) := by rw [readReg, if_neg (by simp [hr]), hindex]
    _ = readWord State.reset (off / 4) := readWord_resetBlock s ho
    _ = readReg State.reset off := by rw [readReg, if_pos (show State.reset.env.rstN = true from rfl), hindex]

/-- Settles O18: a change of `rst_n` is `resetBlock` with the new level, which keeps the environment's part. -/
theorem resetAbandonsOperation : Obligations.ResetAbandonsOperation := by
  unfold Obligations.ResetAbandonsOperation
  refine ⟨fun s level rest hl hs hchange => ?_, fun s rest hl hs hr => ?_⟩
  · have hstep := step_rst hl hs
    rw [driveReset_of_change (s := { s with env.script := rest }) hchange] at hstep
    refine ⟨_, hstep, rfl, rfl, rfl, rfl, rfl, rfl, rfl, rfl, rfl, ?_, ?_, ?_, rfl, rfl⟩
    · simp [State.inReady]
    · simp [State.outValid]
    · simp [State.irq, Regs.reset]
  · rw [step_rst hl hs, driveReset_of_same (s := { s with env.script := rest }) hr]

/-- Settles O19: one rule for each access to a block in reset. -/
theorem inResetNothingMoves : Obligations.InResetNothingMoves := by
  unfold Obligations.InResetNothingMoves
  intro s hl hr
  refine ⟨State.inReady_inReset hr, State.outValid_inReset hr, State.irq_inReset hr, fun hn => ?_,
    fun off m d rest hs hw hm => ?_, fun off hw ho => readReg_inReset hr hw ho, readReg_caps s⟩
  · exact (step_engine hl hn).trans (engineStep_inReset (s := s.popTurn) hr)
  · rw [step_of_cons hl hs, hostStep_regWrite_inReset d (s := s.popTurn) hr hw hm, popTurn_of_script hs]

end Sys2Proof.Machine
end

section
/-! PROOFS. The length of a string, and of what one received code pushes (44_dictionary_tables.md R219; 43_decompress.md
R196). -/

namespace Sys2Proof.Machine

open Sys2Proof

/-- `|str(k)| ≤ k − 255` for a dictionary code, and 1 for a literal: each prefix is smaller than its own code
(44_dictionary_tables.md R219). -/
theorem StrOf.length_le {dec : Memory (Code × Byte)} {n : Nat} (hd : DecDefined dec n) {k : Code} {bs : List Byte}
    (h : StrOf dec k bs) : k.toNat < n → bs.length ≤ max 1 (k.toNat - 255) := by
  induction h with
  | literal k b hk => exact fun _ => le_max_left _ _
  | entry k p c bs hk hr hp ih =>
    intro hlt
    obtain ⟨p', c', hr', hpk, -⟩ := hd k.toNat hk hlt
    obtain ⟨rfl, rfl⟩ : p = p' ∧ c = c' := by simpa [hr] using hr'
    have hprefix := ih (by omega)
    rw [List.length_append, List.length_singleton]
    omega

/-- The decode stack holds the longest string of the largest `max_code` (00_scope.md R8; 44_dictionary_tables.md R219). -/
theorem Config.legal_stackDepth {cfg : Config} (h : cfg.legal = true) : cfg.maxCodeCap.toNat - 255 ≤ cfg.stackDepth := by
  simp only [Config.legal, Bool.and_eq_true, decide_eq_true_eq] at h
  exact (le_max_right _ _).trans h.2

/-- A dictionary code is at most `a_mc`, since an insert has room only up to it (43_decompress.md R189). -/
theorem EngineInv.code_le_aMc {s : State} (h : EngineInv s) (hp : s.eng.phase ≠ .idle) {k : Nat} (h257 : 257 ≤ k)
    (hlt : k < s.eng.nextCode.toNat) : k ≤ s.eng.aMc.toNat := by
  have hnext := (h.next hp).2
  omega

theorem decodeInsert_obuf (first : Byte) (s : State) : (decodeInsert first s).eng.obuf = s.eng.obuf := by
  obtain ⟨n, dec, e⟩ := decodeInsert_writes first s
  rw [e]

/-- What a completed code pushes: the End of a stop, a literal's byte, its string, or the previous string and one byte
more; all of them within R196's bound. -/
theorem CodeMove.obuf_length_le {k : Code} {s t : State} (m : CodeMove k s t) (h : EngineInv s)
    (hp : s.eng.phase ≠ .idle) (hd : s.eng.aDir = .decompress) :
    t.eng.obuf.length ≤ s.eng.obuf.length + max 1 (s.eng.aMc.toNat - 255) := by
  have hdec := h.decompress hp hd
  cases m with
  | eof | bad =>
    rw [raiseStop_obuf, List.length_append, List.length_singleton]
    exact Nat.add_le_add_left (le_max_left _ _) _
  | lit b =>
    rw [acceptCode_obuf, List.length_append, List.length_map, List.length_singleton]
    exact Nat.add_le_add_left (le_max_left _ _) _
  | dict first rest h257 hlt hstr =>
    have hlen := (decodeString_strOf hstr).length_le hdec.entry hlt
    have hmc := h.code_le_aMc hp h257 hlt
    rw [acceptCode_obuf, List.length_append, List.length_map, stackPopped_eng]
    omega
  | kwkwk bs hk h257 hv hr hstr =>
    have hprev := (hdec.prev hv).1
    have hlen := (decodeString_strOf hstr).length_le hdec.entry hprev
    rw [setPrevious_obuf, decodeInsert_obuf, outPushAll_obuf, List.length_append, List.length_map, List.length_append,
      List.length_singleton, stackPopped_eng]
    omega

/-- Settles O32: by the length of a string in a dictionary whose prefixes decrease, and by the move of the code. -/
theorem stringLengthBound : Obligations.StringLengthBound := by
  unfold Obligations.StringLengthBound
  intro s hl h hp hd
  refine ⟨fun k bs h257 hlt hstr => ?_, fun k t ht => (exec_classify_next k s t ht).obuf_length_le h hp hd⟩
  have hlen := hstr.length_le (h.decompress hp hd).entry hlt
  have hmc := h.code_le_aMc hp h257 hlt
  have hcap := h.bound hp
  have hdepth := Config.legal_stackDepth hl
  omega

end Sys2Proof.Machine
end

section
/-! PROOFS. A word that `withFetchWord` places is the next instruction run (assumption 9). -/

namespace Sys2Proof.Machine

open Sys2Proof

/-- The bytes of a number spell its low bits. -/
theorem leBytes_ofNat (n w : Nat) : leBytes n (BitVec.ofNat (8 * n) w).toNat = leBytes n w := by
  have h := leBytes_leNat (leBytes n w)
  rwa [leBytes_length, leNat_leBytes_mod, ← BitVec.toNat_ofNat] at h

/-- 32 bits of the opcode table decode as a command word (30_encoding.md R94). -/
theorem decodeTableWord_command (w : Nat) : decodeTableWord 32 w = some (decodeCmd (BitVec.ofNat 32 w)) := by
  have h := decode_cmd32 CodeCtx.sample (BitVec.ofNat 32 w)
  rw [leBytes_ofNat 4 w] at h
  rw [decodeTableWord, h, Decoded.toOption]

/-- 16 bits of the opcode table decode as a code in the sample session (30_encoding.md R97). -/
theorem decodeTableWord_code (w : Nat) :
    decodeTableWord 16 w = some (classify CodeCtx.sample (BitVec.ofNat 16 w)) := by
  have h := decode_code16 CodeCtx.sample (BitVec.ofNat 16 w)
  rw [leBytes_ofNat 2 w] at h
  rw [decodeTableWord, h, Decoded.toOption]

/-- The second byte of a Fixed-16 code completes it (41_code_stream.md R137). -/
theorem fixed16ReadByte_second (w : Nat) {c : CodeStream} (hn : c.nbits = 8) (ha : c.acc = BitVec.ofNat 24 (w % 256)) :
    readByte .fixed16 (BitVec.ofNat 8 (w / 256)) c = .code (BitVec.ofNat 16 w) { c with acc := 0, nbits := 0 } := by
  have hval : BitVec.ofNat 16 (256 * (BitVec.ofNat 8 (w / 256)).toNat + c.acc.toNat % 256) = BitVec.ofNat 16 w := by
    apply BitVec.eq_of_toNat_eq
    simp only [ha, BitVec.toNat_ofNat]
    omega
  rw [readByte, fixed16ReadByte, if_neg (by simp [hn]), hval]

/-- The engine may consume the byte that a placed code puts at the input port (20_memory.md R68). -/
theorem withFetchWord_canConsume {s : State} (hl : s.cfg.legal = true) (w : Nat) :
    (s.withFetchWord 16 w).canConsume :=
  ⟨hl, rfl, rfl, rfl, rfl⟩

/-- Settles O8: a command word is the pending write to CMD, and the byte of a code completes it in the sample session. -/
theorem placedWordRuns : Obligations.PlacedWordRuns := by
  unfold Obligations.PlacedWordRuns
  intro s w i hl
  refine ⟨fun h => ?_, fun h => ?_⟩
  · rw [decodeTableWord_command, Option.some.injEq] at h
    rw [step_command (s := s.withFetchWord 32 w) hl rfl rfl (by decide) (by decide), h]
    rfl
  · rw [decodeTableWord_code, Option.some.injEq] at h
    have hread := fixed16ReadByte_second w (c := (s.withFetchWord 16 w).cs) rfl rfl
    have hfetch := fetchBeat_completed (s := { (s.withFetchWord 16 w).popTurn with env.inq := s.env.inq }) hread
    rw [step_consumeBeat (withFetchWord_canConsume hl w) rfl, ← h]
    exact congrArg runFetch hfetch

end Sys2Proof.Machine
end
